-- ==== Sys2Proof/Word.lean ====
section
/-! DEFINITION. The word types of the link core: whole bytes on the wire and the two odd widths its counters have (spec/00_scope.md R9, spec/10_state.md). -/

namespace Sys2Proof

/-- A byte of the wire, of a payload or of a buffer (R9). -/
abbrev Byte := BitVec 8

/-- `u9`: the width of `rx_len`, `rx_cnt` and `blk_len` (R25, R26, R39). -/
abbrev U9 := BitVec 9

/-- `u16`: the checksum field, `xfer_cnt`, `retry_cnt` and `timer_ms` (R28, R38, R40, R43). -/
abbrev U16 := BitVec 16

end Sys2Proof
end

