-- ==== Sys2Proof/Config.lean ====
section
/-! DEFINITION. What is fixed for one instance of the link core: the source's constants (R7), the parameters that the spec leaves open (R8), and the values that the spec does not constrain at all (free values: constants with no body, so that no proof can know them). -/

namespace Sys2Proof

/-- `START`, the start marker byte (R7). -/
abbrev startByte : Byte := 0xA5

/-- `END`, the end marker byte (R7). -/
abbrev endByte : Byte := 0x5A

/-- `PKG_DATA_MAX`, the largest payload in bytes (R7). -/
abbrev pkgDataMax : Nat := 256

/-- `T_CHUNK`, the deadline in milliseconds after a chunk command (R7). -/
abbrev tChunk : U16 := 1500

/-- The number of bytes of `xfer_buf`, indices 0 to 0x7FFF (R44, R63). -/
abbrev xferBufSize : Nat := 0x8000

/-- The number of bytes of `rx_buf`, indices 0 to 255 (R27, R62). -/
abbrev rxBufSize : Nat := 256

/-- `CHECKSUM_MODE` (R8, R160, R161). -/
inductive ChecksumMode where
  | none
  | strict
  deriving DecidableEq, Repr

/-- The three memory types that a valid MemoryType code names (R103). `MT_NONE` is no member: it is the code of no memory. -/
inductive MemType where
  | t24LC16
  | tX24645
  | t24LC256
  deriving DecidableEq, Repr

/-- The parameters of R8 that an instance is built with. They stand in the state as plain data because a step has no other argument, and no step changes them. `ROLE` is held by the link state's own type, `csum_fn` by `Config.csumFn` (log entry 11). -/
structure Cfg where
  checksumMode : ChecksumMode
  /-- `INFO_LEN`, 0 to 256. -/
  infoLen : Nat
  /-- `HOST_TARGET`, read by a HOST alone. -/
  hostTarget : MemType
  /-- `DEV_SUPPORTED`, read by a DEVICE alone. -/
  devSupported : List MemType
  /-- `MAX_RETRY`, 1 to 65535. -/
  maxRetry : Nat
  tInit : U16
  tPing : U16
  tMemid : U16
  tXferInit : U16
  /-- `T_LIVE`, above 0 ms: the period of the liveness timer outside the block. No rule reads it (R286). -/
  tLive : Nat
  /-- `TXQ_BYTES`, at least 261. -/
  txqBytes : Nat
  deriving DecidableEq, Repr

/-- The defaults that R8 names, with the reference checksum mode. `HOST_TARGET` and `T_LIVE` have no default in the spec: 24LC16 and 1 ms are the model's choice (log entry 3). -/
def Cfg.default : Cfg where
  checksumMode := .none
  infoLen := 256
  hostTarget := .t24LC16
  devSupported := [.t24LC16, .tX24645, .t24LC256]
  maxRetry := 10
  tInit := 2000
  tPing := 2000
  tMemid := 2000
  tXferInit := 7000
  tLive := 1
  txqBytes := 522

/-- The domains that R8 gives the parameters. Values outside them are no configuration of this hardware (U30). -/
abbrev Cfg.wf (c : Cfg) : Prop :=
  c.infoLen ≤ 256 ∧ (1 ≤ c.maxRetry ∧ c.maxRetry ≤ 65535) ∧ 261 ≤ c.txqBytes ∧
    (200 ≤ c.tInit.toNat ∧ c.tInit.toNat ≤ 2000) ∧ (200 ≤ c.tPing.toNat ∧ c.tPing.toNat ≤ 2000) ∧
    (200 ≤ c.tMemid.toNat ∧ c.tMemid.toNat ≤ 2000) ∧ c.tXferInit.toNat ≤ 7000 ∧ 0 < c.tLive

/-- `csum_fn` of STRICT mode, "of which nothing is assumed except that it is a total function of `c` and `P` alone" (R160). -/
opaque Config.csumFn : Byte → List Byte → U16

/-- What index `i` of `rx_buf` holds after the `k`-th reset while nothing has written it (R27, R50). -/
opaque Config.rxBufByte : (k i : Nat) → Byte

/-- What index `i` of `xfer_buf` holds after the `k`-th reset while nothing has written it (R44, R50). -/
opaque Config.xferBufByte : (k i : Nat) → Byte

/-- What offset `a` of the ideal backend holds before anything has written it (R68 gives no contents). -/
opaque Config.backendCell : (a : Nat) → Byte

/-- Whether the backend's `k`-th answer is `error`, where no answer is written down beforehand (R66, R67). -/
opaque Config.backendError : (k : Nat) → Bool

/-- The byte at offset `a` in the backend's `k`-th answer, where no answer is written down beforehand (R66). -/
opaque Config.backendByte : (k a : Nat) → Byte

end Sys2Proof
end

