-- ==== Sys2Proof/Machine/Memory.lean ====
section
/-! DEFINITION. A byte-addressed buffer as a list of (index, byte) pairs in one canonical form: indices strictly rising. It holds the three address spaces of spec/20_memory.md: `rx_buf` (R62), `xfer_buf` (R63) and the ideal backend's array (R68). An unlisted index holds no value of its own: what reading it gives is a free value that the reader passes in. -/

namespace Sys2Proof.Machine

/-- A buffer: the bytes written so far, in rising order of index. -/
abbrev Memory := List Host.Cell

/-- The canonical form: indices strictly rise, so that equal buffers are equal lists. No entry can equal what an unlisted index reads as, since that is no known value. -/
abbrev Memory.wf (m : Memory) : Prop := m.Pairwise (fun c d => c.1 < d.1)

/-- Every listed index is below `n`: the buffer lies in the address space the spec gives it. -/
abbrev Memory.below (m : Memory) (n : Nat) : Prop := ∀ c ∈ m, c.1 < n

/-- The byte written at index `a`, if one was. -/
def Memory.lookup (m : Memory) (a : Nat) : Option Byte :=
  match m with
  | [] => none
  | c :: t => bif c.1.beq a then some c.2 else Memory.lookup t a

/-- What reading index `a` gives; `free` is what an index that nothing has written reads as. -/
def Memory.readByte (free : Nat → Byte) (m : Memory) (a : Nat) : Byte := (m.lookup a).getD (free a)

/-- The buffer without its cell for index `a`. -/
def Memory.without (m : Memory) (a : Nat) : Memory :=
  match m with
  | [] => []
  | c :: t => bif c.1.beq a then t else c :: Memory.without t a

/-- The `n` bytes at indices `a` to `a + n - 1`, lowest index first (R70). A cell that was read is left out of the search for the later ones; `Memory.readBytes_eq_map` says that this is reading each index of `m`. -/
def Memory.readBytes (free : Nat → Byte) (m : Memory) (a n : Nat) : List Byte :=
  match n with
  | 0 => []
  | n + 1 => m.readByte free a :: Memory.readBytes free (m.without a) (a + 1) n

/-- The bytes `bs` as cells from index `a` upward (R70). -/
def Memory.cellsAt (a : Nat) : List Byte → Memory
  | [] => []
  | b :: bs => (a, b) :: Memory.cellsAt (a + 1) bs

/-- `buf[a .. a + |bs|) <- bs` (R11): the new cells stand where the first index that is not below `a` stood, and the cells they replace are gone. -/
def Memory.writeBytes (m : Memory) (a : Nat) (bs : List Byte) : Memory :=
  match m with
  | [] => Memory.cellsAt a bs
  | c :: t =>
    bif c.1.blt a then c :: Memory.writeBytes t a bs
    else Memory.cellsAt a bs ++ (c :: t).filter (fun d => d.1.blt a || (a + bs.length).ble d.1)

end Sys2Proof.Machine
end

