-- ==== Sys2Proof/Syntax.lean ====
section
/-! DEFINITION. The instructions: one constructor for each of the 18 commands of the vocabulary (spec/30_encoding.md R96, spec/opcode_table.json). An instruction is a command as it is delivered: its payload and the checksum field of its frame. -/

namespace Sys2Proof

/-- A delivered command (R96), in the table's order. `cs` is the checksum field of its frame (R90, R105), `t` a MemoryType code, `e` an ErrorCode, `x` a byte without meaning, `P` a block (R102). -/
inductive Instr where
  | noneCmd (cs : U16)
  | init (cs : U16)
  | ping (cs : U16)
  | memid (t : Byte) (cs : U16)
  | startxfer (cs : U16)
  | endxfer (cs : U16)
  | disconnect (cs : U16)
  | ok (cs : U16)
  | txrxAck (cs : U16)
  | txrxDone (cs : U16)
  | err (e : Byte) (cs : U16)
  | txrxErr (cs : U16)
  | readmem (t : Byte) (cs : U16)
  | readnext (cs : U16)
  | memdata (P : List Byte) (cs : U16)
  | data (x : Byte) (cs : U16)
  | info (P : List Byte) (cs : U16)
  | writemem (t : Byte) (cs : U16)
  deriving DecidableEq, Repr

end Sys2Proof
end

