-- ==== Sys2Proof/Machine/State.lean ====
section
/-! DEFINITION. The state of one instance of the link core: every register of spec/10_state.md, the two buffers, the output traces, and beside them what the environment has still to give (pending events, the backend) as plain data. -/

namespace Sys2Proof.Machine

/-- `rx_state`, the five decoder states (R22). -/
inductive RxState where
  | seekStart
  | readCommand
  | readData
  | readChecksum
  | readEnd
  deriving DecidableEq, Repr

/-- The ten protocol states of a HOST (R31). -/
inductive HostState where
  | disconnected
  | init
  | memid
  | idle
  | waitPing
  | waitReadmemOk
  | waitReadmemData
  | waitWritememOk
  | waitWritememAck
  | halted
  deriving DecidableEq, Repr

/-- The six protocol states of a DEVICE (R32). -/
inductive DevState where
  | disconnected
  | idle
  | waitMemid
  | read
  | write
  | ping
  deriving DecidableEq, Repr

/-- `link_state` (R31, R32). The two roles have closed enumerations of their own, so that the value also says the instance's `ROLE` (R2). -/
inductive LinkState where
  | host (h : HostState)
  | device (d : DevState)
  deriving DecidableEq, Repr

/-- `ROLE` (R2, R8). -/
inductive Role where
  | host
  | device
  deriving DecidableEq, Repr

/-- The operations that a request asks for; a register `cur_op` or `pend_op` holds one of them or `none` for `OP_NONE` (R36, R37). -/
inductive OpKind where
  | read
  | write
  | ping
  deriving DecidableEq, Repr

/-- The nine ErrorCode names (R104). A received code may be any byte and is kept as a byte. -/
inductive ErrorCode where
  | none
  | unknown
  | memid
  | readmem
  | writemem
  | comm
  | maxRetry
  | timeout
  | memidx
  deriving DecidableEq, Repr

/-- `res` of `EV_OP_FINISHED` (R176). -/
inductive OpResult where
  | ok
  | err (code : Byte)
  | sizeMismatch
  | disconnected
  deriving DecidableEq, Repr

/-- `why` of `EV_REJECTED` (R176). -/
inductive RejectWhy where
  | busy
  | halted
  deriving DecidableEq, Repr

/-- The application events (R176). -/
inductive AppEvent where
  | connected
  | reconnect (kind : Byte)
  | pingOk
  | memReceived (img : List Byte)
  | writeConfirmed
  | peerError (code : Byte)
  | opFinished (op : OpKind) (res : OpResult)
  | fatal (kind : Byte)
  | rejected (op : OpKind) (why : RejectWhy)
  deriving DecidableEq, Repr

/-- The calls recorded in `timer_cmd` (R46, R280, R281). -/
inductive TimerCall where
  | arm (ms : U16)
  | cancel
  deriving DecidableEq, Repr

/-- An application request `req(op, img)`: the image is present for a write alone (R185). -/
inductive Request where
  | read
  | write (img : List Byte)
  | ping
  deriving DecidableEq, Repr

/-- The events that a step may take (R14, R275). -/
inductive Event where
  | rxByte (b : Byte)
  | txByte
  | timerFired
  | liveTick
  | req (r : Request)
  | reqConnect
  | reqDisconnect
  | reset
  deriving DecidableEq, Repr

/-- The exceptions that a rule may raise (R262). -/
inductive Exn where
  | protocolViolation
  | checksumFailure
  | timeout
  | retryExceeded
  | deviceError (code : ErrorCode)
  deriving DecidableEq, Repr

/-- One answer of the memory backend (R66, R67): `error`, or success. `ok bs` answers a `MemRead` with the bytes `bs` and a `MemWrite` with `ok`. -/
inductive BackendReply where
  | error
  | ok (bs : List Byte)
  deriving DecidableEq, Repr

/-- The memory backend, which is outside the block (R66 to R68). `ideal` is the reference environment of R68. `oracle` answers with `replies` in order and, when they are used up, with free values; `asked` counts those. -/
inductive Backend where
  | ideal (cells : Memory)
  | oracle (replies : List BackendReply) (asked : Nat)
  deriving DecidableEq, Repr

/-- The decoder's registers (R22 to R28, the `DecoderState` of R148). -/
structure Decoder where
  rxState : RxState
  rxCmd : Byte
  rxKnown : Bool
  rxLen : U9
  rxCnt : U9
  rxBuf : Memory
  rxCsum : U16
  deriving DecidableEq, Repr

/-- Why the machine stops. No run from reset reaches one of these: the block itself never faults (R142), and each names an access that the spec says the block never makes. -/
inductive Fault where
  /-- Raised by `rxByte` where the decoder would use an index of `rx_buf` above 255, which does not exist (R27, R62, R139). Safe. -/
  | rxBufIndex
  /-- Raised by a block moved to or from `xfer_buf` beyond index 0x7FFF, which does not exist (R44, R63). Safe. -/
  | xferBufIndex
  /-- Raised by a `MEMDATA` whose block does not lie inside the backend's offsets (R64), so that R66 and R67 admit no call with it. Safe. -/
  | backendRange
  deriving DecidableEq, Repr

/-- Why an instruction has no meaning in the model. -/
inductive Refusal where
  /-- Raised by `exec`'s arm of an instruction that has no meaning yet. No arm is left so. Safe. -/
  | notModelled (mnemonic : String)
  deriving DecidableEq, Repr

/-- One instance of the link core and its pending inputs. -/
structure State where
  /-- The static parameters of the instance (R8, R21). -/
  cfg : Cfg
  /-- `rx_state`, `rx_cmd`, `rx_known`, `rx_len`, `rx_cnt`, `rx_buf`, `rx_csum` (R22 to R28). -/
  dec : Decoder
  /-- `txq` (R29). -/
  txq : List Byte
  /-- `link_state`, and with it `ROLE` (R2, R31, R32). -/
  link : LinkState
  /-- `link_en` (R33). -/
  linkEn : Bool
  /-- `connected` (R34). -/
  connected : Bool
  /-- `memtype` (R35). -/
  memtype : Byte
  /-- `cur_op` (R36). -/
  curOp : Option OpKind
  /-- `pend_op` (R37). -/
  pendOp : Option OpKind
  /-- `xfer_cnt` (R38). -/
  xferCnt : U16
  /-- `blk_len` (R39). -/
  blkLen : U9
  /-- `retry_cnt` (R40). -/
  retryCnt : U16
  /-- `last_tx_cmd` (R41). -/
  lastTxCmd : Byte
  /-- `last_rx_cmd` (R42). -/
  lastRxCmd : Byte
  /-- `timer_armed` (R43). -/
  timerArmed : Bool
  /-- `timer_ms` (R43). -/
  timerMs : U16
  /-- `xfer_buf` (R44). -/
  xferBuf : Memory
  /-- `flt_tx_len` (R45). -/
  fltTxLen : Bool
  /-- `flt_txq` (R45). -/
  fltTxq : Bool
  /-- `wire_out` (R46, R61). -/
  wireOut : List Byte
  /-- `app_ev` (R46, R175). -/
  appEv : List AppEvent
  /-- `timer_cmd` (R46). -/
  timerCmd : List TimerCall
  /-- The events the environment has still to give, in the order the block takes them; `wire_in` (R60) is its `rxByte` entries (R21: arguments of the step, held here). -/
  events : List Event
  /-- The memory backend (R64, R66 to R68), outside the block (R21). -/
  backend : Backend
  /-- The model's own: how many reset events were taken, so that the unspecified buffer contents after each are free anew (R50). -/
  resets : Nat
  deriving DecidableEq, Repr

/-- `ROLE` of the instance (R2). -/
def State.role (s : State) : Role :=
  match s.link with
  | .host _ => .host
  | .device _ => .device

/-- `H_DISCONNECTED` or `D_DISCONNECTED`, the reset value of `link_state` (R50). -/
def Role.disconnected : Role → LinkState
  | .host => .host .disconnected
  | .device => .device .disconnected

/-- The decoder's reset values (R22 to R28, R50); nothing is written in `rx_buf`. -/
def Decoder.reset : Decoder where
  rxState := .seekStart
  rxCmd := 0x00
  rxKnown := false
  rxLen := 0
  rxCnt := 0
  rxBuf := []
  rxCsum := 0x0000

/-- The state right after reset (R50, R300) of an instance of role `r` built with `c`, with no event pending and a backend of which nothing is known. -/
def State.resetOf (c : Cfg) (r : Role) : State where
  cfg := c
  dec := Decoder.reset
  txq := []
  link := r.disconnected
  linkEn := false
  connected := false
  memtype := 0x00
  curOp := none
  pendOp := none
  xferCnt := 0
  blkLen := 0
  retryCnt := 0
  lastTxCmd := 0x00
  lastRxCmd := 0x00
  timerArmed := false
  timerMs := 0
  xferBuf := []
  fltTxLen := false
  fltTxq := false
  wireOut := []
  appEv := []
  timerCmd := []
  events := []
  backend := .oracle [] 0
  resets := 0

/-- The machine after reset: R50 for a DEVICE with the default parameters. The role and `HOST_TARGET` are static arguments (R8); the model's reset state is that of a DEVICE (log entries 2 and 3). -/
def State.reset : State := State.resetOf Cfg.default .device

end Sys2Proof.Machine
end

