-- ==== Sys2Proof/Machine/Operands.lean ====
section
/-! DEFINITION. Operand assembly: the command bytes, the length table, MemoryType and ErrorCode codes, the checksum field's byte order, and the numbers that the spec gives its enumerations (spec/30_encoding.md, spec/10_state.md). -/

namespace Sys2Proof.Machine

/-! The vocabulary (R96). -/

def cmdNone : Byte := 0x00
def cmdInit : Byte := 0x01
def cmdPing : Byte := 0x02
def cmdMemid : Byte := 0x03
def cmdStartxfer : Byte := 0xA5
def cmdEndxfer : Byte := 0x5A
def cmdDisconnect : Byte := 0x0F
def cmdOk : Byte := 0x10
def cmdTxrxAck : Byte := 0x11
def cmdTxrxDone : Byte := 0x12
def cmdErr : Byte := 0xF0
def cmdTxrxErr : Byte := 0xF1
def cmdReadmem : Byte := 0x60
def cmdReadnext : Byte := 0x61
def cmdMemdata : Byte := 0x70
def cmdData : Byte := 0x71
def cmdInfo : Byte := 0x72
def cmdWritemem : Byte := 0x80

/-- The 18 opcodes (R96, R97). -/
def vocabulary : List Byte :=
  [cmdNone, cmdInit, cmdPing, cmdMemid, cmdStartxfer, cmdEndxfer, cmdDisconnect, cmdOk, cmdTxrxAck, cmdTxrxDone,
    cmdErr, cmdTxrxErr, cmdReadmem, cmdReadnext, cmdMemdata, cmdData, cmdInfo, cmdWritemem]

/-- `known(c)` (R97). -/
def known (c : Byte) : Bool := vocabulary.contains c

/-! MemoryType codes (R103). -/

/-- `MT_NONE`. -/
def mtNone : Byte := 0x00

/-- The wire code of a memory type (R8, R103). -/
def memCode : MemType → Byte
  | .t24LC16 => 0x01
  | .tX24645 => 0x02
  | .t24LC256 => 0x03

/-- The memory type that a code names; the codes 0x00 and 0x04 to 0xFF name none (R103). -/
def memOfCode (t : Byte) : Option MemType :=
  if t = 0x01 then some .t24LC16
  else if t = 0x02 then some .tX24645
  else if t = 0x03 then some .t24LC256
  else none

/-- The size in bytes of a memory type (R7, R103). -/
def memTypeSize : MemType → Nat
  | .t24LC16 => 0x800
  | .tX24645 => 0x2000
  | .t24LC256 => 0x8000

/-- `memsize(t)`: the byte size of MemoryType code `t`, 0 if it names none (R12, R103). -/
def memsize (t : Byte) : Nat := ((memOfCode t).map memTypeSize).getD 0

/-! ErrorCode values (R104). -/

/-- The wire value of an ErrorCode name (R104). -/
def ErrorCode.byte : ErrorCode → Byte
  | .none => 0
  | .unknown => 1
  | .memid => 2
  | .readmem => 3
  | .writemem => 4
  | .comm => 5
  | .maxRetry => 6
  | .timeout => 7
  | .memidx => 8

/-! The length table (R98). -/

/-- What the decoder reads beside its own registers and the byte (the `PlenContext` of R148): `memtype`, `xfer_cnt`, `INFO_LEN`; `resets` names the free contents of `rx_buf` (R50). -/
structure DecCtx where
  memtype : Byte
  xferCnt : U16
  infoLen : Nat
  resets : Nat
  deriving DecidableEq, Repr

/-- The context that a state gives its decoder and its encoder (R80). -/
def State.decCtx (s : State) : DecCtx := ⟨s.memtype, s.xferCnt, s.cfg.infoLen, s.resets⟩

/-- `memdata_len` (R100). -/
def memdataLen (ctx : DecCtx) : Nat :=
  if ctx.memtype ≠ mtNone ∧ ctx.xferCnt.toNat < memsize ctx.memtype then
    min 256 (memsize ctx.memtype - ctx.xferCnt.toNat)
  else 256

/-- `plen(c)`, the length table, total on all byte values (R98). -/
def plen (ctx : DecCtx) (c : Byte) : Nat :=
  if c = cmdMemid ∨ c = cmdErr ∨ c = cmdReadmem ∨ c = cmdData ∨ c = cmdWritemem then 1
  else if c = cmdMemdata then memdataLen ctx
  else if c = cmdInfo then ctx.infoLen
  else 0

/-! Byte order of the checksum field (R69, R105). -/

/-- `w[15:8]`, the first checksum byte on the wire. -/
def hiByte (w : U16) : Byte := w.extractLsb' 8 8

/-- `w[7:0]`, the second checksum byte on the wire. -/
def loByte (w : U16) : Byte := w.extractLsb' 0 8

/-- `w[15:8] <- b` (R140). -/
def setHi (w : U16) (b : Byte) : U16 := b ++ loByte w

/-- `w[7:0] <- b` (R140). -/
def setLo (w : U16) (b : Byte) : U16 := hiByte w ++ b

/-- A frame on the wire: START, command, payload, checksum high byte first, END (R90, R123). -/
def frameBytes (c : Byte) (P : List Byte) (cs : U16) : List Byte :=
  startByte :: c :: (P ++ [hiByte cs, loByte cs, endByte])

/-! The numbers of the enumerations (R22, R31, R32, R36). They are not observable. -/

/-- The 3-bit number of a decoder state (R22). -/
def RxState.code : RxState → BitVec 3
  | .seekStart => 0
  | .readCommand => 1
  | .readData => 2
  | .readChecksum => 3
  | .readEnd => 4

/-- The 4-bit number of `link_state` within its role's table (R31, R32). -/
def LinkState.code : LinkState → BitVec 4
  | .host .disconnected => 0
  | .host .init => 1
  | .host .memid => 2
  | .host .idle => 3
  | .host .waitPing => 4
  | .host .waitReadmemOk => 5
  | .host .waitReadmemData => 6
  | .host .waitWritememOk => 7
  | .host .waitWritememAck => 8
  | .host .halted => 9
  | .device .disconnected => 0
  | .device .idle => 1
  | .device .waitMemid => 2
  | .device .read => 3
  | .device .write => 4
  | .device .ping => 5

/-- The 2-bit number of an operation register, 0 for `OP_NONE` (R36, R37). -/
def opCode : Option OpKind → BitVec 2
  | none => 0
  | some .read => 1
  | some .write => 2
  | some .ping => 3

/-- The operation a request asks for (R185). -/
def Request.op : Request → OpKind
  | .read => .read
  | .write _ => .write
  | .ping => .ping

end Sys2Proof.Machine
end

