-- ==== Sys2Proof/WellFormed.lean ====
section
/-! DEFINITION. Which instructions are well formed in a context: the payload has the length that the length table gives the command (spec/30_encoding.md R98, R100, R101). Every byte is a legal operand value (R104, R222, R240), so nothing else is checked. -/

namespace Sys2Proof

/-- The payload length fits the command (R98): only the two block commands can violate it. -/
def Instr.wf (ctx : Machine.DecCtx) : Instr → Bool
  | .memdata P _ => P.length == Machine.plen ctx Machine.cmdMemdata
  | .info P _ => P.length == Machine.plen ctx Machine.cmdInfo && decide (P.length ≤ pkgDataMax)
  | .noneCmd _ => true
  | .init _ => true
  | .ping _ => true
  | .memid _ _ => true
  | .startxfer _ => true
  | .endxfer _ => true
  | .disconnect _ => true
  | .ok _ => true
  | .txrxAck _ => true
  | .txrxDone _ => true
  | .err _ _ => true
  | .txrxErr _ => true
  | .readmem _ _ => true
  | .readnext _ => true
  | .data _ _ => true
  | .writemem _ _ => true

end Sys2Proof
end

