-- ==== Sys2Proof/Decode.lean ====
section
/-! DEFINITION. The frame decoder (spec/41_framer_decode.md) and, after it, the encoder (spec/40_framer_encode.md R123, R127). One function, `decodeStep`, reads one byte; the machine's `rx_byte` step and the decoding of a whole byte sequence both run it. -/

namespace Sys2Proof

open Machine

/-- A frame as the decoder emits it: command, payload, checksum field (R148, R171). -/
structure Frame where
  cmd : Byte
  payload : List Byte
  csum : U16
  deriving DecidableEq, Repr

/-- The payload of the frame being received, `rx_buf[0..rx_len)` (R62, R141). -/
def rxPayload (ctx : DecCtx) (d : Decoder) : List Byte :=
  d.rxBuf.readBytes (Config.rxBufByte ctx.resets) 0 d.rxLen.toNat

/-- `SeekStart` (R137). -/
def decodeSeekStart (d : Decoder) (b : Byte) : Decoder :=
  if b = startByte then { d with rxState := .readCommand } else d

/-- `ReadCommand` (R138). -/
def decodeReadCommand (ctx : DecCtx) (d : Decoder) (b : Byte) : Decoder :=
  { d with
    rxCmd := b
    rxKnown := known b
    rxLen := BitVec.ofNat 9 (plen ctx b)
    rxCnt := 0
    rxState := if plen ctx b = 0 then .readChecksum else .readData }

/-- `ReadData` (R139). -/
def decodeReadData (d : Decoder) (b : Byte) : Decoder :=
  let buf := d.rxBuf.writeBytes d.rxCnt.toNat [b]
  if d.rxCnt + 1 = d.rxLen then { d with rxBuf := buf, rxCnt := 0, rxState := .readChecksum }
  else { d with rxBuf := buf, rxCnt := d.rxCnt + 1 }

/-- `ReadChecksum` (R140). -/
def decodeReadChecksum (d : Decoder) (b : Byte) : Decoder :=
  if d.rxCnt = 0 then { d with rxCsum := setHi d.rxCsum b, rxCnt := 1 }
  else { d with rxCsum := setLo d.rxCsum b, rxCnt := 0, rxState := .readEnd }

/-- `ReadEnd` (R141): the decoder returns to `SeekStart` whether or not a frame comes out. -/
def decodeReadEnd (ctx : DecCtx) (d : Decoder) (b : Byte) : Decoder × Option Frame :=
  ({ d with rxState := .seekStart },
    if b = endByte ∧ d.rxKnown = true then some ⟨d.rxCmd, rxPayload ctx d, d.rxCsum⟩ else none)

/-- `decode_step` (R136, R148): one byte, exactly one of R137 to R141. -/
def decodeStep (ctx : DecCtx) (d : Decoder) (b : Byte) : Decoder × Option Frame :=
  match d.rxState with
  | .seekStart => (decodeSeekStart d b, none)
  | .readCommand => (decodeReadCommand ctx d b, none)
  | .readData => (decodeReadData d b, none)
  | .readChecksum => (decodeReadChecksum d b, none)
  | .readEnd => decodeReadEnd ctx d b

/-- The decoder fed with a byte sequence in one context: its registers afterwards and the frames that came out, in order (R143, R144). -/
def decodeRun (ctx : DecCtx) (d : Decoder) : List Byte → Decoder × List Frame
  | [] => (d, [])
  | b :: rest =>
    let r := decodeStep ctx d b
    let q := decodeRun ctx r.1 rest
    (q.1, r.2.toList ++ q.2)

/-- The instruction that a frame stands for, by its whole command byte (R95, R96); `none` for a command byte outside the vocabulary and for a payload that no frame of the command has. -/
def Frame.instr (f : Frame) : Option Instr :=
  if f.cmd = cmdMemdata then some (.memdata f.payload f.csum)
  else if f.cmd = cmdInfo then some (.info f.payload f.csum)
  else
    match f.payload with
    | [] =>
      if f.cmd = cmdNone then some (.noneCmd f.csum)
      else if f.cmd = cmdInit then some (.init f.csum)
      else if f.cmd = cmdPing then some (.ping f.csum)
      else if f.cmd = cmdStartxfer then some (.startxfer f.csum)
      else if f.cmd = cmdEndxfer then some (.endxfer f.csum)
      else if f.cmd = cmdDisconnect then some (.disconnect f.csum)
      else if f.cmd = cmdOk then some (.ok f.csum)
      else if f.cmd = cmdTxrxAck then some (.txrxAck f.csum)
      else if f.cmd = cmdTxrxDone then some (.txrxDone f.csum)
      else if f.cmd = cmdTxrxErr then some (.txrxErr f.csum)
      else if f.cmd = cmdReadnext then some (.readnext f.csum)
      else none
    | [p] =>
      if f.cmd = cmdMemid then some (.memid p f.csum)
      else if f.cmd = cmdErr then some (.err p f.csum)
      else if f.cmd = cmdReadmem then some (.readmem p f.csum)
      else if f.cmd = cmdData then some (.data p f.csum)
      else if f.cmd = cmdWritemem then some (.writemem p f.csum)
      else none
    | _ :: _ :: _ => none

/-- Why a byte sequence is not an instruction. -/
inductive DecodeError where
  /-- The first byte is not the START marker (R137). -/
  | noStart
  /-- The bytes end before the END position of the frame (R135). -/
  | truncated
  /-- The command byte is outside the vocabulary (R106). -/
  | unknownCommand
  /-- The byte at the END position is not the END marker (R108). -/
  | badEnd
  deriving DecidableEq, Repr

/-- Feeds bytes to a decoder that is inside a frame until the frame's END position, and answers with the instruction and the bytes after it. -/
def decodeFrom (ctx : DecCtx) (d : Decoder) : List Byte → Except DecodeError (Instr × List Byte)
  | [] => .error .truncated
  | b :: rest =>
    let r := decodeStep ctx d b
    match r.2 with
    | some f =>
      match f.instr with
      | some i => .ok (i, rest)
      | none => .error .unknownCommand
    | none =>
      match d.rxState with
      | .readEnd => .error (if d.rxKnown then .badEnd else .unknownCommand)
      | .seekStart => if b = startByte then decodeFrom ctx r.1 rest else .error .noStart
      | .readCommand => decodeFrom ctx r.1 rest
      | .readData => decodeFrom ctx r.1 rest
      | .readChecksum => decodeFrom ctx r.1 rest

/-- Decodes the frame at the front of a byte sequence, total on any bytes. -/
def decode (ctx : DecCtx) (bytes : List Byte) : Except DecodeError (Instr × List Byte) :=
  decodeFrom ctx Decoder.reset bytes

/-! The encoder. -/

/-- The command byte of an instruction (R96). -/
def Instr.opcode : Instr → Byte
  | .noneCmd _ => cmdNone
  | .init _ => cmdInit
  | .ping _ => cmdPing
  | .memid _ _ => cmdMemid
  | .startxfer _ => cmdStartxfer
  | .endxfer _ => cmdEndxfer
  | .disconnect _ => cmdDisconnect
  | .ok _ => cmdOk
  | .txrxAck _ => cmdTxrxAck
  | .txrxDone _ => cmdTxrxDone
  | .err _ _ => cmdErr
  | .txrxErr _ => cmdTxrxErr
  | .readmem _ _ => cmdReadmem
  | .readnext _ => cmdReadnext
  | .memdata _ _ => cmdMemdata
  | .data _ _ => cmdData
  | .info _ _ => cmdInfo
  | .writemem _ _ => cmdWritemem

/-- The payload bytes of an instruction (R94, R102). -/
def Instr.payload : Instr → List Byte
  | .noneCmd _ => []
  | .init _ => []
  | .ping _ => []
  | .memid t _ => [t]
  | .startxfer _ => []
  | .endxfer _ => []
  | .disconnect _ => []
  | .ok _ => []
  | .txrxAck _ => []
  | .txrxDone _ => []
  | .err e _ => [e]
  | .txrxErr _ => []
  | .readmem t _ => [t]
  | .readnext _ => []
  | .memdata P _ => P
  | .data x _ => [x]
  | .info P _ => P
  | .writemem t _ => [t]

/-- The checksum field of an instruction (R90). -/
def Instr.csum : Instr → U16
  | .noneCmd cs => cs
  | .init cs => cs
  | .ping cs => cs
  | .memid _ cs => cs
  | .startxfer cs => cs
  | .endxfer cs => cs
  | .disconnect cs => cs
  | .ok cs => cs
  | .txrxAck cs => cs
  | .txrxDone cs => cs
  | .err _ cs => cs
  | .txrxErr cs => cs
  | .readmem _ cs => cs
  | .readnext cs => cs
  | .memdata _ cs => cs
  | .data _ cs => cs
  | .info _ cs => cs
  | .writemem _ cs => cs

/-- The wire bytes of an instruction (R90, R127). -/
def encode (i : Instr) : List Byte := frameBytes i.opcode i.payload i.csum

/-! The numbering of spec/opcode_table.json. A row gives the command byte alone; the marker bytes around an instruction are framing and no bits of it (log entry 5). -/

/-- Byte `k` of an instruction whose bits are the low `nbits` bits of `w`, bit 0 lowest; every bit above them is 0. -/
def wordByte (nbits w k : Nat) : Byte := BitVec.ofNat 8 ((w % 2 ^ nbits) >>> (8 * k))

/-- The wire bytes of the instruction that `w` numbers, in a context: START, then command, payload and checksum from the bits of `w`, without the END byte. -/
def wordFrame (ctx : DecCtx) (nbits w : Nat) : List Byte :=
  startByte :: (List.range (plen ctx (wordByte nbits w 0) + 3)).map (wordByte nbits w)

/-- The instruction that the decoder reads from the instruction whose bits are `w`, in the context of the reset state. -/
def decodeTableWord (nbits w : Nat) : Option Instr :=
  match decode State.reset.decCtx (wordFrame State.reset.decCtx nbits w ++ [endByte]) with
  | .ok (i, _) => some i
  | .error _ => none

end Sys2Proof
end

