-- ==== Sys2Proof/Machine/Flags.lean ====
section
/-! DEFINITION. The status flags (spec/10_state.md R48): `tx_busy` is a predicate of the queue, the fault flags are sticky, `timer_armed` is written by `ARM`, `CANCEL` and the timer's expiry alone. -/

namespace Sys2Proof.Machine

/-- `tx_busy`: the queue holds a byte (R30). -/
def State.txBusy (s : State) : Bool := !s.txq.isEmpty

/-- The bytes of `txq` that are free (R120, R122). -/
def State.txFree (s : State) : Nat := s.cfg.txqBytes - s.txq.length

/-- `flt_tx_len <- 1` (R121). -/
def setFltTxLen (s : State) : State := { s with fltTxLen := true }

/-- `flt_txq <- 1` (R122). -/
def setFltTxq (s : State) : State := { s with fltTxq := true }

/-- "No fault flag set", the premise that R45 asks of claims about a run. -/
abbrev State.noFault (s : State) : Prop := s.fltTxLen = false ∧ s.fltTxq = false

/-- `ARM(ms)` (R280). -/
def arm (ms : U16) (s : State) : State :=
  { s with timerArmed := true, timerMs := ms, timerCmd := s.timerCmd ++ [.arm ms] }

/-- `CANCEL()` (R281). -/
def cancel (s : State) : State :=
  if s.timerArmed then { s with timerArmed := false, timerCmd := s.timerCmd ++ [.cancel] } else s

/-- The expiry's own write, `timer_armed <- 0`, which is no `CANCEL` call (R282). -/
def disarm (s : State) : State := { s with timerArmed := false }

end Sys2Proof.Machine
end

