-- ==== Sys2Proof/Machine/Ops.lean ====
section
/-! DEFINITION. The shared operations: the checksum unit, `SEND`, events, buffers, the memory backend, the dispatcher's procedures, and raising an exception with its handlers (spec/40, 42, 43 and 60). -/

namespace Sys2Proof.Machine

/-- The outcome of a step or of a meaning. -/
abbrev Result := Host.Outcome State Fault Refusal

/-! The checksum unit (spec/42_checksum.md). -/

/-- `generate(c, P)` (R160). -/
def generate (cfg : Cfg) (c : Byte) (P : List Byte) : U16 :=
  match cfg.checksumMode with
  | .none => 0x0000
  | .strict => Config.csumFn c P

/-- `validate(c, P, cs)` (R161). -/
def validate (cfg : Cfg) (c : Byte) (P : List Byte) (cs : U16) : Bool :=
  match cfg.checksumMode with
  | .none => true
  | .strict => cs == Config.csumFn c P

/-! The encoder (spec/40_framer_encode.md). -/

/-- `encode(c, P)` (R123). -/
def encodeFrame (cfg : Cfg) (c : Byte) (P : List Byte) : List Byte := frameBytes c P (generate cfg c P)

/-- Whether `SEND(c, P)` returns ACCEPTED: the length is the table's and the whole frame fits (R120 to R122). -/
def sendAccepts (c : Byte) (P : List Byte) (s : State) : Bool :=
  P.length == plen s.decCtx c && decide (5 + P.length ≤ s.txFree)

/-- `SEND(c, P)` (R120). A refusal sets a sticky flag (R121, R122); no caller tests the answer. -/
def send (c : Byte) (P : List Byte) (s : State) : State :=
  if P.length ≠ plen s.decCtx c then setFltTxLen s
  else if s.txFree < 5 + P.length then setFltTxq s
  else { s with txq := s.txq ++ encodeFrame s.cfg c P, lastTxCmd := c }

/-! Application events and buffers (spec/43_dispatch_core.md). -/

/-- `EMIT(ev)` (R175). -/
def emit (ev : AppEvent) (s : State) : State := { s with appEv := s.appEv ++ [ev] }

/-- `clear_buffers()` (R178). -/
def clearBuffers (s : State) : State :=
  { s with
    dec := { s.dec with rxState := .seekStart, rxCnt := 0, rxLen := 0, rxKnown := false }
    xferCnt := 0
    blkLen := 0
    retryCnt := 0 }

/-- `xfer_buf[a .. a + n)`; a byte that nothing has written since the last reset is free (R44, R63). -/
def xferRead (s : State) (a n : Nat) : List Byte :=
  s.xferBuf.readBytes (Config.xferBufByte s.resets) a n

/-- `xfer_buf[a .. a + |bs|) <- bs` (R63). -/
def xferWrite (a : Nat) (bs : List Byte) (s : State) : State :=
  { s with xferBuf := s.xferBuf.writeBytes a bs }

/-! The memory backend (spec/20_memory.md R66 to R68). -/

/-- The arguments with which the block calls the backend (R64, R66): 1 to 256 bytes inside the memory. -/
def backendInRange (addr n size : Nat) : Bool :=
  decide (1 ≤ n) && decide (n ≤ 256) && decide (addr + n ≤ size)

/-- The `n` bytes of a scripted answer; bytes it does not give are free, so that an answer has exactly `n` bytes (R66). -/
def replyBytes (bs : List Byte) (asked addr n : Nat) : List Byte :=
  (List.range n).map (fun i => bs.getD i (Config.backendByte asked (addr + i)))

/-- `MemRead(addr, n)`: exactly `n` bytes, or `none` for `error` (R66). -/
def memRead (addr n : Nat) (s : State) : Option (List Byte) × State :=
  match s.backend with
  | .ideal cells => (some (cells.readBytes Config.backendCell addr n), s)
  | .oracle (.error :: rest) asked => (none, { s with backend := .oracle rest asked })
  | .oracle (.ok bs :: rest) asked =>
    (some (replyBytes bs asked addr n), { s with backend := .oracle rest (asked + 1) })
  | .oracle [] asked =>
    (if Config.backendError asked then none else some (replyBytes [] asked addr n),
      { s with backend := .oracle [] (asked + 1) })

/-- `MemWrite(addr, |v|, v)`: whether the answer is `ok` (R67, R68). -/
def memWrite (addr : Nat) (v : List Byte) (s : State) : Bool × State :=
  match s.backend with
  | .ideal cells => (true, { s with backend := .ideal (cells.writeBytes addr v) })
  | .oracle (.error :: rest) asked => (false, { s with backend := .oracle rest asked })
  | .oracle (.ok _ :: rest) asked => (true, { s with backend := .oracle rest asked })
  | .oracle [] asked => (!Config.backendError asked, { s with backend := .oracle [] (asked + 1) })

/-! The HOST's procedures (spec/43_dispatch_core.md section 3). -/

/-- `host_enter_disconnected()` (R179). -/
def hostEnterDisconnected (s : State) : State :=
  let s := { s with connected := false, memtype := mtNone }
  if s.linkEn then { arm s.cfg.tInit (send cmdInit [] s) with link := .host .init }
  else { s with link := .host .disconnected }

/-- `host_start(op)` (R184). -/
def hostStart (op : OpKind) (s : State) : State :=
  let s := { s with curOp := some op }
  match op with
  | .read =>
    let s := { s with xferCnt := 0 }
    { arm s.cfg.tXferInit (send cmdReadmem [s.memtype] s) with link := .host .waitReadmemOk }
  | .write =>
    let s := { s with xferCnt := 0, retryCnt := 0, blkLen := 0 }
    { arm s.cfg.tXferInit (send cmdWritemem [s.memtype] s) with link := .host .waitWritememOk }
  | .ping => { arm s.cfg.tPing (send cmdPing [] s) with link := .host .waitPing }

/-- `host_service()` (R183). -/
def hostService (s : State) : State :=
  match s.pendOp with
  | none => s
  | some op => hostStart op { s with pendOp := none }

/-- `host_to_idle()` (R180). -/
def hostToIdle (s : State) : State := hostService { cancel s with link := .host .idle }

/-- `host_send_block()` (R190). The block must lie inside `xfer_buf`, as it does in every reachable state. -/
def hostSendBlock (s : State) : Result :=
  let n := memdataLen s.decCtx
  let s := { s with blkLen := BitVec.ofNat 9 n }
  if xferBufSize < s.xferCnt.toNat + n then .fault .xferBufIndex
  else
    let s := send cmdMemdata (xferRead s s.xferCnt.toNat n) s
    .next { arm tChunk s with link := .host .waitWritememAck }

/-- `host_abort(res)`: the terminal notification of the operation in flight (R263). -/
def hostAbort (res : OpResult) (s : State) : State :=
  match s.curOp with
  | none => s
  | some op => { emit (.opFinished op res) s with curOp := none }

/-- The terminal notification of the deferred request, of R187 and R266. -/
def hostAbortPending (res : OpResult) (s : State) : State :=
  match s.pendOp with
  | none => s
  | some op => { emit (.opFinished op res) s with pendOp := none }

/-- `host_reconnect(kind)` (R264). -/
def hostReconnect (kind : Byte) (s : State) : State :=
  hostEnterDisconnected (emit (.reconnect kind) (clearBuffers (hostAbort (.err kind) (cancel s))))

/-- `host_op_fail(code)` (R265). -/
def hostOpFail (code : Byte) (s : State) : State := hostToIdle (hostAbort (.err code) s)

/-- `host_halt(kind)` (R266). -/
def hostHalt (kind : Byte) (s : State) : State :=
  let s := clearBuffers (hostAbortPending (.err kind) (hostAbort (.err kind) (cancel s)))
  let s := { s with connected := false, memtype := mtNone, linkEn := false }
  { emit (.fatal kind) s with link := .host .halted }

/-! Raising an exception (spec/60_exceptions.md R262) and its handlers. -/

/-- `dev_to_safe()` (R270): with a session the safe state is `D_IDLE`, without one `D_DISCONNECTED`. -/
def devToSafe (s : State) : State :=
  let s := { cancel s with xferCnt := 0 }
  match s.link with
  | .device .idle => s
  | .device .ping => { s with link := .device .idle }
  | .device .read => { s with link := .device .idle }
  | .device .write => { s with link := .device .idle }
  | .device .disconnected => { s with memtype := mtNone, connected := false }
  | .device .waitMemid => { s with memtype := mtNone, connected := false, link := .device .disconnected }
  | .host _ => s

/-- The handler of `DeviceError(code)` (R269). -/
def deviceError (code : ErrorCode) (s : State) : State := devToSafe (send cmdErr [code.byte] (cancel s))

/-- The handler of `Timeout` on a HOST (R283). In `H_DISCONNECTED`, `H_IDLE` and `H_HALTED` it "cannot occur"; nothing is done there (log entry 9). -/
def hostTimeout (h : HostState) (s : State) : State :=
  match h with
  | .init => hostReconnect ErrorCode.timeout.byte s
  | .memid => hostHalt ErrorCode.timeout.byte s
  | .waitPing => hostReconnect ErrorCode.timeout.byte s
  | .waitReadmemOk => hostReconnect ErrorCode.timeout.byte s
  | .waitReadmemData => hostReconnect ErrorCode.timeout.byte s
  | .waitWritememOk => hostReconnect ErrorCode.timeout.byte s
  | .waitWritememAck => hostReconnect ErrorCode.timeout.byte s
  | .disconnected => s
  | .idle => s
  | .halted => s

/-- The handler of `Timeout` on a DEVICE (R284). In the states where the timer is never armed nothing is done (log entry 9). -/
def devTimeout (d : DevState) (s : State) : State :=
  match d with
  | .waitMemid => deviceError .timeout s
  | .read => deviceError .timeout s
  | .write => deviceError .timeout s
  | .disconnected => s
  | .idle => s
  | .ping => s

/-- The handler of `ChecksumFailure` on a DEVICE (R268). -/
def devChecksumFailure (d : DevState) (s : State) : State :=
  match d with
  | .write => arm tChunk (send cmdTxrxErr [] (cancel s))
  | .disconnected => deviceError .comm s
  | .idle => deviceError .comm s
  | .waitMemid => deviceError .comm s
  | .read => deviceError .comm s
  | .ping => deviceError .comm s

/-- `raise X(info)`: the handler of `X` for the instance's role (R262), which ends the step. The two entries that R262's table gives as "never raised" do nothing. -/
def raise (x : Exn) (s : State) : State :=
  match s.link, x with
  | .host _, .protocolViolation => hostReconnect ErrorCode.unknown.byte s
  | .host _, .checksumFailure => hostReconnect ErrorCode.comm.byte s
  | .host h, .timeout => hostTimeout h s
  | .host _, .retryExceeded => hostReconnect ErrorCode.maxRetry.byte s
  | .host _, .deviceError _ => s
  | .device _, .protocolViolation => deviceError .unknown s
  | .device d, .checksumFailure => devChecksumFailure d s
  | .device d, .timeout => devTimeout d s
  | .device _, .retryExceeded => s
  | .device _, .deviceError code => deviceError code s

/-- The outcome of a rule that raises an exception: the handler's state, and the step is over (R262). -/
def raising (x : Exn) (s : State) : Result := .next (raise x s)

/-- `dev_send_block()` (R191). -/
def devSendBlock (s : State) : Result :=
  if memsize s.memtype ≤ s.xferCnt.toNat then raising (.deviceError .memidx) s
  else
    let n := memdataLen s.decCtx
    match memRead s.xferCnt.toNat n s with
    | (none, s) => raising (.deviceError .readmem) s
    | (some r, s) =>
      let s := send cmdMemdata r s
      .next (arm tChunk { s with xferCnt := BitVec.ofNat 16 (s.xferCnt.toNat + n) })

/-! Delivery (spec/43_dispatch_core.md R171). -/

/-- Whether the instance ignores every delivered frame: a HOST in `H_DISCONNECTED` or `H_HALTED` (R174). -/
def State.ignoresFrames (s : State) : Bool :=
  match s.link with
  | .host .disconnected => true
  | .host .halted => true
  | .host _ => false
  | .device _ => false

/-- `deliver(c, P, cs)` with the command's own rule (R171): ignored states first, then the checksum, then the state and the command (R276). -/
def deliver (c : Byte) (P : List Byte) (cs : U16) (rule : State → Result) (s : State) : Result :=
  let s := { s with lastRxCmd := c }
  if s.ignoresFrames then .next s
  else if validate s.cfg c P cs then rule s
  else raising .checksumFailure s

end Sys2Proof.Machine
end

