-- ==== Sys2Proof/Machine/Replies.lean ====
section
/-! DEFINITION. The reply commands `OK`, `TXRX_ACK`, `TXRX_DONE`, `ERR`, `TXRX_ERR` (spec/45_cmd_replies.md). -/

namespace Sys2Proof.Machine

/-- The rule of `OK` (R230). -/
def okRule (s : State) : Result :=
  match s.link with
  | .host .memid => .next (hostToIdle { s with memtype := memCode s.cfg.hostTarget })
  | .host .waitReadmemOk =>
    .next { arm tChunk (send cmdReadnext [] (cancel s)) with link := .host .waitReadmemData }
  | .host .waitWritememOk => hostSendBlock (cancel s)
  | .host _ => raising .protocolViolation s
  | .device _ => raising .protocolViolation s

/-- `OK` (R230). -/
def execOk (cs : U16) (s : State) : Result := deliver cmdOk [] cs okRule s

/-- The offset that follows the outstanding block of a write, `xfer_cnt + blk_len` (R231, R232). -/
def blockEnd (s : State) : Nat := s.xferCnt.toNat + s.blkLen.toNat

/-- The rule of `TXRX_ACK` (R231). -/
def txrxAckRule (s : State) : Result :=
  match s.link with
  | .host .waitPing =>
    let s := emit .pingOk s
    .next (hostToIdle (if s.curOp = some .ping then hostAbort .ok s else s))
  | .host .waitWritememAck =>
    if blockEnd s < memsize s.memtype then
      let s := cancel s
      hostSendBlock { s with xferCnt := BitVec.ofNat 16 (blockEnd s), retryCnt := 0 }
    else raising .protocolViolation s
  | .device .read => devSendBlock (cancel s)
  | .host _ => raising .protocolViolation s
  | .device _ => raising .protocolViolation s

/-- `TXRX_ACK` (R231). -/
def execTxrxAck (cs : U16) (s : State) : Result := deliver cmdTxrxAck [] cs txrxAckRule s

/-- The rule of `TXRX_DONE` (R232). -/
def txrxDoneRule (s : State) : Result :=
  match s.link with
  | .host .waitWritememAck =>
    if blockEnd s = memsize s.memtype then
      let s := emit .writeConfirmed { s with xferCnt := BitVec.ofNat 16 (blockEnd s) }
      .next (hostToIdle { emit (.opFinished .write .ok) s with curOp := none })
    else raising .protocolViolation s
  | .device .read =>
    if s.xferCnt.toNat = memsize s.memtype then
      .next { cancel s with xferCnt := 0, link := .device .idle }
    else raising .protocolViolation s
  | .host _ => raising .protocolViolation s
  | .device _ => raising .protocolViolation s

/-- `TXRX_DONE` (R232). -/
def execTxrxDone (cs : U16) (s : State) : Result := deliver cmdTxrxDone [] cs txrxDoneRule s

/-- The rule of `ERR{e}` (R233); `e` is any byte (R104). -/
def errRule (e : Byte) (s : State) : Result :=
  match s.link with
  | .host .memid => .next (hostHalt e s)
  | .host .idle => .next (emit (.peerError e) s)
  | .host .waitReadmemOk => .next (hostOpFail e s)
  | .host .waitReadmemData => .next (hostOpFail e s)
  | .host .waitWritememOk => .next (hostOpFail e s)
  | .host .waitWritememAck => .next (hostOpFail e s)
  | .host _ => raising .protocolViolation s
  | .device _ => .next (devToSafe s)

/-- `ERR{e}` (R233). -/
def execErr (e : Byte) (cs : U16) (s : State) : Result := deliver cmdErr [e] cs (errRule e) s

/-- The rule of `TXRX_ERR` (R234). -/
def txrxErrRule (s : State) : Result :=
  match s.link with
  | .host .waitWritememAck =>
    if s.retryCnt.toNat < s.cfg.maxRetry then hostSendBlock (cancel { s with retryCnt := s.retryCnt + 1 })
    else raising .retryExceeded s
  | .host _ => raising .protocolViolation s
  | .device _ => raising .protocolViolation s

/-- `TXRX_ERR` (R234). -/
def execTxrxErr (cs : U16) (s : State) : Result := deliver cmdTxrxErr [] cs txrxErrRule s

end Sys2Proof.Machine
end

