-- ==== Sys2Proof/Machine/Session.lean ====
section
/-! DEFINITION. The session commands `INIT`, `PING`, `MEMID`, `DISCONNECT` (spec/44_cmd_session.md). Each rule lists every (role, state) pair in which the command is accepted; in every other pair it raises `ProtocolViolation` (R173). -/

namespace Sys2Proof.Machine

/-- The rule of `INIT` (R220). -/
def initRule (s : State) : Result :=
  match s.link with
  | .host .init =>
    let s := emit .connected { cancel s with connected := true }
    .next { arm s.cfg.tMemid (send cmdMemid [memCode s.cfg.hostTarget] s) with link := .host .memid }
  | .host _ => raising .protocolViolation s
  | .device _ =>
    let s := { clearBuffers (cancel s) with memtype := mtNone, connected := true }
    .next { arm s.cfg.tInit (send cmdInit [] s) with link := .device .waitMemid }

/-- `INIT` (R220). -/
def execInit (cs : U16) (s : State) : Result := deliver cmdInit [] cs initRule s

/-- The rule of `PING` (R221): `D_PING` is entered and left in the step. -/
def pingRule (s : State) : Result :=
  match s.link with
  | .device .idle =>
    let s := { s with link := .device .ping }
    .next { send cmdTxrxAck [] s with link := .device .idle }
  | .device _ => raising .protocolViolation s
  | .host _ => raising .protocolViolation s

/-- `PING` (R221). -/
def execPing (cs : U16) (s : State) : Result := deliver cmdPing [] cs pingRule s

/-- Whether a DEVICE accepts the MemoryType code `t` at `MEMID`: a valid code in `DEV_SUPPORTED` (R222). -/
def devSupports (cfg : Cfg) (t : Byte) : Bool :=
  match memOfCode t with
  | some m => decide (m ∈ cfg.devSupported)
  | none => false

/-- The rule of `MEMID{t}` (R222). -/
def memidRule (t : Byte) (s : State) : Result :=
  match s.link with
  | .device .waitMemid =>
    let s := cancel s
    if devSupports s.cfg t then .next { send cmdOk [] { s with memtype := t } with link := .device .idle }
    else raising (.deviceError .memid) s
  | .device _ => raising .protocolViolation s
  | .host _ => raising .protocolViolation s

/-- `MEMID{t}` (R222). -/
def execMemid (t : Byte) (cs : U16) (s : State) : Result := deliver cmdMemid [t] cs (memidRule t) s

/-- The rule of `DISCONNECT` (R223). -/
def disconnectRule (s : State) : Result :=
  match s.link with
  | .device _ =>
    .next { clearBuffers (cancel s) with memtype := mtNone, connected := false, link := .device .disconnected }
  | .host _ => raising .protocolViolation s

/-- `DISCONNECT` (R223). -/
def execDisconnect (cs : U16) (s : State) : Result := deliver cmdDisconnect [] cs disconnectRule s

end Sys2Proof.Machine
end

