-- ==== Sys2Proof/Machine/Transfer.lean ====
section
/-! DEFINITION. The transfer commands `READMEM`, `READNEXT`, `MEMDATA`, `WRITEMEM` (spec/46_cmd_transfer.md). -/

namespace Sys2Proof.Machine

/-- What `READMEM{t}` and `WRITEMEM{t}` share (R240, R243): a type other than the session's is refused, else the device answers `OK` and enters the transfer state `d`. -/
def devBegin (t : Byte) (d : DevState) (s : State) : Result :=
  if t = s.memtype then
    .next { arm tChunk (send cmdOk [] { s with xferCnt := 0 }) with link := .device d }
  else raising (.deviceError .memid) s

/-- The rule of `READMEM{t}` (R240). -/
def readmemRule (t : Byte) (s : State) : Result :=
  match s.link with
  | .device .idle => devBegin t .read s
  | .device _ => raising .protocolViolation s
  | .host _ => raising .protocolViolation s

/-- `READMEM{t}` (R240). -/
def execReadmem (t : Byte) (cs : U16) (s : State) : Result := deliver cmdReadmem [t] cs (readmemRule t) s

/-- The rule of `READNEXT` (R241). -/
def readnextRule (s : State) : Result :=
  match s.link with
  | .device .read => devSendBlock (cancel s)
  | .device _ => raising .protocolViolation s
  | .host _ => raising .protocolViolation s

/-- `READNEXT` (R241). -/
def execReadnext (cs : U16) (s : State) : Result := deliver cmdReadnext [] cs readnextRule s

/-- `MEMDATA{P}` on a HOST that reads (R242): the block is appended to `xfer_buf`, and the last one hands the image to the application. With a request deferred, `host_to_idle()` serves it after `TXRX_DONE` in the same step, as R242, R180, R183 and R184 have it and R172 does not (log entry 10). -/
def hostTakeBlock (P : List Byte) (s : State) : Result :=
  let s := cancel s
  if xferBufSize < s.xferCnt.toNat + P.length then .fault .xferBufIndex
  else
    let s := xferWrite s.xferCnt.toNat P s
    let s := { s with xferCnt := BitVec.ofNat 16 (s.xferCnt.toNat + P.length) }
    if s.xferCnt.toNat < memsize s.memtype then .next (arm tChunk (send cmdTxrxAck [] s))
    else
      let s := send cmdTxrxDone [] s
      let s := emit (.memReceived (xferRead s 0 (memsize s.memtype))) s
      .next (hostToIdle { emit (.opFinished .read .ok) s with curOp := none })

/-- The part of R242 that follows the readback on a DEVICE: the block is acknowledged, the last one with `TXRX_DONE`. -/
def devBlockDone (n : Nat) (s : State) : Result :=
  let s := { s with xferCnt := BitVec.ofNat 16 (s.xferCnt.toNat + n) }
  if s.xferCnt.toNat < memsize s.memtype then .next (arm tChunk (send cmdTxrxAck [] s))
  else .next { send cmdTxrxDone [] s with xferCnt := 0, link := .device .idle }

/-- `MEMDATA{P}` on a DEVICE that writes (R242): write, read back, compare, then acknowledge. A failed write is followed by no read. -/
def devTakeBlock (P : List Byte) (s : State) : Result :=
  let s := cancel s
  if memsize s.memtype ≤ s.xferCnt.toNat then raising (.deviceError .memidx) s
  else if backendInRange s.xferCnt.toNat P.length (memsize s.memtype) then
    match memWrite s.xferCnt.toNat P s with
    | (false, s) => raising (.deviceError .writemem) s
    | (true, s) =>
      match memRead s.xferCnt.toNat P.length s with
      | (none, s) => raising (.deviceError .writemem) s
      | (some v, s) => if v = P then devBlockDone P.length s else raising (.deviceError .writemem) s
  else .fault .backendRange

/-- The rule of `MEMDATA{P}` (R242). -/
def memdataRule (P : List Byte) (s : State) : Result :=
  match s.link with
  | .host .waitReadmemData => hostTakeBlock P s
  | .device .write => devTakeBlock P s
  | .host _ => raising .protocolViolation s
  | .device _ => raising .protocolViolation s

/-- `MEMDATA{P}` (R242). -/
def execMemdata (P : List Byte) (cs : U16) (s : State) : Result := deliver cmdMemdata P cs (memdataRule P) s

/-- The rule of `WRITEMEM{t}` (R243). -/
def writememRule (t : Byte) (s : State) : Result :=
  match s.link with
  | .device .idle => devBegin t .write s
  | .device _ => raising .protocolViolation s
  | .host _ => raising .protocolViolation s

/-- `WRITEMEM{t}` (R243). -/
def execWritemem (t : Byte) (cs : U16) (s : State) : Result := deliver cmdWritemem [t] cs (writememRule t) s

end Sys2Proof.Machine
end

