-- ==== Sys2Proof/Machine/Unassigned.lean ====
section
/-! DEFINITION. The commands without a dispatcher role `NONE`, `STARTXFER`, `ENDXFER`, `DATA`, `INFO` (spec/47_cmd_unassigned.md): known, delivered, and a `ProtocolViolation` in every state where frames are not ignored. -/

namespace Sys2Proof.Machine

/-- `NONE` (R250). -/
def execNone (cs : U16) (s : State) : Result := deliver cmdNone [] cs (raising .protocolViolation) s

/-- `STARTXFER` (R251). -/
def execStartxfer (cs : U16) (s : State) : Result := deliver cmdStartxfer [] cs (raising .protocolViolation) s

/-- `ENDXFER` (R252). -/
def execEndxfer (cs : U16) (s : State) : Result := deliver cmdEndxfer [] cs (raising .protocolViolation) s

/-- `DATA{x}` (R253). -/
def execData (x : Byte) (cs : U16) (s : State) : Result := deliver cmdData [x] cs (raising .protocolViolation) s

/-- `INFO{P}` (R254). -/
def execInfo (P : List Byte) (cs : U16) (s : State) : Result := deliver cmdInfo P cs (raising .protocolViolation) s

end Sys2Proof.Machine
end

