-- ==== Sys2Proof/Machine/Dispatch.lean ====
section
/-! DEFINITION. `exec`: the delivery of one command, one arm per constructor of `Instr` (spec/43_dispatch_core.md R171, spec/30_encoding.md R96). -/

namespace Sys2Proof.Machine

def exec (i : Instr) (s : State) : Host.Outcome State Fault Refusal :=
  match i with
  | .noneCmd cs => Sys2Proof.Machine.execNone cs s
  | .init cs => Sys2Proof.Machine.execInit cs s
  | .ping cs => Sys2Proof.Machine.execPing cs s
  | .memid t cs => Sys2Proof.Machine.execMemid t cs s
  | .startxfer cs => Sys2Proof.Machine.execStartxfer cs s
  | .endxfer cs => Sys2Proof.Machine.execEndxfer cs s
  | .disconnect cs => Sys2Proof.Machine.execDisconnect cs s
  | .ok cs => Sys2Proof.Machine.execOk cs s
  | .txrxAck cs => Sys2Proof.Machine.execTxrxAck cs s
  | .txrxDone cs => Sys2Proof.Machine.execTxrxDone cs s
  | .err e cs => Sys2Proof.Machine.execErr e cs s
  | .txrxErr cs => Sys2Proof.Machine.execTxrxErr cs s
  | .readmem t cs => Sys2Proof.Machine.execReadmem t cs s
  | .readnext cs => Sys2Proof.Machine.execReadnext cs s
  | .memdata P cs => Sys2Proof.Machine.execMemdata P cs s
  | .data x cs => Sys2Proof.Machine.execData x cs s
  | .info P cs => Sys2Proof.Machine.execInfo P cs s
  | .writemem t cs => Sys2Proof.Machine.execWritemem t cs s

end Sys2Proof.Machine
end

