-- ==== Sys2Proof/Machine/Events.lean ====
section
/-! DEFINITION. The events: one byte received or handed over, the timers, the application's requests, reset (spec/00_scope.md R14, spec/43_dispatch_core.md section 4, spec/60_exceptions.md section 3). -/

namespace Sys2Proof.Machine

/-! The receive side (spec/41_framer_decode.md). -/

/-- Whether the decoder's next step stays inside `rx_buf`: the index it writes in `ReadData`, the length it reads in `ReadEnd` (R139, R141). It does in every reachable state. -/
def rxInRange (d : Decoder) : Bool :=
  match d.rxState with
  | .seekStart => true
  | .readCommand => true
  | .readData => decide (d.rxCnt.toNat < rxBufSize)
  | .readChecksum => true
  | .readEnd => decide (d.rxLen.toNat ≤ rxBufSize)

/-- The delivery of a decoded frame: the frame's instruction is run (R141, R171). Only known commands with a payload of their own length come out of the decoder; a frame that stands for no instruction is dropped. -/
def deliverFrame (f : Frame) (s : State) : Result :=
  match f.instr with
  | some i => exec i s
  | none => .next s

/-- `rx_byte(b)` (R135, R136): one byte, and in the step of a frame's END byte its delivery, after the decoder has returned to `SeekStart` (R141). -/
def rxByte (b : Byte) (s : State) : Result :=
  if rxInRange s.dec then
    let r := decodeStep s.decCtx s.dec b
    match r.2 with
    | none => .next { s with dec := r.1 }
    | some f => deliverFrame f { s with dec := r.1 }
  else .fault .rxBufIndex

/-! The transmit side (R124): the step has no effect while the queue is empty. -/

/-- `tx_byte` (R124). -/
def txByte (s : State) : State :=
  match s.txq with
  | [] => s
  | b :: rest => { s with txq := rest, wireOut := s.wireOut ++ [b] }

/-! Timers (R282, R188). -/

/-- `timer_fired` (R282). -/
def timerFired (s : State) : State := if s.timerArmed then raise .timeout (disarm s) else s

/-- `live_tick` (R188). -/
def liveTick (s : State) : State :=
  match s.link with
  | .host .idle =>
    if s.curOp = none ∧ s.pendOp = none then
      { arm s.cfg.tPing (send cmdPing [] s) with link := .host .waitPing }
    else s
  | .host _ => s
  | .device _ => s

/-! Application requests (R185 to R187); a DEVICE has none (R189). -/

/-- Whether a request is a write whose image has not the size of `HOST_TARGET` (R185). -/
def sizeMismatch (cfg : Cfg) (r : Request) : Bool :=
  match r with
  | .write img => decide (img.length ≠ memTypeSize cfg.hostTarget)
  | .read => false
  | .ping => false

/-- Whether a request does not fit: one is deferred already, or a write comes while `xfer_buf` is in use (R185). -/
def reqBusy (r : Request) (s : State) : Bool :=
  s.pendOp.isSome || (r.op == .write && (s.curOp == some .read || s.curOp == some .write))

/-- `xfer_buf[0 .. |img|) <- img`, for a write (R185). -/
def loadImage (r : Request) (s : State) : State :=
  match r with
  | .write img => xferWrite 0 img s
  | .read => s
  | .ping => s

/-- `req(op, img)` on a HOST in protocol state `h` (R185). -/
def hostReq (h : HostState) (r : Request) (s : State) : State :=
  if h = .halted then emit (.rejected r.op .halted) s
  else if sizeMismatch s.cfg r then emit (.opFinished r.op .sizeMismatch) s
  else if reqBusy r s then emit (.rejected r.op .busy) s
  else
    let s := loadImage r s
    if h = .idle then hostStart r.op s else { s with pendOp := some r.op }

/-- `req(op, img)` (R185, R189). -/
def req (r : Request) (s : State) : State :=
  match s.link with
  | .host h => hostReq h r s
  | .device _ => s

/-- `req_connect()` (R186, R189). -/
def reqConnect (s : State) : State :=
  match s.link with
  | .host .disconnected => hostEnterDisconnected { s with linkEn := true }
  | .host _ => s
  | .device _ => s

/-- `req_disconnect()` on a HOST that is not halted (R187). -/
def hostDisconnect (h : HostState) (s : State) : State :=
  let s := { s with linkEn := false }
  let s := if h = .disconnected then s else send cmdDisconnect [] (cancel s)
  hostEnterDisconnected (clearBuffers (hostAbortPending .disconnected (hostAbort .disconnected s)))

/-- `req_disconnect()` (R187, R189). -/
def reqDisconnect (s : State) : State :=
  match s.link with
  | .host .halted => s
  | .host h => hostDisconnect h s
  | .device _ => s

/-! Reset. -/

/-- Reset (R300, R301): every register takes the value of R50 whatever the state was. The parameters, the role, the events still to come and the backend are no registers and stay. -/
def resetEvent (s : State) : State :=
  { State.resetOf s.cfg s.role with events := s.events, backend := s.backend, resets := s.resets + 1 }

/-- The handler of an event, run to completion (R14, R275). -/
def handle (e : Event) (s : State) : Result :=
  match e with
  | .rxByte b => rxByte b s
  | .txByte => .next (txByte s)
  | .timerFired => .next (timerFired s)
  | .liveTick => .next (liveTick s)
  | .req r => .next (req r s)
  | .reqConnect => .next (reqConnect s)
  | .reqDisconnect => .next (reqDisconnect s)
  | .reset => .next (resetEvent s)

/-! Simultaneous events (R276). -/

/-- The place of an event in the order in which a hardware build serves events that are pending at once (R276). `tx_byte` is independent of the others and stands last; R276 gives reset no place, and it stands first (log entry 12). -/
def Event.rank : Event → Nat
  | .reset => 0
  | .rxByte _ => 1
  | .timerFired => 2
  | .liveTick => 3
  | .reqDisconnect => 4
  | .reqConnect => 5
  | .req _ => 6
  | .txByte => 7

/-- Puts an event among pending ones in order of rank: after those of lower rank, before those of its own, which stood behind it. DESIGN CHOICE: R276 gives no order among events of one kind; the one that stands first in the list stays first (log entry 12). -/
def arbiterInsert (e : Event) : List Event → List Event
  | [] => [e]
  | f :: rest => if e.rank ≤ f.rank then e :: f :: rest else f :: arbiterInsert e rest

/-- The order in which a hardware build serves the events pending at once (R276). A step takes events in any order; this is one of them. -/
def arbitrate : List Event → List Event
  | [] => []
  | e :: rest => arbiterInsert e (arbitrate rest)

/-! Running the decoder over bytes, to place an instruction where the next step fetches it. -/

/-- The decoder after `bytes`, none of which ends a frame. -/
def decodeFeed (ctx : DecCtx) (d : Decoder) : List Byte → Decoder
  | [] => d
  | b :: rest => decodeFeed ctx (decodeStep ctx d b).1 rest

end Sys2Proof.Machine
end

