-- ==== Sys2Proof/Machine/Step.lean ====
section
/-! DEFINITION. One step: the block takes the next pending event and runs its handler to completion (spec/00_scope.md R14). -/

namespace Sys2Proof.Machine

/-- One step. While no event is pending the block does nothing (R300: "executes nothing until an event arrives"). -/
def step (s : State) : Host.Outcome State Fault Refusal :=
  match s.events with
  | [] => .next s
  | e :: rest => handle e { s with events := rest }

/-- `s` with the instruction whose bits are `w` received up to its END byte, which is the next event: the decoder has taken START, command, payload and checksum, and the very next step completes the frame and delivers it (R141). -/
def State.withFetchWord (s : State) (nbits w : Nat) : State :=
  { s with
    dec := decodeFeed s.decCtx { s.dec with rxState := .seekStart } (wordFrame s.decCtx nbits w)
    events := .rxByte endByte :: s.events }

end Sys2Proof.Machine
end

