-- ==== Sys2Proof/Safety.lean ====
section
/-! DEFINITION. What a good state is: the invariants of spec/10_state.md R51 with what they need to be kept by every step. After them, the terms in which the statements write out the effect of a rule. -/

namespace Sys2Proof.Machine

/-- The decoder is inside a frame, past its command byte. -/
def Decoder.inFrame (d : Decoder) : Prop :=
  d.rxState = .readData ∨ d.rxState = .readChecksum ∨ d.rxState = .readEnd

/-- The payload length of a frame of command `c` in every reachable state: `plen` with 256 for `MEMDATA` (R98, R100). -/
def frameLen (cfg : Cfg) (c : Byte) : Nat :=
  if c = cmdMemdata then 256 else plen ⟨mtNone, 0, cfg.infoLen, 0⟩ c

/-- The decoder's part of R51, and R27: every payload index below the count has been written. -/
structure State.DecInv (s : State) : Prop where
  len_le : s.dec.rxLen.toNat ≤ 256
  data_cnt : s.dec.rxState = .readData → s.dec.rxCnt.toNat < s.dec.rxLen.toNat
  csum_cnt : s.dec.rxState = .readChecksum → s.dec.rxCnt.toNat ≤ 1
  known_cmd : s.dec.inFrame → s.dec.rxKnown = known s.dec.rxCmd
  len_cmd : s.dec.inFrame → s.dec.rxLen.toNat = frameLen s.cfg s.dec.rxCmd
  data_written : s.dec.rxState = .readData → ∀ i < s.dec.rxCnt.toNat, (s.dec.rxBuf.lookup i).isSome
  all_written : s.dec.rxState = .readChecksum ∨ s.dec.rxState = .readEnd →
    ∀ i < s.dec.rxLen.toNat, (s.dec.rxBuf.lookup i).isSome

/-- The three buffers are in canonical form and inside their address spaces (R62 to R64). -/
structure State.MemInv (s : State) : Prop where
  rx_wf : s.dec.rxBuf.wf
  rx_below : s.dec.rxBuf.below rxBufSize
  xfer_wf : s.xferBuf.wf
  xfer_below : s.xferBuf.below xferBufSize
  backend_wf : ∀ cells, s.backend = .ideal cells → cells.wf

/-- The counters (R29, R38, R40, R51): `xfer_cnt` is a multiple of 256 inside the memory. -/
structure State.CntInv (s : State) : Prop where
  xfer_le : s.xferCnt.toNat ≤ memsize s.memtype
  xfer_mult : s.xferCnt.toNat % 256 = 0
  retry_le : s.retryCnt.toNat ≤ s.cfg.maxRetry
  txq_le : s.txq.length ≤ s.cfg.txqBytes

/-- A host state without a session: `memtype` is `MT_NONE` there (R51). -/
def HostState.sessionless : HostState → Bool
  | .disconnected => true
  | .init => true
  | .memid => true
  | .halted => true
  | .idle => false
  | .waitPing => false
  | .waitReadmemOk => false
  | .waitReadmemData => false
  | .waitWritememOk => false
  | .waitWritememAck => false

/-- A host state in which no reply is awaited: the timer is disarmed there (R51). -/
def HostState.resting : HostState → Bool
  | .disconnected => true
  | .idle => true
  | .halted => true
  | .init => false
  | .memid => false
  | .waitPing => false
  | .waitReadmemOk => false
  | .waitReadmemData => false
  | .waitWritememOk => false
  | .waitWritememAck => false

/-- The values that `cur_op` may have in a host state (R36, R51). -/
def HostState.mayHold (h : HostState) (op : Option OpKind) : Prop :=
  match h with
  | .waitPing => op = none ∨ op = some .ping
  | .waitReadmemOk => op = some .read
  | .waitReadmemData => op = some .read
  | .waitWritememOk => op = some .write
  | .waitWritememAck => op = some .write
  | .disconnected => op = none
  | .init => op = none
  | .memid => op = none
  | .idle => op = none
  | .halted => op = none

/-- Where a transfer stands in a host state (R190, R231, R242). -/
def HostState.progress (h : HostState) (s : State) : Prop :=
  match h with
  | .waitReadmemOk => s.xferCnt = 0
  | .waitReadmemData => s.xferCnt.toNat < memsize s.memtype
  | .waitWritememOk => s.xferCnt = 0
  | .waitWritememAck => s.xferCnt.toNat < memsize s.memtype ∧ s.blkLen.toNat = 256
  | .disconnected => True
  | .init => True
  | .memid => True
  | .idle => True
  | .waitPing => True
  | .halted => True

/-- The dispatcher's part of R51 on a HOST, and R44: every index of `xfer_buf` that an operation may read has been written. -/
structure State.HostInv (h : HostState) (s : State) : Prop where
  memtype_eq : s.memtype = if h.sessionless then mtNone else memCode s.cfg.hostTarget
  enabled : s.linkEn = !(h == .disconnected || h == .halted)
  connected_eq : s.connected = !(h == .disconnected || h == .init || h == .halted)
  cur_op : h.mayHold s.curOp
  pend_op : h = .idle ∨ h = .halted → s.pendOp = none
  timer : s.timerArmed = !h.resting
  progress : h.progress s
  read_written : s.curOp = some .read → ∀ i < s.xferCnt.toNat, (s.xferBuf.lookup i).isSome
  write_written : s.curOp = some .write ∨ s.pendOp = some .write →
    ∀ i < memTypeSize s.cfg.hostTarget, (s.xferBuf.lookup i).isSome

/-- A device state with a session (R270, decision D25). -/
def DevState.inSession : DevState → Bool
  | .idle => true
  | .read => true
  | .write => true
  | .ping => true
  | .disconnected => false
  | .waitMemid => false

/-- The dispatcher's part of R51 on a DEVICE; `D_PING` is never seen between steps (R32), and the registers of a HOST keep their reset values (R20). -/
structure State.DevInv (d : DevState) (s : State) : Prop where
  not_ping : d ≠ .ping
  memtype_eq : if d.inSession then (memOfCode s.memtype).isSome else s.memtype = mtNone
  connected_eq : s.connected = !(d == .disconnected)
  timer : s.timerArmed = (d == .waitMemid || d == .read || d == .write)
  resting : d ≠ .read → d ≠ .write → s.xferCnt = 0
  writing : d = .write → s.xferCnt.toNat < memsize s.memtype
  host_registers : s.linkEn = false ∧ s.curOp = none ∧ s.pendOp = none ∧ s.blkLen = 0 ∧ s.retryCnt = 0
  host_buffer : s.xferBuf = [] ∧ s.appEv = []

/-- The dispatcher's part of R51, for the instance's role. -/
def State.LinkInv (s : State) : Prop :=
  match s.link with
  | .host h => s.HostInv h
  | .device d => s.DevInv d

/-- The invariant of every reachable state of an instance that is a configuration of this hardware (R8, R51). -/
structure State.Inv (s : State) : Prop where
  cfg_wf : s.cfg.wf
  decoder : s.DecInv
  memory : s.MemInv
  counters : s.CntInv
  dispatcher : s.LinkInv

/-! Terms of the statements: what a rule does to the state, written out field by field. -/

/-- `(c, P)` is a frame of the length table for a step from `s` to `t`: a known command with a payload of the length that the table gives it before or after the step (R98, R121). Only `MEMDATA`'s length reads registers that the step may write: a HOST sends a block after `xfer_cnt` has moved (R231), a DEVICE before (R191). -/
def ofTable (s t : State) (f : Byte × List Byte) : Prop :=
  known f.1 = true ∧ (f.2.length = plen s.decCtx f.1 ∨ f.2.length = plen t.decCtx f.1)

/-- The bytes of `frames` one after the other, each encoded whole (R123). -/
def encodeAll (cfg : Cfg) (frames : List (Byte × List Byte)) : List Byte :=
  frames.flatMap (fun f => encodeFrame cfg f.1 f.2)

/-- `s` after a `SEND` of a frame whose payload has the table's length: queued whole if it fits, else refused with `flt_txq` (R120, R122). -/
def State.sent (s : State) (c : Byte) (P : List Byte) : State :=
  if s.txq.length + 5 + P.length ≤ s.cfg.txqBytes then
    { s with txq := s.txq ++ encodeFrame s.cfg c P, lastTxCmd := c }
  else { s with fltTxq := true }

/-- What `CANCEL()` appends to `timer_cmd` (R281). -/
def State.cancelCall (s : State) : List TimerCall := if s.timerArmed then [.cancel] else []

/-- The decoder's registers after `clear_buffers()` (R178). -/
def Decoder.cleared (d : Decoder) : Decoder := { d with rxState := .seekStart, rxCnt := 0, rxLen := 0, rxKnown := false }

/-- The terminal notification of the operation that a register holds, if it holds one (R263). -/
def finished (op : Option OpKind) (res : OpResult) : List AppEvent :=
  match op with
  | none => []
  | some o => [.opFinished o res]

/-- `s` after `host_start(op)` (R184). -/
def State.started (s : State) (op : OpKind) : State :=
  match op with
  | .read =>
    { s.sent 0x60 [s.memtype] with
      curOp := some .read, xferCnt := 0, timerArmed := true, timerMs := s.cfg.tXferInit
      timerCmd := s.timerCmd ++ [.arm s.cfg.tXferInit], link := .host .waitReadmemOk }
  | .write =>
    { s.sent 0x80 [s.memtype] with
      curOp := some .write, xferCnt := 0, retryCnt := 0, blkLen := 0, timerArmed := true, timerMs := s.cfg.tXferInit
      timerCmd := s.timerCmd ++ [.arm s.cfg.tXferInit], link := .host .waitWritememOk }
  | .ping =>
    { s.sent 0x02 [] with
      curOp := some .ping, timerArmed := true, timerMs := s.cfg.tPing
      timerCmd := s.timerCmd ++ [.arm s.cfg.tPing], link := .host .waitPing }

/-- `s` after a host's return to idle: disarmed, and a deferred request served at once (R180, R183). -/
def State.idled (s : State) : State :=
  let t := { s with timerArmed := false, timerCmd := s.timerCmd ++ s.cancelCall, link := .host .idle }
  match s.pendOp with
  | none => t
  | some op => ({ t with pendOp := none } : State).started op

/-- `s` after a reconnect of an enabled host (R264, R179). -/
def State.reconnected (s : State) (kind : Byte) : State :=
  { s.sent 0x01 [] with
    timerArmed := true, timerMs := s.cfg.tInit, timerCmd := s.timerCmd ++ s.cancelCall ++ [.arm s.cfg.tInit]
    appEv := s.appEv ++ finished s.curOp (.err kind) ++ [.reconnect kind], curOp := none
    dec := s.dec.cleared, xferCnt := 0, blkLen := 0, retryCnt := 0
    connected := false, memtype := 0x00, link := .host .init }

/-- `s` after a halt (R266). -/
def State.haltedBy (s : State) (kind : Byte) : State :=
  { s with
    timerArmed := false, timerCmd := s.timerCmd ++ s.cancelCall
    appEv := s.appEv ++ finished s.curOp (.err kind) ++ finished s.pendOp (.err kind) ++ [.fatal kind]
    curOp := none, pendOp := none, dec := s.dec.cleared, xferCnt := 0, blkLen := 0, retryCnt := 0
    connected := false, memtype := 0x00, linkEn := false, link := .host .halted }

/-- `s` after a device's return to its safe state (R270): idle with a session, disconnected without. -/
def State.madeSafe (s : State) (d : DevState) : State :=
  let t := { s with timerArmed := false, timerCmd := s.timerCmd ++ s.cancelCall, xferCnt := 0 }
  if d.inSession then { t with link := .device .idle }
  else { t with memtype := 0x00, connected := false, link := .device .disconnected }

/-- The outstanding block of a write goes out from the offset `xfer_cnt` of `s`, and its reply is awaited (R190). -/
def State.blockSent (s : State) : State :=
  { s.sent 0x70 (xferRead s s.xferCnt.toNat (memdataLen s.decCtx)) with
    blkLen := BitVec.ofNat 9 (memdataLen s.decCtx), timerArmed := true, timerMs := 1500
    timerCmd := s.timerCmd ++ s.cancelCall ++ [.arm 1500], link := .host .waitWritememAck }

end Sys2Proof.Machine

namespace Sys2Proof

open Machine

/-- The tables of spec/43_dispatch_core.md R195 and R196: whether a rule of the command stands in the cell of a link state, so that the command is not unexpected there (R173). -/
def Instr.acceptedIn (i : Instr) (l : LinkState) : Bool :=
  match l with
  | .host h =>
    match i with
    | .init _ => h == .init
    | .ok _ => h == .memid || h == .waitReadmemOk || h == .waitWritememOk
    | .txrxAck _ => h == .waitPing || h == .waitWritememAck
    | .txrxDone _ => h == .waitWritememAck
    | .txrxErr _ => h == .waitWritememAck
    | .memdata _ _ => h == .waitReadmemData
    | .err _ _ =>
      h == .memid || h == .idle || h == .waitReadmemOk || h == .waitReadmemData || h == .waitWritememOk ||
        h == .waitWritememAck
    | .noneCmd _ => false
    | .ping _ => false
    | .memid _ _ => false
    | .startxfer _ => false
    | .endxfer _ => false
    | .disconnect _ => false
    | .readmem _ _ => false
    | .readnext _ => false
    | .data _ _ => false
    | .info _ _ => false
    | .writemem _ _ => false
  | .device d =>
    match i with
    | .init _ => true
    | .disconnect _ => true
    | .err _ _ => true
    | .memid _ _ => d == .waitMemid
    | .ping _ => d == .idle
    | .readmem _ _ => d == .idle
    | .writemem _ _ => d == .idle
    | .readnext _ => d == .read
    | .txrxAck _ => d == .read
    | .txrxDone _ => d == .read
    | .memdata _ _ => d == .write
    | .noneCmd _ => false
    | .startxfer _ => false
    | .endxfer _ => false
    | .ok _ => false
    | .txrxErr _ => false
    | .data _ _ => false
    | .info _ _ => false

end Sys2Proof
end

