-- ==== Sys2Proof/Certificates/Slice0/Obligations.lean ====
section
/-! DEFINITION. The statements for the provers. Each docstring says what the statement formalises; OBLIGATIONS.json names the rules. -/

open Sys2Proof Sys2Proof.Machine

/-- When the next event is the END byte 0x5A, the decoder is in ReadEnd with a known command and a length inside rx_buf, and the received frame stands for instruction i, then step is exec of i on the state whose event is taken and whose decoder has returned to SeekStart. (R14, R141, R171) -/
def Obligations.StepRunsTheDecodedInstruction : Prop :=
  ∀ (s : State) (rest : List Event) (i : Instr),
    s.events = .rxByte 0x5A :: rest → s.dec.rxState = .readEnd → s.dec.rxKnown = true → s.dec.rxLen.toNat ≤ 256 →
    (⟨s.dec.rxCmd, rxPayload s.decCtx s.dec, s.dec.rxCsum⟩ : Frame).instr = some i →
    step s = exec i { s with events := rest, dec := { s.dec with rxState := .seekStart } }

/-- From a decoder in SeekStart, as many steps as the encoding of a well-formed instruction has bytes, whose events are those bytes, are together exec of that instruction on a state that differs from the first only in the events taken and in the decoder; the decoder is back in SeekStart and holds the command, the payload and the checksum field of the frame. (R14, R60, R136, R141, R144, R171) -/
def Obligations.ByteStreamRunsTheInstruction : Prop :=
  ∀ (i : Instr) (s : State) (rest : List Event),
    s.cfg.infoLen ≤ 256 → i.wf s.decCtx = true → s.dec.rxState = .seekStart →
    s.events = (encode i).map Event.rxByte ++ rest →
    ∃ d : Decoder, d.rxState = .seekStart ∧ d.rxCmd = i.opcode ∧ d.rxKnown = true ∧ d.rxCnt = 0 ∧
      d.rxLen.toNat = i.payload.length ∧ d.rxCsum = i.csum ∧ rxPayload s.decCtx d = i.payload ∧
      Host.Core.run Sys2Proof.core (encode i).length s = exec i { s with events := rest, dec := d }

/-- For every instruction that is well formed in a context with INFO_LEN at most 256, and any bytes after it, decode of the encoding answers that instruction and those bytes, whatever the operands and the checksum field are. (R90, R96, R98, R123, R144) -/
def Obligations.DecodeInvertsEncode : Prop :=
  ∀ (ctx : DecCtx) (i : Instr) (rest : List Byte),
    ctx.infoLen ≤ 256 → i.wf ctx = true → decode ctx (encode i ++ rest) = .ok (i, rest)

/-- If decode answers an instruction and a rest, then the instruction is well formed in the context and the bytes are its encoding followed by the rest: no other bytes decode to it. That decode asks for START as the first byte is the model's choice (log entry 16): the hardware's decoder discards bytes before START and still delivers the frame (R137). (R90, R98, R106, R108, R137) -/
def Obligations.DecodedBytesAreTheEncoding : Prop :=
  ∀ (ctx : DecCtx) (bytes rest : List Byte) (i : Instr),
    ctx.infoLen ≤ 256 → decode ctx bytes = .ok (i, rest) → i.wf ctx = true ∧ bytes = encode i ++ rest

/-- The frames A5 01 00 00 5A, A5 03 01 00 00 5A, A5 F0 07 12 34 5A, A5 61 00 00 5A and A5 71 7F 00 00 5A decode to INIT, MEMID, ERR, READNEXT and DATA with the operands in their places. A5 EE 12 34 5A, an unknown command, and A5 02 00 00 5B, a wrong END byte, give no instruction; that decode answers with the names unknownCommand and badEnd is the model's choice (log entry 16). The length context is that of State.reset, so the statement assumes its parameters: the defaults of R8, and the model's choices of log entries 2 and 3. (R90, R96, R98, R127, R106, R108, R141) -/
def Obligations.WrittenOutFramesDecode : Prop :=
  decode State.reset.decCtx [0xA5, 0x01, 0x00, 0x00, 0x5A] = .ok (.init 0x0000, []) ∧
  decode State.reset.decCtx [0xA5, 0x03, 0x01, 0x00, 0x00, 0x5A] = .ok (.memid 0x01 0x0000, []) ∧
  decode State.reset.decCtx [0xA5, 0xF0, 0x07, 0x12, 0x34, 0x5A] = .ok (.err 0x07 0x1234, []) ∧
  decode State.reset.decCtx [0xA5, 0x61, 0x00, 0x00, 0x5A] = .ok (.readnext 0x0000, []) ∧
  decode State.reset.decCtx [0xA5, 0x71, 0x7F, 0x00, 0x00, 0x5A] = .ok (.data 0x7F 0x0000, []) ∧
  decode State.reset.decCtx [0xA5, 0xEE, 0x12, 0x34, 0x5A] = .error .unknownCommand ∧
  decode State.reset.decCtx [0xA5, 0x02, 0x00, 0x00, 0x5B] = .error .badEnd

/-- From SeekStart: if a prefix of bytes delivers no frame and leaves the decoder in SeekStart, then the prefix followed by the encoding of a known command with a payload of the table's length delivers exactly that frame; a prefix without 0xA5 always satisfies the condition; a prefix with 0xA5 need not (a stray 0xA5 before INIT in NONE mode delivers nothing). (R145) -/
def Obligations.ResynchronisesAfterAHarmlessPrefix : Prop :=
  ∀ (cfg : Cfg) (ctx : DecCtx) (d : Decoder) (pre : List Byte) (c : Byte) (P : List Byte),
    ctx.infoLen ≤ 256 → known c = true → P.length = plen ctx c → d.rxState = .seekStart →
    ((decodeRun ctx d pre).2 = [] → (decodeRun ctx d pre).1.rxState = .seekStart →
      (decodeRun ctx d (pre ++ encodeFrame cfg c P)).2 = [⟨c, P, generate cfg c P⟩]) ∧
    ((∀ b ∈ pre, b ≠ 0xA5) → (decodeRun ctx d pre).2 = [] ∧ (decodeRun ctx d pre).1.rxState = .seekStart) ∧
    (decodeRun ctx d (0xA5 :: encodeFrame Cfg.default 0x01 [])).2 = []

/-- From SeekStart, after 0xA5, a command byte c and exactly plen(c) + 3 more bytes the decoder is in SeekStart again, and after 0xA5 alone and after every shorter run of those bytes it is not: no START is looked for in between. (R147, R146, R93) -/
def Obligations.FalseStartConsumesOneFrame : Prop :=
  ∀ (ctx : DecCtx) (d : Decoder) (c : Byte) (bs : List Byte),
    ctx.infoLen ≤ 256 → d.rxState = .seekStart → bs.length = plen ctx c + 3 →
    (decodeRun ctx d (0xA5 :: c :: bs)).1.rxState = .seekStart ∧
    (decodeRun ctx d [0xA5]).1.rxState ≠ .seekStart ∧
    ∀ k < bs.length, (decodeRun ctx d (0xA5 :: c :: bs.take k)).1.rxState ≠ .seekStart

/-- In SeekStart a received byte 0xA5 moves the decoder to ReadCommand and any other byte is discarded: rx_state is all that is written, beside the event that is taken. (R137) -/
def Obligations.SeekStartWaitsForTheStartMarker : Prop :=
  ∀ (s : State) (b : Byte) (rest : List Event),
    s.events = .rxByte b :: rest → s.dec.rxState = .seekStart →
    step s = .next { s with
      events := rest, dec := { s.dec with rxState := if b = 0xA5 then .readCommand else .seekStart } }

/-- In ReadCommand the received byte becomes rx_cmd, rx_known says whether it is one of the 18 opcodes, rx_len becomes its length by the table evaluated on the state before the step, rx_cnt becomes 0, and the decoder goes on to ReadChecksum if the length is 0, else to ReadData. (R138) -/
def Obligations.ReadCommandSamplesTheLength : Prop :=
  ∀ (s : State) (b : Byte) (rest : List Event),
    s.events = .rxByte b :: rest → s.dec.rxState = .readCommand →
    step s = .next { s with
      events := rest
      dec := { s.dec with
        rxCmd := b, rxKnown := known b, rxLen := BitVec.ofNat 9 (plen s.decCtx b), rxCnt := 0
        rxState := if plen s.decCtx b = 0 then .readChecksum else .readData } }

/-- In ReadData, with rx_cnt below 256, the received byte is stored at index rx_cnt of rx_buf and every other index keeps what it held; rx_cnt counts up, and when it reaches rx_len it becomes 0 and the decoder goes on to ReadChecksum. No byte value is special. (R139) -/
def Obligations.ReadDataStoresTheByte : Prop :=
  ∀ (s : State) (b : Byte) (rest : List Event),
    s.events = .rxByte b :: rest → s.dec.rxState = .readData → s.dec.rxCnt.toNat < 256 →
    ∃ m : Memory,
      (∀ a, m.lookup a = if a = s.dec.rxCnt.toNat then some b else s.dec.rxBuf.lookup a) ∧
      step s = .next { s with
        events := rest
        dec :=
          if s.dec.rxCnt.toNat + 1 = s.dec.rxLen.toNat then
            { s.dec with rxBuf := m, rxCnt := 0, rxState := .readChecksum }
          else { s.dec with rxBuf := m, rxCnt := BitVec.ofNat 9 (s.dec.rxCnt.toNat + 1) } }

/-- In ReadChecksum the first byte (rx_cnt 0) becomes bits 15:8 of rx_csum and sets rx_cnt to 1, the other becomes bits 7:0, clears rx_cnt and moves the decoder to ReadEnd; the other half of rx_csum is kept. (R140) -/
def Obligations.ReadChecksumIsBigEndian : Prop :=
  ∀ (s : State) (b : Byte) (rest : List Event),
    s.events = .rxByte b :: rest → s.dec.rxState = .readChecksum →
    ∃ w : U16,
      step s = .next { s with
        events := rest
        dec :=
          if s.dec.rxCnt = 0 then { s.dec with rxCsum := w, rxCnt := 1 }
          else { s.dec with rxCsum := w, rxCnt := 0, rxState := .readEnd } } ∧
      (s.dec.rxCnt = 0 → w.toNat = b.toNat * 256 + s.dec.rxCsum.toNat % 256) ∧
      (s.dec.rxCnt ≠ 0 → w.toNat = s.dec.rxCsum.toNat / 256 * 256 + b.toNat)

/-- In ReadEnd, with rx_len at most 256, a byte other than 0x5A, or any byte when the command is unknown, returns the decoder to SeekStart and changes nothing else: no delivery, no reply, no flag. (R141, R106, R108, R261) -/
def Obligations.ReadEndDropsBrokenFrames : Prop :=
  ∀ (s : State) (b : Byte) (rest : List Event),
    s.events = .rxByte b :: rest → s.dec.rxState = .readEnd → s.dec.rxLen.toNat ≤ 256 →
    b ≠ 0x5A ∨ s.dec.rxKnown = false →
    step s = .next { s with events := rest, dec := { s.dec with rxState := .seekStart } }

/-- A byte is known exactly when it is one of the 18 opcodes, so 238 values are unknown; the length table gives 1 for MEMID, ERR, READMEM, DATA, WRITEMEM, INFO_LEN for INFO, memdata_len for MEMDATA and 0 for every other byte. (R97, R98, R101) -/
def Obligations.VocabularyAndLengthTable : Prop :=
  (∀ c : Byte, known c = true ↔
    c ∈ ([0x00, 0x01, 0x02, 0x03, 0x0F, 0x10, 0x11, 0x12, 0x5A, 0x60, 0x61, 0x70, 0x71, 0x72, 0x80, 0xA5, 0xF0, 0xF1] :
      List Byte)) ∧
  ((List.range 256).filter (fun n => !known (BitVec.ofNat 8 n))).length = 238 ∧
  ∀ (ctx : DecCtx) (c : Byte),
    plen ctx c =
      if c ∈ ([0x03, 0xF0, 0x60, 0x71, 0x80] : List Byte) then 1
      else if c = 0x70 then memdataLen ctx
      else if c = 0x72 then ctx.infoLen
      else 0

/-- Code 0x01 names 24LC16 with 0x800 bytes, 0x02 X24645 with 0x2000, 0x03 24LC256 with 0x8000; 0x00 and every other code name no memory and have size 0. (R103) -/
def Obligations.MemorySizesByCode : Prop :=
  memOfCode 0x01 = some .t24LC16 ∧ memOfCode 0x02 = some .tX24645 ∧ memOfCode 0x03 = some .t24LC256 ∧
  memsize 0x00 = 0 ∧ memsize 0x01 = 0x800 ∧ memsize 0x02 = 0x2000 ∧ memsize 0x03 = 0x8000 ∧
  (∀ t : Byte, t ≠ 0x01 → t ≠ 0x02 → t ≠ 0x03 → memOfCode t = none ∧ memsize t = 0) ∧
  memCode .t24LC16 = 0x01 ∧ memCode .tX24645 = 0x02 ∧ memCode .t24LC256 = 0x03

/-- encode(c, P) is START, c, P, the checksum high byte first, END, 5 + |P| bytes; generate is 0 in NONE mode and csum_fn in STRICT mode; validate accepts everything in NONE mode and exactly the generated value in STRICT mode. (R123, R160, R161) -/
def Obligations.FrameLayoutAndChecksumUnit : Prop :=
  ∀ (cfg : Cfg) (c : Byte) (P : List Byte),
    (∃ hi lo : Byte, encodeFrame cfg c P = [0xA5, c] ++ P ++ [hi, lo, 0x5A] ∧
      hi.toNat = (generate cfg c P).toNat / 256 ∧ lo.toNat = (generate cfg c P).toNat % 256) ∧
    (encodeFrame cfg c P).length = 5 + P.length ∧
    (cfg.checksumMode = .none → generate cfg c P = 0x0000 ∧ ∀ cs, validate cfg c P cs = true) ∧
    (cfg.checksumMode = .strict →
      generate cfg c P = Config.csumFn c P ∧ ∀ cs, (validate cfg c P cs = true ↔ cs = Config.csumFn c P))

/-- SEND of a payload of the wrong length sets flt_tx_len and nothing else (R121); else, if fewer than 5 + |P| bytes of txq are free, it sets flt_txq and nothing else (R122); else it appends the whole encoded frame and records the command (R120). It returns ACCEPTED exactly in the third case. (R120, R121, R122) -/
def Obligations.SendQueuesOrRefusesWhole : Prop :=
  ∀ (c : Byte) (P : List Byte) (s : State),
    send c P s =
      (if P.length ≠ plen s.decCtx c then { s with fltTxLen := true }
       else if s.cfg.txqBytes - s.txq.length < 5 + plen s.decCtx c then { s with fltTxq := true }
       else { s with txq := s.txq ++ encodeFrame s.cfg c P, lastTxCmd := c }) ∧
    (sendAccepts c P s = true ↔
      P.length = plen s.decCtx c ∧ 5 + plen s.decCtx c ≤ s.cfg.txqBytes - s.txq.length)

/-- A tx_byte event removes the front byte of txq and appends it to wire_out and writes nothing else (R124). R124 enables the step only when txq holds a byte; that a pending tx_byte event with an empty queue is taken without effect is the model's choice (log entry 18). (R124) -/
def Obligations.TxByteMovesTheFrontByte : Prop :=
  ∀ (s : State) (rest : List Event), s.events = .txByte :: rest →
    (∀ b q, s.txq = b :: q → step s = .next { s with events := rest, txq := q, wireOut := s.wireOut ++ [b] }) ∧
    (s.txq = [] → step s = .next { s with events := rest })

/-- Every step but a reset leaves what has been handed over and what is queued as it was, followed by whole encoded frames, each of a known command with the payload length of the table (256 for MEMDATA from a state that meets the invariant): no byte is lost, reordered or interleaved, and no frame is cut. There is at most one such frame, or TXRX_DONE followed by the deferred request's frame where a HOST awaits a block of a read. Outside H_IDLE and H_DISCONNECTED a step that takes no received byte, timer_fired or req_disconnect sends nothing. How far this goes with R172 is log entry 10. (R61, R126, R122, R98, R121, R172, R242, R180) -/
def Obligations.FramesLeaveWholeAndInOrder : Prop :=
  ∀ s s' : State, step s = .next s' → s.events.head? ≠ some .reset →
    ∃ frames : List (Byte × List Byte),
      s'.wireOut ++ s'.txq = s.wireOut ++ s.txq ++ encodeAll s.cfg frames ∧
      (∀ f ∈ frames, ofTable s s' f) ∧
      (s.Inv → ∀ f ∈ frames, f.2.length = frameLen s.cfg f.1) ∧
      (frames.length ≤ 1 ∨
        s.link = .host .waitReadmemData ∧ s.pendOp ≠ none ∧
          ∃ f, frames = [(0x12, []), f] ∧ f.1 ∈ ([0x60, 0x80, 0x02] : List Byte)) ∧
      (s.link ≠ .host .idle → s.link ≠ .host .disconnected →
        (∀ b, s.events.head? ≠ some (.rxByte b)) → s.events.head? ≠ some .timerFired →
        s.events.head? ≠ some .reqDisconnect → frames = [])

/-- In every state, reachable or not, a step that answers a next state leaves flt_tx_len clear if it was clear: no rule calls SEND with a payload of the wrong length. (R121) -/
def Obligations.NoRuleSendsAWrongLength : Prop :=
  ∀ s s' : State, step s = .next s' → s.fltTxLen = false → s'.fltTxLen = false

/-- ARM(ms) sets timer_armed and timer_ms and appends the call to timer_cmd; CANCEL() clears timer_armed and appends its call if the timer is armed, and otherwise does nothing. (R280, R281) -/
def Obligations.ArmAndCancelTheReplyTimer : Prop :=
  ∀ (ms : U16) (s : State),
    arm ms s = { s with timerArmed := true, timerMs := ms, timerCmd := s.timerCmd ++ [.arm ms] } ∧
    (s.timerArmed = true → cancel s = { s with timerArmed := false, timerCmd := s.timerCmd ++ [.cancel] }) ∧
    (s.timerArmed = false → cancel s = s)

/-- On the ideal backend MemWrite answers ok and stores the bytes at their offsets, leaving every other offset as it was, and MemRead answers its contents and changes nothing; on any backend a MemRead that does not answer error answers exactly n bytes, and both calls change nothing of the state but the backend. (R66, R67, R68) -/
def Obligations.IdealBackendIsAnArray : Prop :=
  (∀ (s : State) (cells : Memory) (a n : Nat) (v : List Byte), s.backend = .ideal cells →
    (memRead a n s = (some ((List.range' a n).map (cells.readByte Config.backendCell)), s)) ∧
    ∃ m : Memory, memWrite a v s = (true, { s with backend := .ideal m }) ∧
      ∀ j, m.lookup j = if a ≤ j ∧ j < a + v.length then v[j - a]? else cells.lookup j) ∧
  ∀ (s : State) (a n : Nat) (v : List Byte),
    (∀ r, (memRead a n s).1 = some r → r.length = n) ∧
    (memRead a n s).2 = { s with backend := (memRead a n s).2.backend } ∧
    (memWrite a v s).2 = { s with backend := (memWrite a v s).2.backend }

/-- host_to_idle() cancels the timer and enters H_IDLE; with a deferred request it clears pend_op and in the same step sends READMEM, WRITEMEM or PING, arms its deadline and enters the state that awaits the reply, with the transfer counters cleared for a transfer. (R180, R183, R184) -/
def Obligations.ReturnToIdleServesTheDeferredRequest : Prop :=
  ∀ s : State, hostToIdle s = s.idled

/-- On a HOST with link_en set, raising ProtocolViolation, ChecksumFailure or RetryExceeded cancels the timer, finishes the operation in flight with the error kind 1, 5 or 6, clears the buffers, emits EV_RECONNECT(kind), sends INIT, arms T_INIT and enters H_INIT; a deferred request is kept in pend_op. With link_en clear, where R264 says that the handler does not run, each of the three does the same up to the event, sends and arms nothing and ends in H_DISCONNECTED: R179 executed as written, the model's choice (log entry 9). (R264, R267, R271, R272, R179, R263, R178) -/
def Obligations.HostReconnectsOnErrors : Prop :=
  ∀ (s : State) (h : HostState) (x : Exn) (kind : Byte),
    s.link = .host h →
    (x, kind) ∈ ([(.protocolViolation, 1), (.checksumFailure, 5), (.retryExceeded, 6)] : List (Exn × Byte)) →
    (s.linkEn = true → raise x s = s.reconnected kind) ∧
    (s.linkEn = false →
      raise x s =
        { s with
          timerArmed := false, timerCmd := s.timerCmd ++ s.cancelCall
          appEv := s.appEv ++ finished s.curOp (.err kind) ++ [.reconnect kind], curOp := none
          dec := s.dec.cleared, xferCnt := 0, blkLen := 0, retryCnt := 0
          connected := false, memtype := 0x00, link := .host .disconnected })

/-- On a DEVICE, DeviceError(code) and ProtocolViolation cancel the timer, send ERR with the code (1 for a violation), clear xfer_cnt and go to the safe state: D_IDLE from D_IDLE, D_PING, D_READ and D_WRITE, else D_DISCONNECTED with memtype and connected cleared. ChecksumFailure does so with code 5, but in D_WRITE it sends TXRX_ERR, arms 1500 ms and stays. (R268, R269, R270, R271) -/
def Obligations.DeviceReportsErrorsAndMakesItselfSafe : Prop :=
  ∀ (s : State) (d : DevState), s.link = .device d →
    (∀ code : ErrorCode, raise (.deviceError code) s = (s.sent 0xF0 [code.byte]).madeSafe d) ∧
    raise .protocolViolation s = (s.sent 0xF0 [0x01]).madeSafe d ∧
    (d ≠ .write → raise .checksumFailure s = (s.sent 0xF0 [0x05]).madeSafe d) ∧
    (d = .write → raise .checksumFailure s =
      { s.sent 0xF1 [] with
        timerArmed := true, timerMs := 1500, timerCmd := s.timerCmd ++ s.cancelCall ++ [.arm 1500] })

/-- timer_fired with no deadline outstanding does nothing. Otherwise it clears timer_armed without a CANCEL call; an enabled HOST reconnects with ERR_TIMEOUT (7) in H_INIT and in every waiting state and halts in H_MEMID; a DEVICE in D_WAIT_MEMID, D_READ or D_WRITE sends ERR 7 and goes to its safe state. (R282, R283, R284, R266, R264) -/
def Obligations.TimerExpiryRunsTheTimeoutHandler : Prop :=
  ∀ (s : State) (rest : List Event), s.events = .timerFired :: rest →
    (s.timerArmed = false → step s = .next { s with events := rest }) ∧
    (s.timerArmed = true →
      (∀ h, s.link = .host h → s.linkEn = true →
        h ∈ ([.init, .waitPing, .waitReadmemOk, .waitReadmemData, .waitWritememOk, .waitWritememAck] : List HostState) →
        step s = .next (({ s with events := rest, timerArmed := false } : State).reconnected 7)) ∧
      (s.link = .host .memid →
        step s = .next (({ s with events := rest, timerArmed := false } : State).haltedBy 7)) ∧
      (∀ d, s.link = .device d → d ∈ ([.waitMemid, .read, .write] : List DevState) →
        step s = .next ((({ s with events := rest, timerArmed := false } : State).sent 0xF0 [0x07]).madeSafe d)))

/-- For every instruction: a HOST in H_DISCONNECTED or H_HALTED changes last_rx_cmd alone, whatever the checksum; in every other state a failed validation raises ChecksumFailure on the state with last_rx_cmd recorded, whatever the command. (R171, R174, R276) -/
def Obligations.DeliveryChecksInOrder : Prop :=
  ∀ (i : Instr) (s : State),
    (s.link = .host .disconnected ∨ s.link = .host .halted → exec i s = .next { s with lastRxCmd := i.opcode }) ∧
    (s.link ≠ .host .disconnected → s.link ≠ .host .halted →
      validate s.cfg i.opcode i.payload i.csum = false →
      exec i s = .next (raise .checksumFailure { s with lastRxCmd := i.opcode }))

/-- For every instruction and every state that does not ignore frames: if the checksum validates and the transition tables give the command no rule in the link state, then exec answers the state after ProtocolViolation is raised on the state with last_rx_cmd recorded. (R173, R195, R196) -/
def Obligations.UnexpectedCommandsAreViolations : Prop :=
  ∀ (i : Instr) (s : State),
    s.link ≠ .host .disconnected → s.link ≠ .host .halted →
    validate s.cfg i.opcode i.payload i.csum = true → i.acceptedIn s.link = false →
    exec i s = .next (raise .protocolViolation { s with lastRxCmd := i.opcode })

/-- Each of the five commands without a dispatcher role, when delivered with a valid checksum, makes an enabled HOST in every state that does not ignore frames reconnect with ERR_UNKNOWN, and makes a DEVICE in every state send ERR 1 and go to its safe state. That exception is their whole effect. (R250, R251, R252, R253, R254, R271) -/
def Obligations.UnassignedCommandsAreAlwaysViolations : Prop :=
  ∀ (i : Instr) (s : State) (cs : U16) (x : Byte) (P : List Byte),
    i = .noneCmd cs ∨ i = .startxfer cs ∨ i = .endxfer cs ∨ i = .data x cs ∨ i = .info P cs →
    validate s.cfg i.opcode i.payload cs = true →
    (∀ h, s.link = .host h → h ≠ .disconnected → h ≠ .halted → s.linkEn = true →
      exec i s = .next (({ s with lastRxCmd := i.opcode } : State).reconnected 1)) ∧
    (∀ d, s.link = .device d →
      exec i s = .next ((({ s with lastRxCmd := i.opcode } : State).sent 0xF0 [0x01]).madeSafe d))

/-- INIT with a valid checksum: a HOST in H_INIT marks itself connected, emits EV_CONNECTED, sends MEMID with its target, arms T_MEMID and enters H_MEMID; a DEVICE in every state clears its buffers and memtype, marks itself connected, echoes INIT, arms T_INIT and enters D_WAIT_MEMID. Nothing else changes. (R220) -/
def Obligations.InitOpensTheHandshake : Prop :=
  ∀ (cs : U16) (s : State), validate s.cfg 0x01 [] cs = true →
    (s.link = .host .init →
      exec (.init cs) s = .next { s.sent 0x03 [memCode s.cfg.hostTarget] with
        lastRxCmd := 0x01, connected := true, appEv := s.appEv ++ [.connected]
        timerArmed := true, timerMs := s.cfg.tMemid, timerCmd := s.timerCmd ++ s.cancelCall ++ [.arm s.cfg.tMemid]
        link := .host .memid }) ∧
    (∀ d, s.link = .device d →
      exec (.init cs) s = .next { s.sent 0x01 [] with
        lastRxCmd := 0x01, connected := true, memtype := 0x00
        dec := s.dec.cleared, xferCnt := 0, blkLen := 0, retryCnt := 0
        timerArmed := true, timerMs := s.cfg.tInit, timerCmd := s.timerCmd ++ s.cancelCall ++ [.arm s.cfg.tInit]
        link := .device .waitMemid })

/-- PING with a valid checksum on a DEVICE in D_IDLE queues TXRX_ACK; link_state is D_IDLE after it and memtype, xfer_cnt, the timer and the backend are untouched. (R221) -/
def Obligations.PingIsAnsweredFromIdle : Prop :=
  ∀ (cs : U16) (s : State), validate s.cfg 0x02 [] cs = true → s.link = .device .idle →
    exec (.ping cs) s = .next { s.sent 0x11 [] with lastRxCmd := 0x02 }

/-- MEMID with a valid checksum on a DEVICE in D_WAIT_MEMID: a valid code in DEV_SUPPORTED becomes memtype, OK is sent, the timer is cancelled and D_IDLE entered; any other code gets ERR 2 and D_DISCONNECTED. (R222) -/
def Obligations.MemidFixesTheMemoryType : Prop :=
  ∀ (t : Byte) (cs : U16) (s : State), validate s.cfg 0x03 [t] cs = true → s.link = .device .waitMemid →
    (∀ m ∈ s.cfg.devSupported, memCode m = t →
      exec (.memid t cs) s = .next { s.sent 0x10 [] with
        lastRxCmd := 0x03, memtype := t, timerArmed := false, timerCmd := s.timerCmd ++ s.cancelCall
        link := .device .idle }) ∧
    ((∀ m ∈ s.cfg.devSupported, memCode m ≠ t) →
      exec (.memid t cs) s = .next { s.sent 0xF0 [0x02] with
        lastRxCmd := 0x03, memtype := 0x00, connected := false, xferCnt := 0
        timerArmed := false, timerCmd := s.timerCmd ++ s.cancelCall, link := .device .disconnected })

/-- DISCONNECT with a valid checksum on a DEVICE in any state cancels the timer, clears the buffers, memtype and connected and enters D_DISCONNECTED; nothing is sent. (R223) -/
def Obligations.DisconnectEndsTheSession : Prop :=
  ∀ (cs : U16) (s : State) (d : DevState), validate s.cfg 0x0F [] cs = true → s.link = .device d →
    exec (.disconnect cs) s = .next { s with
      lastRxCmd := 0x0F, timerArmed := false, timerCmd := s.timerCmd ++ s.cancelCall
      dec := s.dec.cleared, xferCnt := 0, blkLen := 0, retryCnt := 0
      memtype := 0x00, connected := false, link := .device .disconnected }

/-- OK with a valid checksum on a HOST: in H_MEMID memtype becomes the target's code and the host returns to idle, serving a deferred request; in H_WAIT_READMEM_OK it sends READNEXT, arms 1500 ms and enters H_WAIT_READMEM_DATA; in H_WAIT_WRITEMEM_OK, with the block at xfer_cnt inside xfer_buf, it sends that block and enters H_WAIT_WRITEMEM_ACK. (R230, R190) -/
def Obligations.OkMovesTheHostOn : Prop :=
  ∀ (cs : U16) (s : State), validate s.cfg 0x10 [] cs = true →
    (s.link = .host .memid →
      exec (.ok cs) s =
        .next (({ s with lastRxCmd := 0x10, memtype := memCode s.cfg.hostTarget } : State).idled)) ∧
    (s.link = .host .waitReadmemOk →
      exec (.ok cs) s = .next { s.sent 0x61 [] with
        lastRxCmd := 0x10, timerArmed := true, timerMs := 1500, timerCmd := s.timerCmd ++ s.cancelCall ++ [.arm 1500]
        link := .host .waitReadmemData }) ∧
    (s.link = .host .waitWritememOk → s.xferCnt.toNat + memdataLen s.decCtx ≤ 0x8000 →
      exec (.ok cs) s = .next (({ s with lastRxCmd := 0x10 } : State).blockSent))

/-- TXRX_ACK with a valid checksum on a HOST: in H_WAIT_PING it emits EV_PING_OK, finishes a requested ping and returns to idle; in H_WAIT_WRITEMEM_ACK, before the last block, it advances xfer_cnt by blk_len, clears retry_cnt and sends the next block; for the last block it is a ProtocolViolation. (R231, R190) -/
def Obligations.TxrxAckMovesTheHostOn : Prop :=
  ∀ (cs : U16) (s : State), validate s.cfg 0x11 [] cs = true →
    (s.link = .host .waitPing → s.curOp = some .ping →
      exec (.txrxAck cs) s = .next (({ s with
        lastRxCmd := 0x11, appEv := s.appEv ++ [.pingOk, .opFinished .ping .ok], curOp := none } : State).idled)) ∧
    (s.link = .host .waitPing → s.curOp ≠ some .ping →
      exec (.txrxAck cs) s = .next (({ s with lastRxCmd := 0x11, appEv := s.appEv ++ [.pingOk] } : State).idled)) ∧
    (s.link = .host .waitWritememAck → s.xferCnt.toNat + s.blkLen.toNat < memsize s.memtype →
      exec (.txrxAck cs) s = .next (({ s with
        lastRxCmd := 0x11, retryCnt := 0
        xferCnt := BitVec.ofNat 16 (s.xferCnt.toNat + s.blkLen.toNat) } : State).blockSent)) ∧
    (s.link = .host .waitWritememAck → memsize s.memtype ≤ s.xferCnt.toNat + s.blkLen.toNat →
      exec (.txrxAck cs) s = .next (raise .protocolViolation { s with lastRxCmd := 0x11 }))

/-- READNEXT or TXRX_ACK with a valid checksum on a DEVICE in D_READ does the same: with the whole memory sent, ERR 8 and the safe state; else the backend is read at xfer_cnt for memdata_len bytes, and its error gives ERR 3 and the safe state, its bytes are sent as MEMDATA, xfer_cnt advances by their number, 1500 ms are armed and the state stays D_READ. (R191, R231, R241) -/
def Obligations.DeviceServesTheNextBlock : Prop :=
  ∀ (i : Instr) (cs : U16) (s : State),
    i = .readnext cs ∨ i = .txrxAck cs → validate s.cfg i.opcode [] cs = true → s.link = .device .read →
    (memsize s.memtype ≤ s.xferCnt.toNat →
      exec i s = .next ((({ s with lastRxCmd := i.opcode } : State).sent 0xF0 [0x08]).madeSafe .read)) ∧
    (s.xferCnt.toNat < memsize s.memtype →
      ((memRead s.xferCnt.toNat (memdataLen s.decCtx) s).1 = none →
        exec i s = .next ((({ s with
          lastRxCmd := i.opcode
          backend := (memRead s.xferCnt.toNat (memdataLen s.decCtx) s).2.backend } : State).sent 0xF0
            [0x03]).madeSafe .read)) ∧
      (∀ r, (memRead s.xferCnt.toNat (memdataLen s.decCtx) s).1 = some r →
        exec i s = .next { s.sent 0x70 r with
          lastRxCmd := i.opcode
          backend := (memRead s.xferCnt.toNat (memdataLen s.decCtx) s).2.backend
          xferCnt := BitVec.ofNat 16 (s.xferCnt.toNat + memdataLen s.decCtx)
          timerArmed := true, timerMs := 1500, timerCmd := s.timerCmd ++ s.cancelCall ++ [.arm 1500] }))

/-- TXRX_DONE with a valid checksum: a HOST in H_WAIT_WRITEMEM_ACK whose outstanding block is the last advances xfer_cnt, emits EV_WRITE_CONFIRMED and the end of the write and returns to idle; a DEVICE in D_READ that has sent the whole memory cancels the timer, clears xfer_cnt and enters D_IDLE without a reply; in both states an incomplete transfer makes it a ProtocolViolation. (R232) -/
def Obligations.TxrxDoneConcludesATransfer : Prop :=
  ∀ (cs : U16) (s : State), validate s.cfg 0x12 [] cs = true →
    (s.link = .host .waitWritememAck → s.xferCnt.toNat + s.blkLen.toNat = memsize s.memtype →
      exec (.txrxDone cs) s = .next (({ s with
        lastRxCmd := 0x12, xferCnt := BitVec.ofNat 16 (memsize s.memtype), curOp := none
        appEv := s.appEv ++ [.writeConfirmed, .opFinished .write .ok] } : State).idled)) ∧
    (s.link = .host .waitWritememAck → s.xferCnt.toNat + s.blkLen.toNat ≠ memsize s.memtype →
      exec (.txrxDone cs) s = .next (raise .protocolViolation { s with lastRxCmd := 0x12 })) ∧
    (s.link = .device .read → s.xferCnt.toNat = memsize s.memtype →
      exec (.txrxDone cs) s = .next { s with
        lastRxCmd := 0x12, xferCnt := 0, timerArmed := false, timerCmd := s.timerCmd ++ s.cancelCall
        link := .device .idle }) ∧
    (s.link = .device .read → s.xferCnt.toNat ≠ memsize s.memtype →
      exec (.txrxDone cs) s = .next (raise .protocolViolation { s with lastRxCmd := 0x12 }))

/-- ERR with any code byte and a valid checksum: a HOST in H_MEMID halts with the code; in H_IDLE it emits EV_PEER_ERROR and stays; in the four transfer states it finishes the operation with the code and returns to idle, the session kept; a DEVICE in every state goes to its safe state and sends nothing. (R233, R265) -/
def Obligations.ErrIsReportedOrEndsTheOperation : Prop :=
  ∀ (e : Byte) (cs : U16) (s : State), validate s.cfg 0xF0 [e] cs = true →
    (s.link = .host .memid → exec (.err e cs) s = .next (({ s with lastRxCmd := 0xF0 } : State).haltedBy e)) ∧
    (s.link = .host .idle →
      exec (.err e cs) s = .next { s with lastRxCmd := 0xF0, appEv := s.appEv ++ [.peerError e] }) ∧
    (∀ h, s.link = .host h →
      h ∈ ([.waitReadmemOk, .waitReadmemData, .waitWritememOk, .waitWritememAck] : List HostState) →
      exec (.err e cs) s = .next (({ s with
        lastRxCmd := 0xF0, appEv := s.appEv ++ finished s.curOp (.err e), curOp := none } : State).idled)) ∧
    (∀ d, s.link = .device d → exec (.err e cs) s = .next (({ s with lastRxCmd := 0xF0 } : State).madeSafe d))

/-- TXRX_ERR with a valid checksum on a HOST in H_WAIT_WRITEMEM_ACK: below MAX_RETRY, with the block inside xfer_buf, retry_cnt counts up and the block at the unchanged xfer_cnt is sent again; at the ceiling RetryExceeded is raised, which on an enabled host ends the write with code 6 and reconnects. (R234, R272, R190) -/
def Obligations.TxrxErrResendsUpToTheCeiling : Prop :=
  ∀ (cs : U16) (s : State), validate s.cfg 0xF1 [] cs = true → s.link = .host .waitWritememAck →
    (s.retryCnt.toNat < s.cfg.maxRetry → s.xferCnt.toNat + memdataLen s.decCtx ≤ 0x8000 →
      exec (.txrxErr cs) s =
        .next (({ s with lastRxCmd := 0xF1, retryCnt := s.retryCnt + 1 } : State).blockSent)) ∧
    (s.cfg.maxRetry ≤ s.retryCnt.toNat → s.linkEn = true →
      exec (.txrxErr cs) s = .next (({ s with lastRxCmd := 0xF1 } : State).reconnected 6))

/-- READMEM or WRITEMEM with a valid checksum on a DEVICE in D_IDLE: the session's type clears xfer_cnt, sends OK, arms 1500 ms and enters D_READ or D_WRITE; any other type gets ERR 2 and the device stays idle. (R240, R243) -/
def Obligations.ReadmemAndWritememBeginATransfer : Prop :=
  ∀ (t : Byte) (cs : U16) (s : State), s.link = .device .idle →
    (validate s.cfg 0x60 [t] cs = true →
      (t = s.memtype →
        exec (.readmem t cs) s = .next { s.sent 0x10 [] with
          lastRxCmd := 0x60, xferCnt := 0, timerArmed := true, timerMs := 1500
          timerCmd := s.timerCmd ++ [.arm 1500], link := .device .read }) ∧
      (t ≠ s.memtype →
        exec (.readmem t cs) s = .next ((({ s with lastRxCmd := 0x60 } : State).sent 0xF0 [0x02]).madeSafe .idle))) ∧
    (validate s.cfg 0x80 [t] cs = true →
      (t = s.memtype →
        exec (.writemem t cs) s = .next { s.sent 0x10 [] with
          lastRxCmd := 0x80, xferCnt := 0, timerArmed := true, timerMs := 1500
          timerCmd := s.timerCmd ++ [.arm 1500], link := .device .write }) ∧
      (t ≠ s.memtype →
        exec (.writemem t cs) s = .next ((({ s with lastRxCmd := 0x80 } : State).sent 0xF0 [0x02]).madeSafe .idle)))

/-- MEMDATA with a valid checksum on a HOST in H_WAIT_READMEM_DATA, the block inside xfer_buf: there is a buffer that holds the payload at the offsets from xfer_cnt on and elsewhere what it held, such that before the end of the memory the host has advanced xfer_cnt, sent TXRX_ACK and armed 1500 ms, and at the end it has sent TXRX_DONE, emitted the whole image and the end of the read and returned to idle. (R242, R70) -/
def Obligations.HostCollectsABlock : Prop :=
  ∀ (P : List Byte) (cs : U16) (s : State), validate s.cfg 0x70 P cs = true →
    s.link = .host .waitReadmemData → s.xferCnt.toNat + P.length ≤ 0x8000 →
    ∃ m : Memory,
      (∀ a, m.lookup a =
        if s.xferCnt.toNat ≤ a ∧ a < s.xferCnt.toNat + P.length then P[a - s.xferCnt.toNat]? else s.xferBuf.lookup a) ∧
      (s.xferCnt.toNat + P.length < memsize s.memtype →
        exec (.memdata P cs) s = .next { s.sent 0x11 [] with
          lastRxCmd := 0x70, xferBuf := m, xferCnt := BitVec.ofNat 16 (s.xferCnt.toNat + P.length)
          timerArmed := true, timerMs := 1500, timerCmd := s.timerCmd ++ s.cancelCall ++ [.arm 1500] }) ∧
      (memsize s.memtype ≤ s.xferCnt.toNat + P.length →
        exec (.memdata P cs) s = .next (({ s.sent 0x12 [] with
          lastRxCmd := 0x70, xferBuf := m, xferCnt := BitVec.ofNat 16 (s.xferCnt.toNat + P.length), curOp := none
          appEv := s.appEv ++
            [.memReceived ((List.range' 0 (memsize s.memtype)).map (m.readByte (Config.xferBufByte s.resets))),
              .opFinished .read .ok] } : State).idled))

/-- MEMDATA with a valid checksum on a DEVICE in D_WRITE whose block lies inside the memory: if MemWrite fails, or the readback fails or differs, ERR 4 and the safe state; if the readback equals the payload, TXRX_ACK with 1500 ms armed before the end of the memory, and TXRX_DONE, xfer_cnt 0 and D_IDLE at its end. With nothing left to write, ERR 8 and the safe state. (R242, R67, R66) -/
def Obligations.DeviceWritesVerifiesAcknowledges : Prop :=
  ∀ (P : List Byte) (cs : U16) (s : State), validate s.cfg 0x70 P cs = true → s.link = .device .write →
    (memsize s.memtype ≤ s.xferCnt.toNat →
      exec (.memdata P cs) s = .next ((({ s with lastRxCmd := 0x70 } : State).sent 0xF0 [0x08]).madeSafe .write)) ∧
    (1 ≤ P.length → P.length ≤ 256 → s.xferCnt.toNat + P.length ≤ memsize s.memtype →
      ((memWrite s.xferCnt.toNat P s).1 = false →
        exec (.memdata P cs) s = .next ((({ s with
          lastRxCmd := 0x70, backend := (memWrite s.xferCnt.toNat P s).2.backend } : State).sent 0xF0
            [0x04]).madeSafe .write)) ∧
      ∀ w : State, memWrite s.xferCnt.toNat P s = (true, w) →
        ((memRead s.xferCnt.toNat P.length w).1 ≠ some P →
          exec (.memdata P cs) s = .next ((({ s with
            lastRxCmd := 0x70, backend := (memRead s.xferCnt.toNat P.length w).2.backend } : State).sent 0xF0
              [0x04]).madeSafe .write)) ∧
        ((memRead s.xferCnt.toNat P.length w).1 = some P →
          (s.xferCnt.toNat + P.length < memsize s.memtype →
            exec (.memdata P cs) s = .next { s.sent 0x11 [] with
              lastRxCmd := 0x70, backend := (memRead s.xferCnt.toNat P.length w).2.backend
              xferCnt := BitVec.ofNat 16 (s.xferCnt.toNat + P.length)
              timerArmed := true, timerMs := 1500, timerCmd := s.timerCmd ++ s.cancelCall ++ [.arm 1500] }) ∧
          (s.xferCnt.toNat + P.length = memsize s.memtype →
            exec (.memdata P cs) s = .next { s.sent 0x12 [] with
              lastRxCmd := 0x70, backend := (memRead s.xferCnt.toNat P.length w).2.backend, xferCnt := 0
              timerArmed := false, timerCmd := s.timerCmd ++ s.cancelCall, link := .device .idle })))

/-- The model's choice for states that no run reaches and payload lengths that no frame has (log entry 8): a block that would pass index 0x7FFF of xfer_buf, received or to be sent, stops with xferBufIndex, and a received block that is empty, longer than 256 bytes or not inside the device's memory stops with backendRange. (R63, R64, R66) -/
def Obligations.BlocksOutsideABufferStop : Prop :=
  ∀ (P : List Byte) (cs : U16) (s : State),
    (validate s.cfg 0x70 P cs = true → s.link = .host .waitReadmemData → 0x8000 < s.xferCnt.toNat + P.length →
      exec (.memdata P cs) s = .fault .xferBufIndex) ∧
    (validate s.cfg 0x70 P cs = true → s.link = .device .write → s.xferCnt.toNat < memsize s.memtype →
      P.length = 0 ∨ 256 < P.length ∨ memsize s.memtype < s.xferCnt.toNat + P.length →
      exec (.memdata P cs) s = .fault .backendRange) ∧
    (0x8000 < s.xferCnt.toNat + memdataLen s.decCtx →
      (validate s.cfg 0x10 [] cs = true → s.link = .host .waitWritememOk →
        exec (.ok cs) s = .fault .xferBufIndex) ∧
      (validate s.cfg 0xF1 [] cs = true → s.link = .host .waitWritememAck → s.retryCnt.toNat < s.cfg.maxRetry →
        exec (.txrxErr cs) s = .fault .xferBufIndex))

/-- A request on a HOST: when halted it is rejected HALTED; else a write whose image has not the target's size is finished with SIZE_MISMATCH; else, with a request deferred or a write while a read or write is in flight, it is rejected BUSY; else a write's image is copied to the front of xfer_buf, and the request begins at once in H_IDLE and is deferred in every other state. (R185) -/
def Obligations.RequestsAreServedDeferredOrAnswered : Prop :=
  ∀ (s : State) (r : Request) (rest : List Event) (h : HostState), s.events = .req r :: rest → s.link = .host h →
    (h = .halted → step s = .next { s with events := rest, appEv := s.appEv ++ [.rejected r.op .halted] }) ∧
    (h ≠ .halted →
      (∀ img, r = .write img → img.length ≠ memTypeSize s.cfg.hostTarget →
        step s = .next { s with events := rest, appEv := s.appEv ++ [.opFinished .write .sizeMismatch] }) ∧
      ((∀ img, r = .write img → img.length = memTypeSize s.cfg.hostTarget) →
        (s.pendOp ≠ none ∨ (r.op = .write ∧ (s.curOp = some .read ∨ s.curOp = some .write)) →
          step s = .next { s with events := rest, appEv := s.appEv ++ [.rejected r.op .busy] }) ∧
        (s.pendOp = none → ¬ (r.op = .write ∧ (s.curOp = some .read ∨ s.curOp = some .write)) →
          ∃ m : Memory,
            (∀ img, r = .write img →
              ∀ a, m.lookup a = if a < img.length then img[a]? else s.xferBuf.lookup a) ∧
            (r.op ≠ .write → m = s.xferBuf) ∧
            (h ≠ .idle → step s = .next { s with events := rest, xferBuf := m, pendOp := some r.op }) ∧
            (h = .idle → step s = .next (({ s with events := rest, xferBuf := m } : State).started r.op)))))

/-- req_connect() on a HOST in H_DISCONNECTED sets link_en, clears connected and memtype, sends INIT, arms T_INIT and enters H_INIT; in every other host state it has no effect. (R186) -/
def Obligations.ConnectRequestSendsInit : Prop :=
  ∀ (s : State) (rest : List Event) (h : HostState), s.events = .reqConnect :: rest → s.link = .host h →
    (h = .disconnected →
      step s = .next { s.sent 0x01 [] with
        events := rest, linkEn := true, connected := false, memtype := 0x00
        timerArmed := true, timerMs := s.cfg.tInit, timerCmd := s.timerCmd ++ [.arm s.cfg.tInit]
        link := .host .init }) ∧
    (h ≠ .disconnected → step s = .next { s with events := rest })

/-- req_disconnect() on a HOST: halted, no effect; else link_en is cleared, the operation in flight and then the deferred request are finished with DISCONNECTED, the buffers, connected and memtype are cleared and H_DISCONNECTED entered; unless it was there already, the timer is cancelled and DISCONNECT sent. (R187) -/
def Obligations.DisconnectRequestTearsDown : Prop :=
  ∀ (s : State) (rest : List Event) (h : HostState), s.events = .reqDisconnect :: rest → s.link = .host h →
    (h = .halted → step s = .next { s with events := rest }) ∧
    (h ≠ .halted → h ≠ .disconnected →
      step s = .next { s.sent 0x0F [] with
        events := rest, linkEn := false, timerArmed := false, timerCmd := s.timerCmd ++ s.cancelCall
        appEv := s.appEv ++ finished s.curOp .disconnected ++ finished s.pendOp .disconnected
        curOp := none, pendOp := none, dec := s.dec.cleared, xferCnt := 0, blkLen := 0, retryCnt := 0
        connected := false, memtype := 0x00, link := .host .disconnected }) ∧
    (h = .disconnected →
      step s = .next { s with
        events := rest, linkEn := false
        appEv := s.appEv ++ finished s.curOp .disconnected ++ finished s.pendOp .disconnected
        curOp := none, pendOp := none, dec := s.dec.cleared, xferCnt := 0, blkLen := 0, retryCnt := 0
        connected := false, memtype := 0x00 })

/-- live_tick on a HOST in H_IDLE with no operation in flight or deferred sends PING, arms T_PING and enters H_WAIT_PING with cur_op unchanged; in every other case it is dropped. (R188) -/
def Obligations.LiveTickPingsFromIdleOnly : Prop :=
  ∀ (s : State) (rest : List Event), s.events = .liveTick :: rest →
    (s.link = .host .idle → s.curOp = none → s.pendOp = none →
      step s = .next { s.sent 0x02 [] with
        events := rest, timerArmed := true, timerMs := s.cfg.tPing, timerCmd := s.timerCmd ++ [.arm s.cfg.tPing]
        link := .host .waitPing }) ∧
    (s.link ≠ .host .idle ∨ s.curOp ≠ none ∨ s.pendOp ≠ none → step s = .next { s with events := rest })

/-- On a DEVICE in any state req, req_connect, req_disconnect and live_tick change nothing but that the event is taken. (R189) -/
def Obligations.DeviceHasNoApplicationPort : Prop :=
  ∀ (s : State) (rest : List Event) (d : DevState) (e : Event), s.events = e :: rest → s.link = .device d →
    (∃ r, e = .req r) ∨ e = .reqConnect ∨ e = .reqDisconnect ∨ e = .liveTick →
    step s = .next { s with events := rest }

/-- A reset event leaves, from every state: the decoder in SeekStart with its registers zero, txq empty, link_state disconnected for the same role, link_en, connected, memtype, the operation registers, the counters, the last commands, the timer and the fault flags clear, and the traces empty (R300, R50). That nothing is written in rx_buf and xfer_buf, which R50 leaves unspecified, is the model's choice (log entry 6), and that the parameters, the later events and the backend stay is inferred (log entry 15). (R300, R50) -/
def Obligations.ResetClearsEveryRegister : Prop :=
  ∀ (s : State) (rest : List Event), s.events = .reset :: rest →
    ∃ t : State, step s = .next t ∧
      t.dec.rxState = .seekStart ∧ t.dec.rxCmd = 0x00 ∧ t.dec.rxKnown = false ∧ t.dec.rxLen = 0 ∧ t.dec.rxCnt = 0 ∧
      t.dec.rxCsum = 0x0000 ∧ (∀ a, t.dec.rxBuf.lookup a = none) ∧ (∀ a, t.xferBuf.lookup a = none) ∧
      t.txq = [] ∧ t.linkEn = false ∧ t.connected = false ∧ t.memtype = 0x00 ∧ t.curOp = none ∧ t.pendOp = none ∧
      t.xferCnt = 0 ∧ t.blkLen = 0 ∧ t.retryCnt = 0 ∧ t.lastTxCmd = 0x00 ∧ t.lastRxCmd = 0x00 ∧
      t.timerArmed = false ∧ t.timerMs = 0 ∧ t.fltTxLen = false ∧ t.fltTxq = false ∧
      t.wireOut = [] ∧ t.appEv = [] ∧ t.timerCmd = [] ∧
      (∀ h, s.link = .host h → t.link = .host .disconnected) ∧
      (∀ d, s.link = .device d → t.link = .device .disconnected) ∧
      t.cfg = s.cfg ∧ t.events = rest ∧ t.backend = s.backend

/-- Every step from every state, a reset too, keeps the instance's role and its parameters. (R2, R8, R279) -/
def Obligations.RoleAndParametersNeverChange : Prop :=
  ∀ s s' : State, step s = .next s' → s'.role = s.role ∧ s'.cfg = s.cfg

/-- If a step from a state of a session (H_IDLE, the waiting states of an operation, D_IDLE, D_READ, D_WRITE) ends in a state of a session of the same role, memtype is unchanged: it is written at the handshake and by the rules that end the session alone. (R35, R103) -/
def Obligations.MemoryTypeIsFixedForTheSession : Prop :=
  ∀ s s' : State, step s = .next s' →
    (∀ h h', s.link = .host h → s'.link = .host h' → h.sessionless = false → h'.sessionless = false →
      s'.memtype = s.memtype) ∧
    (∀ d d', s.link = .device d → s'.link = .device d' → d.inSession = true → d'.inSession = true →
      s'.memtype = s.memtype)

/-- Every step from H_HALTED but a reset stays in H_HALTED and queues nothing: what was handed over and what is queued are together unchanged. (R266, R174) -/
def Obligations.HaltedHostIsStuckAndSilent : Prop :=
  ∀ s s' : State, s.link = .host .halted → s.events.head? ≠ some .reset → step s = .next s' →
    s'.link = .host .halted ∧ s'.wireOut ++ s'.txq = s.wireOut ++ s.txq

/-- If MEMDATA on a DEVICE in D_WRITE queues TXRX_ACK or TXRX_DONE behind what was queued, then the backend answered ok to the write of the payload at xfer_cnt and answered exactly the payload to the read that followed. (R78, R242) -/
def Obligations.AcknowledgedBlocksAreVerified : Prop :=
  ∀ (P : List Byte) (cs : U16) (s t : State),
    s.link = .device .write → exec (.memdata P cs) s = .next t →
    t.txq = s.txq ++ encodeFrame s.cfg 0x11 [] ∨ t.txq = s.txq ++ encodeFrame s.cfg 0x12 [] →
    ∃ w : State, memWrite s.xferCnt.toNat P s = (true, w) ∧ (memRead s.xferCnt.toNat P.length w).1 = some P

/-- If a step emits EV_MEM_RECEIVED, the instance is a HOST that was awaiting a block, the image has exactly memsize(memtype) bytes, and the bytes received before the step together with the block just received reach that size. (R242, R176) -/
def Obligations.ImagesReachTheApplicationWhole : Prop :=
  ∀ (s s' : State) (evs : List AppEvent) (img : List Byte),
    step s = .next s' → s'.appEv = s.appEv ++ evs → .memReceived img ∈ evs →
    s.link = .host .waitReadmemData ∧ img.length = memsize s.memtype ∧
      memsize s.memtype ≤ s.xferCnt.toNat + s.dec.rxLen.toNat

/-- For every instruction that answers a next state: the parameters, the pending events, wire_out, the received frame registers rx_cmd, rx_buf and rx_csum and flt_tx_len are unchanged and last_rx_cmd is the command; a HOST's backend is unchanged; a DEVICE's xfer_buf, app_ev, link_en, cur_op and pend_op are unchanged; and every command but MEMDATA leaves every byte of xfer_buf and every byte of an ideal backend as it was. (R20, R33, R44, R63, R64, R242) -/
def Obligations.CommandsKeepWhatTheyDoNotWrite : Prop :=
  ∀ (i : Instr) (s t : State), exec i s = .next t →
    (t.cfg = s.cfg ∧ t.events = s.events ∧ t.resets = s.resets ∧ t.wireOut = s.wireOut ∧ t.fltTxLen = s.fltTxLen ∧
      t.dec.rxCmd = s.dec.rxCmd ∧ t.dec.rxBuf = s.dec.rxBuf ∧ t.dec.rxCsum = s.dec.rxCsum ∧ t.lastRxCmd = i.opcode) ∧
    (∀ h, s.link = .host h → t.backend = s.backend) ∧
    (∀ d, s.link = .device d →
      t.xferBuf = s.xferBuf ∧ t.appEv = s.appEv ∧ t.linkEn = s.linkEn ∧ t.curOp = s.curOp ∧ t.pendOp = s.pendOp) ∧
    (i.opcode ≠ 0x70 →
      (∀ a, t.xferBuf.readByte (Config.xferBufByte t.resets) a = s.xferBuf.readByte (Config.xferBufByte s.resets) a) ∧
      ∀ cells, s.backend = .ideal cells → ∃ cells', t.backend = .ideal cells' ∧
        ∀ a, cells'.readByte Config.backendCell a = cells.readByte Config.backendCell a)

/-- For every configuration of this hardware and either role, the state right after reset meets the invariant. (R50, R51, R300) -/
def Obligations.ResetStatesMeetTheInvariant : Prop :=
  ∀ (c : Cfg) (r : Role), c.wf → (State.resetOf c r).Inv

/-- From every state that meets the invariant (the decoder's counters and written bytes, the canonical buffers, xfer_cnt a multiple of 256 inside the memory, and for each link state the values of memtype, link_en, connected, cur_op, pend_op, the timer and the transfer counters), a step that answers a next state gives a state that meets it. (R51, R27, R44) -/
def Obligations.StepsKeepTheInvariant : Prop :=
  ∀ s s' : State, s.Inv → step s = .next s' → s'.Inv

/-- In a state that meets the invariant, whatever event comes next, the step answers a next state: the machine never faults and never refuses. (R142, R135, R51) -/
def Obligations.GoodStatesNeverStop : Prop :=
  ∀ s : State, s.Inv → ∃ s', step s = .next s'

/-- In a state that meets the invariant: in ReadData rx_cnt is at most rx_len and rx_len at most 256, in ReadChecksum rx_cnt is at most 1; xfer_cnt is a multiple of 256 and at most memsize(memtype); cur_op is OP_NONE, the timer disarmed and memtype MT_NONE in the link states that R51 names; and memdata_len is 256. (R51, R100) -/
def Obligations.InvariantGivesTheBoundsOfR51 : Prop :=
  ∀ s : State, s.Inv →
    (s.dec.rxState = .readData → s.dec.rxCnt.toNat ≤ s.dec.rxLen.toNat ∧ s.dec.rxLen.toNat ≤ 256) ∧
    (s.dec.rxState = .readChecksum → s.dec.rxCnt.toNat ≤ 1) ∧
    s.xferCnt.toNat ≤ memsize s.memtype ∧ s.xferCnt.toNat % 256 = 0 ∧ memdataLen s.decCtx = 256 ∧
    (∀ h, s.link = .host h → h ∈ ([.disconnected, .init, .memid, .idle, .halted] : List HostState) →
      s.curOp = none) ∧
    (s.link ∈ ([.host .disconnected, .host .idle, .host .halted, .device .disconnected, .device .idle] :
      List LinkState) → s.timerArmed = false) ∧
    (s.link ∈ ([.host .disconnected, .host .init, .host .memid, .host .halted, .device .disconnected,
      .device .waitMemid] : List LinkState) → s.memtype = 0x00)

/-- Arbitration of a list of events pending at once only reorders it, and puts rx_byte before timer_fired, live_tick, req_disconnect, req_connect and req in this order (R276). That reset stands first, tx_byte last and each kind in the order of the list is the model's choice (log entry 12). (R276) -/
def Obligations.SimultaneousEventsAreServedInOrder : Prop :=
  ∀ es : List Event,
    (arbitrate es).Perm es ∧ (arbitrate es).Pairwise (fun a b => a.rank ≤ b.rank) ∧
    (∀ k, (arbitrate es).filter (fun e => e.rank == k) = es.filter (fun e => e.rank == k)) ∧
    ∀ (b : Byte) (r : Request),
      (Event.rxByte b).rank < Event.timerFired.rank ∧ Event.timerFired.rank < Event.liveTick.rank ∧
      Event.liveTick.rank < Event.reqDisconnect.rank ∧ Event.reqDisconnect.rank < Event.reqConnect.rank ∧
      Event.reqConnect.rank < (Event.req r).rank

/-- R172 derives that every handler calls SEND at most once: no step would add more than one frame, of a known command with the payload length of the table, to what is handed over and queued. The detailed rules contradict it: the last block of a read with a request deferred sends TXRX_DONE and, through the return to idle, the deferred request's frame in the same step (log entry 10). Stated as R172 has it, this is false of the model; what is true of it stands in FramesLeaveWholeAndInOrder. (R172, R242, R180, R184) -/
def Obligations.EveryStepSendsAtMostOneFrame : Prop :=
  ∀ s s' : State, step s = .next s' → s.events.head? ≠ some .reset →
    s'.wireOut ++ s'.txq = s.wireOut ++ s.txq ∨
    ∃ f : Byte × List Byte,
      ofTable s s' f ∧ s'.wireOut ++ s'.txq = s.wireOut ++ s.txq ++ encodeFrame s.cfg f.1 f.2
end

