-- ==== Sys2Proof/Laws/Memory.lean ====
section
/-! SUPPORT. The laws of a buffer: reading after a write, and the canonical form that every operation keeps. -/

namespace Sys2Proof.Machine

theorem Memory.lookup_nil (a : Nat) : Memory.lookup [] a = none := rfl

theorem Memory.lookup_cons (c : Host.Cell) (m : Memory) (a : Nat) :
    Memory.lookup (c :: m) a = if c.1 = a then some c.2 else Memory.lookup m a := by
  by_cases h : c.1 = a
  · simp [Memory.lookup, h]
  · cases hb : c.1.beq a with
    | true => exact absurd (Nat.eq_of_beq_eq_true hb) h
    | false => simp [Memory.lookup, h, hb]

theorem Memory.lookup_append (m n : Memory) (a : Nat) :
    Memory.lookup (m ++ n) a = (Memory.lookup m a).or (Memory.lookup n a) := by
  induction m with
  | nil => simp [Memory.lookup_nil]
  | cons c m ih =>
    simp only [List.cons_append, Memory.lookup_cons, ih]
    split <;> simp

/-- A predicate on indices decides whether a cell survives a filter. -/
theorem Memory.lookup_filter (p : Nat → Bool) (m : Memory) (a : Nat) :
    Memory.lookup (m.filter (fun c => p c.1)) a = if p a then Memory.lookup m a else none := by
  induction m with
  | nil => simp [Memory.lookup_nil]
  | cons c m ih =>
    rcases c with ⟨k, v⟩
    by_cases hp : p k = true
    · simp only [List.filter_cons_of_pos (p := fun c : Host.Cell => p c.1) (a := (k, v)) hp, Memory.lookup_cons, ih]
      by_cases hk : k = a
      · subst hk; simp [hp]
      · simp [hk]
    · simp only [List.filter_cons_of_neg (p := fun c : Host.Cell => p c.1) (a := (k, v)) hp, Memory.lookup_cons, ih]
      by_cases hk : k = a
      · subst hk; simp [hp]
      · simp [hk]

theorem Memory.lookup_cellsAt (bs : List Byte) : ∀ a j : Nat,
    Memory.lookup (Memory.cellsAt a bs) j = if a ≤ j then bs[j - a]? else none := by
  induction bs with
  | nil => intro a j; simp [Memory.cellsAt, Memory.lookup_nil]
  | cons b bs ih =>
    intro a j
    simp only [Memory.cellsAt, Memory.lookup_cons, ih]
    by_cases h : a = j
    · subst h; simp
    · by_cases h2 : a ≤ j
      · have h3 : a + 1 ≤ j := by omega
        obtain ⟨k, hk⟩ : ∃ k, j - a = k + 1 := ⟨j - a - 1, by omega⟩
        have h4 : j - (a + 1) = k := by omega
        simp [h, h2, h3, hk, h4]
      · have h3 : ¬ a + 1 ≤ j := by omega
        simp [h, h2, h3]

/-- Read after write (R11): inside the written run the new byte, outside it the old cell. -/
theorem Memory.lookup_writeBytes (m : Memory) (a : Nat) (bs : List Byte) (j : Nat) :
    (m.writeBytes a bs).lookup j =
      if a ≤ j ∧ j < a + bs.length then bs[j - a]? else m.lookup j := by
  have key : ∀ r : Memory, Memory.lookup (Memory.cellsAt a bs ++
      r.filter (fun d => d.1.blt a || (a + bs.length).ble d.1)) j =
      if a ≤ j ∧ j < a + bs.length then bs[j - a]? else r.lookup j := by
    intro r
    rw [Memory.lookup_append, Memory.lookup_cellsAt,
      Memory.lookup_filter (fun k => k.blt a || (a + bs.length).ble k)]
    by_cases h1 : a ≤ j
    · by_cases h2 : j < a + bs.length
      · have h3 : j - a < bs.length := by omega
        simp [h1, h2, h3]
      · have h3 : bs[j - a]? = none := by simp; omega
        have h4 : (a + bs.length).ble j = true := by simp; omega
        simp [h1, h2, h3, h4]
    · have h4 : j.blt a = true := by simp [Nat.blt_eq]; omega
      simp [h1, h4]
  induction m with
  | nil => simpa [Memory.writeBytes, Memory.lookup_nil] using key []
  | cons c m ih =>
    unfold Memory.writeBytes
    by_cases hc : c.1.blt a = true
    · rw [hc, cond_true, Memory.lookup_cons, Memory.lookup_cons, ih]
      have hlt : c.1 < a := by simpa [Nat.blt_eq] using hc
      by_cases hk : c.1 = j
      · have : ¬ a ≤ j := by omega
        simp [hk, this]
      · simp [hk]
    · rw [Bool.not_eq_true] at hc
      rw [hc, cond_false]
      exact key (c :: m)

/-- Reading one byte after a write, for any reading of unlisted indices. -/
theorem Memory.readByte_writeBytes (free : Nat → Byte) (m : Memory) (a : Nat) (bs : List Byte) (j : Nat) :
    (m.writeBytes a bs).readByte free j =
      if a ≤ j ∧ j < a + bs.length then bs.getD (j - a) 0 else m.readByte free j := by
  unfold Memory.readByte
  rw [Memory.lookup_writeBytes]
  split
  · next h =>
    have : j - a < bs.length := by omega
    simp [List.getD, this]
  · rfl

theorem Memory.mem_cellsAt (bs : List Byte) : ∀ (a : Nat) (c : Host.Cell),
    c ∈ Memory.cellsAt a bs → a ≤ c.1 ∧ c.1 < a + bs.length := by
  induction bs with
  | nil => intro a c h; simp [Memory.cellsAt] at h
  | cons b bs ih =>
    intro a c h
    rcases List.mem_cons.mp h with rfl | h
    · simp
    · have := ih (a + 1) c h
      simp only [List.length_cons]; omega

theorem Memory.cellsAt_wf (bs : List Byte) : ∀ a : Nat, Memory.wf (Memory.cellsAt a bs) := by
  induction bs with
  | nil => intro a; exact List.Pairwise.nil
  | cons b bs ih =>
    intro a
    refine List.Pairwise.cons ?_ (ih (a + 1))
    intro c hc
    have := Memory.mem_cellsAt bs (a + 1) c hc
    show a < c.1
    omega

theorem Memory.mem_writeBytes (m : Memory) (a : Nat) (bs : List Byte) (c : Host.Cell)
    (h : c ∈ m.writeBytes a bs) : c ∈ m ∨ (a ≤ c.1 ∧ c.1 < a + bs.length) := by
  induction m with
  | nil => exact .inr (Memory.mem_cellsAt bs a c h)
  | cons d m ih =>
    unfold Memory.writeBytes at h
    cases hd : d.1.blt a with
    | true =>
      rw [hd, cond_true] at h
      rcases List.mem_cons.mp h with rfl | h
      · simp
      · rcases ih h with h | h
        · exact .inl (List.mem_cons_of_mem _ h)
        · exact .inr h
    | false =>
      rw [hd, cond_false] at h
      rcases List.mem_append.mp h with h | h
      · exact .inr (Memory.mem_cellsAt bs a c h)
      · exact .inl (List.mem_of_mem_filter h)

/-- A write keeps the canonical form. -/
theorem Memory.writeBytes_wf (m : Memory) (a : Nat) (bs : List Byte) (h : m.wf) : (m.writeBytes a bs).wf := by
  induction m with
  | nil => exact Memory.cellsAt_wf bs a
  | cons d m ih =>
    have hd := List.pairwise_cons.mp h
    unfold Memory.writeBytes
    cases hb : d.1.blt a with
    | true =>
      rw [cond_true]
      have hlt : d.1 < a := by simpa [Nat.blt_eq] using hb
      refine List.Pairwise.cons ?_ (ih hd.2)
      intro c hc
      rcases Memory.mem_writeBytes m a bs c hc with hc | hc
      · exact hd.1 c hc
      · omega
    | false =>
      rw [cond_false]
      have hge : a ≤ d.1 := by
        by_contra hn
        have hb2 : d.1.blt a = true := by simp [Nat.blt_eq]; omega
        simp [hb2] at hb
      have hall : ∀ c ∈ d :: m, a ≤ c.1 := by
        intro c hc
        rcases List.mem_cons.mp hc with rfl | hc
        · exact hge
        · exact le_trans hge (le_of_lt (hd.1 c hc))
      refine List.pairwise_append.mpr ⟨Memory.cellsAt_wf bs a, List.Pairwise.filter _ h, ?_⟩
      intro x hx y hy
      have hx' := Memory.mem_cellsAt bs a x hx
      have hy' := List.mem_filter.mp hy
      have ha := hall y hy'.1
      have : y.1.blt a = false := by
        cases hyb : y.1.blt a with
        | false => rfl
        | true => rw [Nat.blt_eq] at hyb; omega
      rw [this] at hy'
      have : a + bs.length ≤ y.1 := by simpa using hy'.2
      omega

/-- A write inside an address space keeps the buffer inside it. -/
theorem Memory.writeBytes_below (m : Memory) (a : Nat) (bs : List Byte) (n : Nat) (h : m.below n)
    (hn : a + bs.length ≤ n) : (m.writeBytes a bs).below n := by
  intro c hc
  rcases Memory.mem_writeBytes m a bs c hc with hc | hc
  · exact h c hc
  · omega

/-- A write forgets no index: what was written stays written. -/
theorem Memory.writeBytes_written (m : Memory) (a : Nat) (bs : List Byte) (j : Nat)
    (h : (m.lookup j).isSome) : ((m.writeBytes a bs).lookup j).isSome := by
  rw [Memory.lookup_writeBytes]
  split
  · next hj =>
    have : j - a < bs.length := by omega
    simp [this]
  · exact h

theorem Memory.lookup_without (m : Memory) (a j : Nat) (h : a ≠ j) : (m.without a).lookup j = m.lookup j := by
  induction m with
  | nil => rfl
  | cons c m ih =>
    unfold Memory.without
    cases hc : c.1.beq a with
    | true =>
      rw [cond_true, Memory.lookup_cons]
      have : c.1 = a := Nat.eq_of_beq_eq_true hc
      simp [this, h]
    | false => rw [cond_false, Memory.lookup_cons, Memory.lookup_cons, ih]

theorem Memory.readBytes_congr (free : Nat → Byte) (m m' : Memory) (n : Nat) : ∀ a : Nat,
    (∀ j, a ≤ j → m.lookup j = m'.lookup j) → m.readBytes free a n = (List.range' a n).map (m'.readByte free) := by
  induction n generalizing m with
  | zero => intro a _; rfl
  | succ n ih =>
    intro a h
    rw [Memory.readBytes, List.range'_succ, List.map_cons]
    congr 1
    · simp [Memory.readByte, h a (le_refl a)]
    · apply ih
      intro j hj
      rw [Memory.lookup_without m a j (by omega)]
      exact h j (by omega)

/-- A run of reads is one read at each index (R70). -/
theorem Memory.readBytes_eq_map (free : Nat → Byte) (m : Memory) (a n : Nat) :
    m.readBytes free a n = (List.range' a n).map (m.readByte free) :=
  Memory.readBytes_congr free m m n a (fun _ _ => rfl)

@[simp] theorem Memory.readBytes_length (free : Nat → Byte) (m : Memory) (a n : Nat) :
    (m.readBytes free a n).length = n := by
  simp [Memory.readBytes_eq_map]

/-- Reading back a block just written gives the block (R68). -/
theorem Memory.readBytes_writeBytes (free : Nat → Byte) (m : Memory) (a : Nat) (bs : List Byte) :
    (m.writeBytes a bs).readBytes free a bs.length = bs := by
  rw [Memory.readBytes_eq_map]
  apply List.ext_getElem
  · simp
  · intro i h1 h2
    simp only [List.getElem_map, List.getElem_range', Memory.readByte_writeBytes]
    have : a ≤ a + 1 * i ∧ a + 1 * i < a + bs.length := by omega
    have h3 : a + 1 * i - a = i := by omega
    rw [if_pos this, h3]
    simp [List.getD, h2]

end Sys2Proof.Machine
end

