-- ==== Sys2Proof/Laws/State.lean ====
section
/-! SUPPORT. One lemma per field per named update of the state: what each of the small operations leaves in each field. The unconditional ones hold by rfl. -/

namespace Sys2Proof.Machine


/-! `setFltTxLen` -/

@[simp] theorem setFltTxLen_cfg (s : State) : (setFltTxLen s).cfg = s.cfg := rfl
@[simp] theorem setFltTxLen_dec (s : State) : (setFltTxLen s).dec = s.dec := rfl
@[simp] theorem setFltTxLen_txq (s : State) : (setFltTxLen s).txq = s.txq := rfl
@[simp] theorem setFltTxLen_link (s : State) : (setFltTxLen s).link = s.link := rfl
@[simp] theorem setFltTxLen_linkEn (s : State) : (setFltTxLen s).linkEn = s.linkEn := rfl
@[simp] theorem setFltTxLen_connected (s : State) : (setFltTxLen s).connected = s.connected := rfl
@[simp] theorem setFltTxLen_memtype (s : State) : (setFltTxLen s).memtype = s.memtype := rfl
@[simp] theorem setFltTxLen_curOp (s : State) : (setFltTxLen s).curOp = s.curOp := rfl
@[simp] theorem setFltTxLen_pendOp (s : State) : (setFltTxLen s).pendOp = s.pendOp := rfl
@[simp] theorem setFltTxLen_xferCnt (s : State) : (setFltTxLen s).xferCnt = s.xferCnt := rfl
@[simp] theorem setFltTxLen_blkLen (s : State) : (setFltTxLen s).blkLen = s.blkLen := rfl
@[simp] theorem setFltTxLen_retryCnt (s : State) : (setFltTxLen s).retryCnt = s.retryCnt := rfl
@[simp] theorem setFltTxLen_lastTxCmd (s : State) : (setFltTxLen s).lastTxCmd = s.lastTxCmd := rfl
@[simp] theorem setFltTxLen_lastRxCmd (s : State) : (setFltTxLen s).lastRxCmd = s.lastRxCmd := rfl
@[simp] theorem setFltTxLen_timerArmed (s : State) : (setFltTxLen s).timerArmed = s.timerArmed := rfl
@[simp] theorem setFltTxLen_timerMs (s : State) : (setFltTxLen s).timerMs = s.timerMs := rfl
@[simp] theorem setFltTxLen_xferBuf (s : State) : (setFltTxLen s).xferBuf = s.xferBuf := rfl
@[simp] theorem setFltTxLen_fltTxLen (s : State) : (setFltTxLen s).fltTxLen = true := rfl
@[simp] theorem setFltTxLen_fltTxq (s : State) : (setFltTxLen s).fltTxq = s.fltTxq := rfl
@[simp] theorem setFltTxLen_wireOut (s : State) : (setFltTxLen s).wireOut = s.wireOut := rfl
@[simp] theorem setFltTxLen_appEv (s : State) : (setFltTxLen s).appEv = s.appEv := rfl
@[simp] theorem setFltTxLen_timerCmd (s : State) : (setFltTxLen s).timerCmd = s.timerCmd := rfl
@[simp] theorem setFltTxLen_events (s : State) : (setFltTxLen s).events = s.events := rfl
@[simp] theorem setFltTxLen_backend (s : State) : (setFltTxLen s).backend = s.backend := rfl
@[simp] theorem setFltTxLen_resets (s : State) : (setFltTxLen s).resets = s.resets := rfl


/-! `setFltTxq` -/

@[simp] theorem setFltTxq_cfg (s : State) : (setFltTxq s).cfg = s.cfg := rfl
@[simp] theorem setFltTxq_dec (s : State) : (setFltTxq s).dec = s.dec := rfl
@[simp] theorem setFltTxq_txq (s : State) : (setFltTxq s).txq = s.txq := rfl
@[simp] theorem setFltTxq_link (s : State) : (setFltTxq s).link = s.link := rfl
@[simp] theorem setFltTxq_linkEn (s : State) : (setFltTxq s).linkEn = s.linkEn := rfl
@[simp] theorem setFltTxq_connected (s : State) : (setFltTxq s).connected = s.connected := rfl
@[simp] theorem setFltTxq_memtype (s : State) : (setFltTxq s).memtype = s.memtype := rfl
@[simp] theorem setFltTxq_curOp (s : State) : (setFltTxq s).curOp = s.curOp := rfl
@[simp] theorem setFltTxq_pendOp (s : State) : (setFltTxq s).pendOp = s.pendOp := rfl
@[simp] theorem setFltTxq_xferCnt (s : State) : (setFltTxq s).xferCnt = s.xferCnt := rfl
@[simp] theorem setFltTxq_blkLen (s : State) : (setFltTxq s).blkLen = s.blkLen := rfl
@[simp] theorem setFltTxq_retryCnt (s : State) : (setFltTxq s).retryCnt = s.retryCnt := rfl
@[simp] theorem setFltTxq_lastTxCmd (s : State) : (setFltTxq s).lastTxCmd = s.lastTxCmd := rfl
@[simp] theorem setFltTxq_lastRxCmd (s : State) : (setFltTxq s).lastRxCmd = s.lastRxCmd := rfl
@[simp] theorem setFltTxq_timerArmed (s : State) : (setFltTxq s).timerArmed = s.timerArmed := rfl
@[simp] theorem setFltTxq_timerMs (s : State) : (setFltTxq s).timerMs = s.timerMs := rfl
@[simp] theorem setFltTxq_xferBuf (s : State) : (setFltTxq s).xferBuf = s.xferBuf := rfl
@[simp] theorem setFltTxq_fltTxLen (s : State) : (setFltTxq s).fltTxLen = s.fltTxLen := rfl
@[simp] theorem setFltTxq_fltTxq (s : State) : (setFltTxq s).fltTxq = true := rfl
@[simp] theorem setFltTxq_wireOut (s : State) : (setFltTxq s).wireOut = s.wireOut := rfl
@[simp] theorem setFltTxq_appEv (s : State) : (setFltTxq s).appEv = s.appEv := rfl
@[simp] theorem setFltTxq_timerCmd (s : State) : (setFltTxq s).timerCmd = s.timerCmd := rfl
@[simp] theorem setFltTxq_events (s : State) : (setFltTxq s).events = s.events := rfl
@[simp] theorem setFltTxq_backend (s : State) : (setFltTxq s).backend = s.backend := rfl
@[simp] theorem setFltTxq_resets (s : State) : (setFltTxq s).resets = s.resets := rfl


/-! `disarm` -/

@[simp] theorem disarm_cfg (s : State) : (disarm s).cfg = s.cfg := rfl
@[simp] theorem disarm_dec (s : State) : (disarm s).dec = s.dec := rfl
@[simp] theorem disarm_txq (s : State) : (disarm s).txq = s.txq := rfl
@[simp] theorem disarm_link (s : State) : (disarm s).link = s.link := rfl
@[simp] theorem disarm_linkEn (s : State) : (disarm s).linkEn = s.linkEn := rfl
@[simp] theorem disarm_connected (s : State) : (disarm s).connected = s.connected := rfl
@[simp] theorem disarm_memtype (s : State) : (disarm s).memtype = s.memtype := rfl
@[simp] theorem disarm_curOp (s : State) : (disarm s).curOp = s.curOp := rfl
@[simp] theorem disarm_pendOp (s : State) : (disarm s).pendOp = s.pendOp := rfl
@[simp] theorem disarm_xferCnt (s : State) : (disarm s).xferCnt = s.xferCnt := rfl
@[simp] theorem disarm_blkLen (s : State) : (disarm s).blkLen = s.blkLen := rfl
@[simp] theorem disarm_retryCnt (s : State) : (disarm s).retryCnt = s.retryCnt := rfl
@[simp] theorem disarm_lastTxCmd (s : State) : (disarm s).lastTxCmd = s.lastTxCmd := rfl
@[simp] theorem disarm_lastRxCmd (s : State) : (disarm s).lastRxCmd = s.lastRxCmd := rfl
@[simp] theorem disarm_timerArmed (s : State) : (disarm s).timerArmed = false := rfl
@[simp] theorem disarm_timerMs (s : State) : (disarm s).timerMs = s.timerMs := rfl
@[simp] theorem disarm_xferBuf (s : State) : (disarm s).xferBuf = s.xferBuf := rfl
@[simp] theorem disarm_fltTxLen (s : State) : (disarm s).fltTxLen = s.fltTxLen := rfl
@[simp] theorem disarm_fltTxq (s : State) : (disarm s).fltTxq = s.fltTxq := rfl
@[simp] theorem disarm_wireOut (s : State) : (disarm s).wireOut = s.wireOut := rfl
@[simp] theorem disarm_appEv (s : State) : (disarm s).appEv = s.appEv := rfl
@[simp] theorem disarm_timerCmd (s : State) : (disarm s).timerCmd = s.timerCmd := rfl
@[simp] theorem disarm_events (s : State) : (disarm s).events = s.events := rfl
@[simp] theorem disarm_backend (s : State) : (disarm s).backend = s.backend := rfl
@[simp] theorem disarm_resets (s : State) : (disarm s).resets = s.resets := rfl


/-! `arm` -/

@[simp] theorem arm_cfg (ms : U16) (s : State) : (arm ms s).cfg = s.cfg := rfl
@[simp] theorem arm_dec (ms : U16) (s : State) : (arm ms s).dec = s.dec := rfl
@[simp] theorem arm_txq (ms : U16) (s : State) : (arm ms s).txq = s.txq := rfl
@[simp] theorem arm_link (ms : U16) (s : State) : (arm ms s).link = s.link := rfl
@[simp] theorem arm_linkEn (ms : U16) (s : State) : (arm ms s).linkEn = s.linkEn := rfl
@[simp] theorem arm_connected (ms : U16) (s : State) : (arm ms s).connected = s.connected := rfl
@[simp] theorem arm_memtype (ms : U16) (s : State) : (arm ms s).memtype = s.memtype := rfl
@[simp] theorem arm_curOp (ms : U16) (s : State) : (arm ms s).curOp = s.curOp := rfl
@[simp] theorem arm_pendOp (ms : U16) (s : State) : (arm ms s).pendOp = s.pendOp := rfl
@[simp] theorem arm_xferCnt (ms : U16) (s : State) : (arm ms s).xferCnt = s.xferCnt := rfl
@[simp] theorem arm_blkLen (ms : U16) (s : State) : (arm ms s).blkLen = s.blkLen := rfl
@[simp] theorem arm_retryCnt (ms : U16) (s : State) : (arm ms s).retryCnt = s.retryCnt := rfl
@[simp] theorem arm_lastTxCmd (ms : U16) (s : State) : (arm ms s).lastTxCmd = s.lastTxCmd := rfl
@[simp] theorem arm_lastRxCmd (ms : U16) (s : State) : (arm ms s).lastRxCmd = s.lastRxCmd := rfl
@[simp] theorem arm_timerArmed (ms : U16) (s : State) : (arm ms s).timerArmed = true := rfl
@[simp] theorem arm_timerMs (ms : U16) (s : State) : (arm ms s).timerMs = ms := rfl
@[simp] theorem arm_xferBuf (ms : U16) (s : State) : (arm ms s).xferBuf = s.xferBuf := rfl
@[simp] theorem arm_fltTxLen (ms : U16) (s : State) : (arm ms s).fltTxLen = s.fltTxLen := rfl
@[simp] theorem arm_fltTxq (ms : U16) (s : State) : (arm ms s).fltTxq = s.fltTxq := rfl
@[simp] theorem arm_wireOut (ms : U16) (s : State) : (arm ms s).wireOut = s.wireOut := rfl
@[simp] theorem arm_appEv (ms : U16) (s : State) : (arm ms s).appEv = s.appEv := rfl
@[simp] theorem arm_timerCmd (ms : U16) (s : State) : (arm ms s).timerCmd = s.timerCmd ++ [.arm ms] := rfl
@[simp] theorem arm_events (ms : U16) (s : State) : (arm ms s).events = s.events := rfl
@[simp] theorem arm_backend (ms : U16) (s : State) : (arm ms s).backend = s.backend := rfl
@[simp] theorem arm_resets (ms : U16) (s : State) : (arm ms s).resets = s.resets := rfl


/-! `emit` -/

@[simp] theorem emit_cfg (ev : AppEvent) (s : State) : (emit ev s).cfg = s.cfg := rfl
@[simp] theorem emit_dec (ev : AppEvent) (s : State) : (emit ev s).dec = s.dec := rfl
@[simp] theorem emit_txq (ev : AppEvent) (s : State) : (emit ev s).txq = s.txq := rfl
@[simp] theorem emit_link (ev : AppEvent) (s : State) : (emit ev s).link = s.link := rfl
@[simp] theorem emit_linkEn (ev : AppEvent) (s : State) : (emit ev s).linkEn = s.linkEn := rfl
@[simp] theorem emit_connected (ev : AppEvent) (s : State) : (emit ev s).connected = s.connected := rfl
@[simp] theorem emit_memtype (ev : AppEvent) (s : State) : (emit ev s).memtype = s.memtype := rfl
@[simp] theorem emit_curOp (ev : AppEvent) (s : State) : (emit ev s).curOp = s.curOp := rfl
@[simp] theorem emit_pendOp (ev : AppEvent) (s : State) : (emit ev s).pendOp = s.pendOp := rfl
@[simp] theorem emit_xferCnt (ev : AppEvent) (s : State) : (emit ev s).xferCnt = s.xferCnt := rfl
@[simp] theorem emit_blkLen (ev : AppEvent) (s : State) : (emit ev s).blkLen = s.blkLen := rfl
@[simp] theorem emit_retryCnt (ev : AppEvent) (s : State) : (emit ev s).retryCnt = s.retryCnt := rfl
@[simp] theorem emit_lastTxCmd (ev : AppEvent) (s : State) : (emit ev s).lastTxCmd = s.lastTxCmd := rfl
@[simp] theorem emit_lastRxCmd (ev : AppEvent) (s : State) : (emit ev s).lastRxCmd = s.lastRxCmd := rfl
@[simp] theorem emit_timerArmed (ev : AppEvent) (s : State) : (emit ev s).timerArmed = s.timerArmed := rfl
@[simp] theorem emit_timerMs (ev : AppEvent) (s : State) : (emit ev s).timerMs = s.timerMs := rfl
@[simp] theorem emit_xferBuf (ev : AppEvent) (s : State) : (emit ev s).xferBuf = s.xferBuf := rfl
@[simp] theorem emit_fltTxLen (ev : AppEvent) (s : State) : (emit ev s).fltTxLen = s.fltTxLen := rfl
@[simp] theorem emit_fltTxq (ev : AppEvent) (s : State) : (emit ev s).fltTxq = s.fltTxq := rfl
@[simp] theorem emit_wireOut (ev : AppEvent) (s : State) : (emit ev s).wireOut = s.wireOut := rfl
@[simp] theorem emit_appEv (ev : AppEvent) (s : State) : (emit ev s).appEv = s.appEv ++ [ev] := rfl
@[simp] theorem emit_timerCmd (ev : AppEvent) (s : State) : (emit ev s).timerCmd = s.timerCmd := rfl
@[simp] theorem emit_events (ev : AppEvent) (s : State) : (emit ev s).events = s.events := rfl
@[simp] theorem emit_backend (ev : AppEvent) (s : State) : (emit ev s).backend = s.backend := rfl
@[simp] theorem emit_resets (ev : AppEvent) (s : State) : (emit ev s).resets = s.resets := rfl


/-! `xferWrite` -/

@[simp] theorem xferWrite_cfg (a : Nat) (bs : List Byte) (s : State) : (xferWrite a bs s).cfg = s.cfg := rfl
@[simp] theorem xferWrite_dec (a : Nat) (bs : List Byte) (s : State) : (xferWrite a bs s).dec = s.dec := rfl
@[simp] theorem xferWrite_txq (a : Nat) (bs : List Byte) (s : State) : (xferWrite a bs s).txq = s.txq := rfl
@[simp] theorem xferWrite_link (a : Nat) (bs : List Byte) (s : State) : (xferWrite a bs s).link = s.link := rfl
@[simp] theorem xferWrite_linkEn (a : Nat) (bs : List Byte) (s : State) : (xferWrite a bs s).linkEn = s.linkEn := rfl
@[simp] theorem xferWrite_connected (a : Nat) (bs : List Byte) (s : State) : (xferWrite a bs s).connected = s.connected := rfl
@[simp] theorem xferWrite_memtype (a : Nat) (bs : List Byte) (s : State) : (xferWrite a bs s).memtype = s.memtype := rfl
@[simp] theorem xferWrite_curOp (a : Nat) (bs : List Byte) (s : State) : (xferWrite a bs s).curOp = s.curOp := rfl
@[simp] theorem xferWrite_pendOp (a : Nat) (bs : List Byte) (s : State) : (xferWrite a bs s).pendOp = s.pendOp := rfl
@[simp] theorem xferWrite_xferCnt (a : Nat) (bs : List Byte) (s : State) : (xferWrite a bs s).xferCnt = s.xferCnt := rfl
@[simp] theorem xferWrite_blkLen (a : Nat) (bs : List Byte) (s : State) : (xferWrite a bs s).blkLen = s.blkLen := rfl
@[simp] theorem xferWrite_retryCnt (a : Nat) (bs : List Byte) (s : State) : (xferWrite a bs s).retryCnt = s.retryCnt := rfl
@[simp] theorem xferWrite_lastTxCmd (a : Nat) (bs : List Byte) (s : State) : (xferWrite a bs s).lastTxCmd = s.lastTxCmd := rfl
@[simp] theorem xferWrite_lastRxCmd (a : Nat) (bs : List Byte) (s : State) : (xferWrite a bs s).lastRxCmd = s.lastRxCmd := rfl
@[simp] theorem xferWrite_timerArmed (a : Nat) (bs : List Byte) (s : State) : (xferWrite a bs s).timerArmed = s.timerArmed := rfl
@[simp] theorem xferWrite_timerMs (a : Nat) (bs : List Byte) (s : State) : (xferWrite a bs s).timerMs = s.timerMs := rfl
@[simp] theorem xferWrite_xferBuf (a : Nat) (bs : List Byte) (s : State) : (xferWrite a bs s).xferBuf = s.xferBuf.writeBytes a bs := rfl
@[simp] theorem xferWrite_fltTxLen (a : Nat) (bs : List Byte) (s : State) : (xferWrite a bs s).fltTxLen = s.fltTxLen := rfl
@[simp] theorem xferWrite_fltTxq (a : Nat) (bs : List Byte) (s : State) : (xferWrite a bs s).fltTxq = s.fltTxq := rfl
@[simp] theorem xferWrite_wireOut (a : Nat) (bs : List Byte) (s : State) : (xferWrite a bs s).wireOut = s.wireOut := rfl
@[simp] theorem xferWrite_appEv (a : Nat) (bs : List Byte) (s : State) : (xferWrite a bs s).appEv = s.appEv := rfl
@[simp] theorem xferWrite_timerCmd (a : Nat) (bs : List Byte) (s : State) : (xferWrite a bs s).timerCmd = s.timerCmd := rfl
@[simp] theorem xferWrite_events (a : Nat) (bs : List Byte) (s : State) : (xferWrite a bs s).events = s.events := rfl
@[simp] theorem xferWrite_backend (a : Nat) (bs : List Byte) (s : State) : (xferWrite a bs s).backend = s.backend := rfl
@[simp] theorem xferWrite_resets (a : Nat) (bs : List Byte) (s : State) : (xferWrite a bs s).resets = s.resets := rfl


/-! `clearBuffers` -/

@[simp] theorem clearBuffers_cfg (s : State) : (clearBuffers s).cfg = s.cfg := rfl
@[simp] theorem clearBuffers_txq (s : State) : (clearBuffers s).txq = s.txq := rfl
@[simp] theorem clearBuffers_link (s : State) : (clearBuffers s).link = s.link := rfl
@[simp] theorem clearBuffers_linkEn (s : State) : (clearBuffers s).linkEn = s.linkEn := rfl
@[simp] theorem clearBuffers_connected (s : State) : (clearBuffers s).connected = s.connected := rfl
@[simp] theorem clearBuffers_memtype (s : State) : (clearBuffers s).memtype = s.memtype := rfl
@[simp] theorem clearBuffers_curOp (s : State) : (clearBuffers s).curOp = s.curOp := rfl
@[simp] theorem clearBuffers_pendOp (s : State) : (clearBuffers s).pendOp = s.pendOp := rfl
@[simp] theorem clearBuffers_xferCnt (s : State) : (clearBuffers s).xferCnt = 0 := rfl
@[simp] theorem clearBuffers_blkLen (s : State) : (clearBuffers s).blkLen = 0 := rfl
@[simp] theorem clearBuffers_retryCnt (s : State) : (clearBuffers s).retryCnt = 0 := rfl
@[simp] theorem clearBuffers_lastTxCmd (s : State) : (clearBuffers s).lastTxCmd = s.lastTxCmd := rfl
@[simp] theorem clearBuffers_lastRxCmd (s : State) : (clearBuffers s).lastRxCmd = s.lastRxCmd := rfl
@[simp] theorem clearBuffers_timerArmed (s : State) : (clearBuffers s).timerArmed = s.timerArmed := rfl
@[simp] theorem clearBuffers_timerMs (s : State) : (clearBuffers s).timerMs = s.timerMs := rfl
@[simp] theorem clearBuffers_xferBuf (s : State) : (clearBuffers s).xferBuf = s.xferBuf := rfl
@[simp] theorem clearBuffers_fltTxLen (s : State) : (clearBuffers s).fltTxLen = s.fltTxLen := rfl
@[simp] theorem clearBuffers_fltTxq (s : State) : (clearBuffers s).fltTxq = s.fltTxq := rfl
@[simp] theorem clearBuffers_wireOut (s : State) : (clearBuffers s).wireOut = s.wireOut := rfl
@[simp] theorem clearBuffers_appEv (s : State) : (clearBuffers s).appEv = s.appEv := rfl
@[simp] theorem clearBuffers_timerCmd (s : State) : (clearBuffers s).timerCmd = s.timerCmd := rfl
@[simp] theorem clearBuffers_events (s : State) : (clearBuffers s).events = s.events := rfl
@[simp] theorem clearBuffers_backend (s : State) : (clearBuffers s).backend = s.backend := rfl
@[simp] theorem clearBuffers_resets (s : State) : (clearBuffers s).resets = s.resets := rfl
@[simp] theorem clearBuffers_rxState (s : State) : (clearBuffers s).dec.rxState = .seekStart := rfl
@[simp] theorem clearBuffers_rxCmd (s : State) : (clearBuffers s).dec.rxCmd = s.dec.rxCmd := rfl
@[simp] theorem clearBuffers_rxKnown (s : State) : (clearBuffers s).dec.rxKnown = false := rfl
@[simp] theorem clearBuffers_rxLen (s : State) : (clearBuffers s).dec.rxLen = 0 := rfl
@[simp] theorem clearBuffers_rxCnt (s : State) : (clearBuffers s).dec.rxCnt = 0 := rfl
@[simp] theorem clearBuffers_rxBuf (s : State) : (clearBuffers s).dec.rxBuf = s.dec.rxBuf := rfl
@[simp] theorem clearBuffers_rxCsum (s : State) : (clearBuffers s).dec.rxCsum = s.dec.rxCsum := rfl

/-! `cancel` (R281) -/

@[simp] theorem cancel_cfg (s : State) : (cancel s).cfg = s.cfg := by unfold cancel; split <;> rfl
@[simp] theorem cancel_dec (s : State) : (cancel s).dec = s.dec := by unfold cancel; split <;> rfl
@[simp] theorem cancel_txq (s : State) : (cancel s).txq = s.txq := by unfold cancel; split <;> rfl
@[simp] theorem cancel_link (s : State) : (cancel s).link = s.link := by unfold cancel; split <;> rfl
@[simp] theorem cancel_linkEn (s : State) : (cancel s).linkEn = s.linkEn := by unfold cancel; split <;> rfl
@[simp] theorem cancel_connected (s : State) : (cancel s).connected = s.connected := by unfold cancel; split <;> rfl
@[simp] theorem cancel_memtype (s : State) : (cancel s).memtype = s.memtype := by unfold cancel; split <;> rfl
@[simp] theorem cancel_curOp (s : State) : (cancel s).curOp = s.curOp := by unfold cancel; split <;> rfl
@[simp] theorem cancel_pendOp (s : State) : (cancel s).pendOp = s.pendOp := by unfold cancel; split <;> rfl
@[simp] theorem cancel_xferCnt (s : State) : (cancel s).xferCnt = s.xferCnt := by unfold cancel; split <;> rfl
@[simp] theorem cancel_blkLen (s : State) : (cancel s).blkLen = s.blkLen := by unfold cancel; split <;> rfl
@[simp] theorem cancel_retryCnt (s : State) : (cancel s).retryCnt = s.retryCnt := by unfold cancel; split <;> rfl
@[simp] theorem cancel_lastTxCmd (s : State) : (cancel s).lastTxCmd = s.lastTxCmd := by unfold cancel; split <;> rfl
@[simp] theorem cancel_lastRxCmd (s : State) : (cancel s).lastRxCmd = s.lastRxCmd := by unfold cancel; split <;> rfl
@[simp] theorem cancel_timerArmed (s : State) : (cancel s).timerArmed = false := by
  unfold cancel; split <;> simp_all
@[simp] theorem cancel_timerMs (s : State) : (cancel s).timerMs = s.timerMs := by unfold cancel; split <;> rfl
@[simp] theorem cancel_xferBuf (s : State) : (cancel s).xferBuf = s.xferBuf := by unfold cancel; split <;> rfl
@[simp] theorem cancel_fltTxLen (s : State) : (cancel s).fltTxLen = s.fltTxLen := by unfold cancel; split <;> rfl
@[simp] theorem cancel_fltTxq (s : State) : (cancel s).fltTxq = s.fltTxq := by unfold cancel; split <;> rfl
@[simp] theorem cancel_wireOut (s : State) : (cancel s).wireOut = s.wireOut := by unfold cancel; split <;> rfl
@[simp] theorem cancel_appEv (s : State) : (cancel s).appEv = s.appEv := by unfold cancel; split <;> rfl
theorem cancel_timerCmd (s : State) :
    (cancel s).timerCmd = s.timerCmd ++ (if s.timerArmed then [.cancel] else []) := by
  unfold cancel; split <;> simp
@[simp] theorem cancel_events (s : State) : (cancel s).events = s.events := by unfold cancel; split <;> rfl
@[simp] theorem cancel_backend (s : State) : (cancel s).backend = s.backend := by unfold cancel; split <;> rfl
@[simp] theorem cancel_resets (s : State) : (cancel s).resets = s.resets := by unfold cancel; split <;> rfl

/-- `CANCEL` with no deadline outstanding does nothing (R281). -/
theorem cancel_of_disarmed (s : State) (h : s.timerArmed = false) : cancel s = s := by simp [cancel, h]

/-! `send` (R120): the fields it never writes. -/

@[simp] theorem send_cfg (c : Byte) (P : List Byte) (s : State) : (send c P s).cfg = s.cfg := by
  unfold send; split <;> [rfl; (split <;> rfl)]
@[simp] theorem send_dec (c : Byte) (P : List Byte) (s : State) : (send c P s).dec = s.dec := by
  unfold send; split <;> [rfl; (split <;> rfl)]
@[simp] theorem send_link (c : Byte) (P : List Byte) (s : State) : (send c P s).link = s.link := by
  unfold send; split <;> [rfl; (split <;> rfl)]
@[simp] theorem send_linkEn (c : Byte) (P : List Byte) (s : State) : (send c P s).linkEn = s.linkEn := by
  unfold send; split <;> [rfl; (split <;> rfl)]
@[simp] theorem send_connected (c : Byte) (P : List Byte) (s : State) : (send c P s).connected = s.connected := by
  unfold send; split <;> [rfl; (split <;> rfl)]
@[simp] theorem send_memtype (c : Byte) (P : List Byte) (s : State) : (send c P s).memtype = s.memtype := by
  unfold send; split <;> [rfl; (split <;> rfl)]
@[simp] theorem send_curOp (c : Byte) (P : List Byte) (s : State) : (send c P s).curOp = s.curOp := by
  unfold send; split <;> [rfl; (split <;> rfl)]
@[simp] theorem send_pendOp (c : Byte) (P : List Byte) (s : State) : (send c P s).pendOp = s.pendOp := by
  unfold send; split <;> [rfl; (split <;> rfl)]
@[simp] theorem send_xferCnt (c : Byte) (P : List Byte) (s : State) : (send c P s).xferCnt = s.xferCnt := by
  unfold send; split <;> [rfl; (split <;> rfl)]
@[simp] theorem send_blkLen (c : Byte) (P : List Byte) (s : State) : (send c P s).blkLen = s.blkLen := by
  unfold send; split <;> [rfl; (split <;> rfl)]
@[simp] theorem send_retryCnt (c : Byte) (P : List Byte) (s : State) : (send c P s).retryCnt = s.retryCnt := by
  unfold send; split <;> [rfl; (split <;> rfl)]
@[simp] theorem send_lastRxCmd (c : Byte) (P : List Byte) (s : State) : (send c P s).lastRxCmd = s.lastRxCmd := by
  unfold send; split <;> [rfl; (split <;> rfl)]
@[simp] theorem send_timerArmed (c : Byte) (P : List Byte) (s : State) : (send c P s).timerArmed = s.timerArmed := by
  unfold send; split <;> [rfl; (split <;> rfl)]
@[simp] theorem send_timerMs (c : Byte) (P : List Byte) (s : State) : (send c P s).timerMs = s.timerMs := by
  unfold send; split <;> [rfl; (split <;> rfl)]
@[simp] theorem send_xferBuf (c : Byte) (P : List Byte) (s : State) : (send c P s).xferBuf = s.xferBuf := by
  unfold send; split <;> [rfl; (split <;> rfl)]
@[simp] theorem send_wireOut (c : Byte) (P : List Byte) (s : State) : (send c P s).wireOut = s.wireOut := by
  unfold send; split <;> [rfl; (split <;> rfl)]
@[simp] theorem send_appEv (c : Byte) (P : List Byte) (s : State) : (send c P s).appEv = s.appEv := by
  unfold send; split <;> [rfl; (split <;> rfl)]
@[simp] theorem send_timerCmd (c : Byte) (P : List Byte) (s : State) : (send c P s).timerCmd = s.timerCmd := by
  unfold send; split <;> [rfl; (split <;> rfl)]
@[simp] theorem send_events (c : Byte) (P : List Byte) (s : State) : (send c P s).events = s.events := by
  unfold send; split <;> [rfl; (split <;> rfl)]
@[simp] theorem send_backend (c : Byte) (P : List Byte) (s : State) : (send c P s).backend = s.backend := by
  unfold send; split <;> [rfl; (split <;> rfl)]
@[simp] theorem send_resets (c : Byte) (P : List Byte) (s : State) : (send c P s).resets = s.resets := by
  unfold send; split <;> [rfl; (split <;> rfl)]

@[simp] theorem send_decCtx (c : Byte) (P : List Byte) (s : State) : (send c P s).decCtx = s.decCtx := by simp [State.decCtx]
@[simp] theorem setFltTxLen_decCtx (s : State) : (setFltTxLen s).decCtx = s.decCtx := by simp [State.decCtx]
@[simp] theorem setFltTxq_decCtx (s : State) : (setFltTxq s).decCtx = s.decCtx := by simp [State.decCtx]
@[simp] theorem disarm_decCtx (s : State) : (disarm s).decCtx = s.decCtx := by simp [State.decCtx]
@[simp] theorem arm_decCtx (ms : U16) (s : State) : (arm ms s).decCtx = s.decCtx := by simp [State.decCtx]
@[simp] theorem emit_decCtx (ev : AppEvent) (s : State) : (emit ev s).decCtx = s.decCtx := by simp [State.decCtx]
@[simp] theorem xferWrite_decCtx (a : Nat) (bs : List Byte) (s : State) : (xferWrite a bs s).decCtx = s.decCtx := by simp [State.decCtx]
@[simp] theorem cancel_decCtx (s : State) : (cancel s).decCtx = s.decCtx := by simp [State.decCtx]

end Sys2Proof.Machine
end

