-- ==== Sys2Proof/Laws/Ops.lean ====
section
/-! SUPPORT. What each shared operation can do, said once. Later proofs cite these instead of unfolding the operations. -/

namespace Sys2Proof.Machine

/-! The length table at the 18 opcodes (R98). -/

@[simp] theorem plen_none (ctx : DecCtx) : plen ctx cmdNone = 0 := (rfl)
@[simp] theorem plen_init (ctx : DecCtx) : plen ctx cmdInit = 0 := (rfl)
@[simp] theorem plen_ping (ctx : DecCtx) : plen ctx cmdPing = 0 := (rfl)
@[simp] theorem plen_memid (ctx : DecCtx) : plen ctx cmdMemid = 1 := (rfl)
@[simp] theorem plen_startxfer (ctx : DecCtx) : plen ctx cmdStartxfer = 0 := (rfl)
@[simp] theorem plen_endxfer (ctx : DecCtx) : plen ctx cmdEndxfer = 0 := (rfl)
@[simp] theorem plen_disconnect (ctx : DecCtx) : plen ctx cmdDisconnect = 0 := (rfl)
@[simp] theorem plen_ok (ctx : DecCtx) : plen ctx cmdOk = 0 := (rfl)
@[simp] theorem plen_txrxAck (ctx : DecCtx) : plen ctx cmdTxrxAck = 0 := (rfl)
@[simp] theorem plen_txrxDone (ctx : DecCtx) : plen ctx cmdTxrxDone = 0 := (rfl)
@[simp] theorem plen_err (ctx : DecCtx) : plen ctx cmdErr = 1 := (rfl)
@[simp] theorem plen_txrxErr (ctx : DecCtx) : plen ctx cmdTxrxErr = 0 := (rfl)
@[simp] theorem plen_readmem (ctx : DecCtx) : plen ctx cmdReadmem = 1 := (rfl)
@[simp] theorem plen_readnext (ctx : DecCtx) : plen ctx cmdReadnext = 0 := (rfl)
@[simp] theorem plen_memdata (ctx : DecCtx) : plen ctx cmdMemdata = memdataLen ctx := (rfl)
@[simp] theorem plen_data (ctx : DecCtx) : plen ctx cmdData = 1 := (rfl)
@[simp] theorem plen_info (ctx : DecCtx) : plen ctx cmdInfo = ctx.infoLen := (rfl)
@[simp] theorem plen_writemem (ctx : DecCtx) : plen ctx cmdWritemem = 1 := (rfl)

/-- `memdata_len` is 1 to 256 (R100). -/
theorem memdataLen_bounds (ctx : DecCtx) : 1 ≤ memdataLen ctx ∧ memdataLen ctx ≤ 256 := by
  unfold memdataLen
  split
  · next h => omega
  · omega

/-- No payload is longer than 256 bytes (R90, R98). -/
theorem plen_le (ctx : DecCtx) (h : ctx.infoLen ≤ 256) (c : Byte) : plen ctx c ≤ 256 := by
  unfold plen
  split
  · omega
  · split
    · exact (memdataLen_bounds ctx).2
    · split <;> omega

/-- Inside the memory `memdata_len` stays inside it (R66, R100). -/
theorem memdataLen_fits (ctx : DecCtx) (h : ctx.xferCnt.toNat < memsize ctx.memtype) :
    ctx.xferCnt.toNat + memdataLen ctx ≤ memsize ctx.memtype := by
  have hn : ctx.memtype ≠ mtNone := by
    intro h0
    rw [h0, show memsize mtNone = 0 from rfl] at h
    omega
  unfold memdataLen
  rw [if_pos ⟨hn, h⟩]
  omega

theorem memsize_le (t : Byte) : memsize t ≤ xferBufSize := by
  unfold memsize
  cases memOfCode t with
  | none => simp
  | some m => cases m <;> simp [memTypeSize, xferBufSize]

theorem memOfCode_memCode (m : MemType) : memOfCode (memCode m) = some m := by cases m <;> rfl

@[simp] theorem memsize_memCode (m : MemType) : memsize (memCode m) = memTypeSize m := by
  simp [memsize, memOfCode_memCode]

@[simp] theorem memsize_mtNone : memsize mtNone = 0 := (rfl)

/-- Every memory size is a multiple of 256 (R100). -/
theorem memsize_mod (t : Byte) : memsize t % 256 = 0 := by
  unfold memsize
  cases memOfCode t with
  | none => rfl
  | some m => cases m <;> rfl

/-- At an offset that is a multiple of 256 a block has 256 bytes (R100). -/
theorem memdataLen_of_mult (ctx : DecCtx) (h : ctx.xferCnt.toNat % 256 = 0) : memdataLen ctx = 256 := by
  have := memsize_mod ctx.memtype
  unfold memdataLen
  split <;> omega

/-- Only `MEMDATA`'s length reads more of the context than `INFO_LEN` (R98, R100). -/
theorem plen_congr (ctx ctx' : DecCtx) (c : Byte) (hc : c ≠ cmdMemdata) (h : ctx.infoLen = ctx'.infoLen) :
    plen ctx c = plen ctx' c := by
  unfold plen
  rw [if_neg hc, if_neg hc, h]

/-! The timer and the encoder. -/

@[simp] theorem encodeAll_nil (cfg : Cfg) : encodeAll cfg [] = [] := rfl

@[simp] theorem encodeAll_cons (cfg : Cfg) (f : Byte × List Byte) (frames : List (Byte × List Byte)) :
    encodeAll cfg (f :: frames) = encodeFrame cfg f.1 f.2 ++ encodeAll cfg frames := rfl

theorem encodeAll_append (cfg : Cfg) (fs gs : List (Byte × List Byte)) :
    encodeAll cfg (fs ++ gs) = encodeAll cfg fs ++ encodeAll cfg gs := List.flatMap_append

/-- `CANCEL()` in one equation (R281). -/
theorem cancel_eq (s : State) :
    cancel s = { s with timerArmed := false, timerCmd := s.timerCmd ++ s.cancelCall } := by
  unfold cancel State.cancelCall
  split
  · rfl
  · next h => cases s; simp_all

theorem cancel_cancel (s : State) : cancel (cancel s) = cancel s :=
  cancel_of_disarmed _ (cancel_timerArmed s)

/-- A `SEND` with a payload of the table's length is `State.sent` (R120). -/
theorem send_eq_sent (c : Byte) (P : List Byte) (s : State) (h : P.length = plen s.decCtx c) :
    send c P s = s.sent c P := by
  unfold send State.sent State.txFree setFltTxq
  rw [if_neg (by simp [h])]
  by_cases hf : s.txq.length + 5 + P.length ≤ s.cfg.txqBytes
  · rw [if_pos hf, if_neg (by omega)]
  · rw [if_neg hf, if_pos (by omega)]

/-! `State.sent`: the fields it never writes, and the three it may. -/

@[simp] theorem sent_cfg (s : State) (c : Byte) (P : List Byte) : (s.sent c P).cfg = s.cfg := by
  unfold State.sent; split <;> rfl
@[simp] theorem sent_dec (s : State) (c : Byte) (P : List Byte) : (s.sent c P).dec = s.dec := by
  unfold State.sent; split <;> rfl
@[simp] theorem sent_link (s : State) (c : Byte) (P : List Byte) : (s.sent c P).link = s.link := by
  unfold State.sent; split <;> rfl
@[simp] theorem sent_linkEn (s : State) (c : Byte) (P : List Byte) : (s.sent c P).linkEn = s.linkEn := by
  unfold State.sent; split <;> rfl
@[simp] theorem sent_connected (s : State) (c : Byte) (P : List Byte) : (s.sent c P).connected = s.connected := by
  unfold State.sent; split <;> rfl
@[simp] theorem sent_memtype (s : State) (c : Byte) (P : List Byte) : (s.sent c P).memtype = s.memtype := by
  unfold State.sent; split <;> rfl
@[simp] theorem sent_curOp (s : State) (c : Byte) (P : List Byte) : (s.sent c P).curOp = s.curOp := by
  unfold State.sent; split <;> rfl
@[simp] theorem sent_pendOp (s : State) (c : Byte) (P : List Byte) : (s.sent c P).pendOp = s.pendOp := by
  unfold State.sent; split <;> rfl
@[simp] theorem sent_xferCnt (s : State) (c : Byte) (P : List Byte) : (s.sent c P).xferCnt = s.xferCnt := by
  unfold State.sent; split <;> rfl
@[simp] theorem sent_blkLen (s : State) (c : Byte) (P : List Byte) : (s.sent c P).blkLen = s.blkLen := by
  unfold State.sent; split <;> rfl
@[simp] theorem sent_retryCnt (s : State) (c : Byte) (P : List Byte) : (s.sent c P).retryCnt = s.retryCnt := by
  unfold State.sent; split <;> rfl
@[simp] theorem sent_lastRxCmd (s : State) (c : Byte) (P : List Byte) : (s.sent c P).lastRxCmd = s.lastRxCmd := by
  unfold State.sent; split <;> rfl
@[simp] theorem sent_timerArmed (s : State) (c : Byte) (P : List Byte) : (s.sent c P).timerArmed = s.timerArmed := by
  unfold State.sent; split <;> rfl
@[simp] theorem sent_timerMs (s : State) (c : Byte) (P : List Byte) : (s.sent c P).timerMs = s.timerMs := by
  unfold State.sent; split <;> rfl
@[simp] theorem sent_xferBuf (s : State) (c : Byte) (P : List Byte) : (s.sent c P).xferBuf = s.xferBuf := by
  unfold State.sent; split <;> rfl
@[simp] theorem sent_fltTxLen (s : State) (c : Byte) (P : List Byte) : (s.sent c P).fltTxLen = s.fltTxLen := by
  unfold State.sent; split <;> rfl
@[simp] theorem sent_wireOut (s : State) (c : Byte) (P : List Byte) : (s.sent c P).wireOut = s.wireOut := by
  unfold State.sent; split <;> rfl
@[simp] theorem sent_appEv (s : State) (c : Byte) (P : List Byte) : (s.sent c P).appEv = s.appEv := by
  unfold State.sent; split <;> rfl
@[simp] theorem sent_timerCmd (s : State) (c : Byte) (P : List Byte) : (s.sent c P).timerCmd = s.timerCmd := by
  unfold State.sent; split <;> rfl
@[simp] theorem sent_events (s : State) (c : Byte) (P : List Byte) : (s.sent c P).events = s.events := by
  unfold State.sent; split <;> rfl
@[simp] theorem sent_backend (s : State) (c : Byte) (P : List Byte) : (s.sent c P).backend = s.backend := by
  unfold State.sent; split <;> rfl
@[simp] theorem sent_resets (s : State) (c : Byte) (P : List Byte) : (s.sent c P).resets = s.resets := by
  unfold State.sent; split <;> rfl

theorem sent_txq (s : State) (c : Byte) (P : List Byte) :
    (s.sent c P).txq =
      if s.txq.length + 5 + P.length ≤ s.cfg.txqBytes then s.txq ++ encodeFrame s.cfg c P else s.txq := by
  unfold State.sent; split <;> rfl

theorem sent_lastTxCmd (s : State) (c : Byte) (P : List Byte) :
    (s.sent c P).lastTxCmd = if s.txq.length + 5 + P.length ≤ s.cfg.txqBytes then c else s.lastTxCmd := by
  unfold State.sent; split <;> rfl

theorem sent_fltTxq (s : State) (c : Byte) (P : List Byte) :
    (s.sent c P).fltTxq = if s.txq.length + 5 + P.length ≤ s.cfg.txqBytes then s.fltTxq else true := by
  unfold State.sent; split <;> rfl

/-- A `SEND` without a payload (R120). -/
theorem send_empty (c : Byte) (s : State) (h : plen s.decCtx c = 0) : send c [] s = s.sent c [] :=
  send_eq_sent c [] s h.symm

/-- A `SEND` of one payload byte (R120). -/
theorem send_one (c b : Byte) (s : State) (h : plen s.decCtx c = 1) : send c [b] s = s.sent c [b] :=
  send_eq_sent c [b] s h.symm

/-- Everything a `SEND` can do (R120 to R122). -/
theorem send_cases (c : Byte) (P : List Byte) (s : State) :
    (P.length ≠ plen s.decCtx c ∧ send c P s = { s with fltTxLen := true }) ∨
    (P.length = plen s.decCtx c ∧ s.txFree < 5 + P.length ∧ send c P s = { s with fltTxq := true }) ∨
    (P.length = plen s.decCtx c ∧ 5 + P.length ≤ s.txFree ∧
      send c P s = { s with txq := s.txq ++ encodeFrame s.cfg c P, lastTxCmd := c }) := by
  unfold send setFltTxLen setFltTxq
  by_cases h : P.length = plen s.decCtx c
  · by_cases hf : s.txFree < 5 + P.length
    · exact .inr (.inl ⟨h, hf, by rw [if_neg (by simp [h]), if_pos hf]⟩)
    · exact .inr (.inr ⟨h, by omega, by rw [if_neg (by simp [h]), if_neg hf]⟩)
  · exact .inl ⟨h, by rw [if_pos h]⟩

/-- The caller can tell an accepted `SEND` from a refused one by `sendAccepts` alone (R120). -/
theorem sendAccepts_iff (c : Byte) (P : List Byte) (s : State) :
    sendAccepts c P s = true ↔ P.length = plen s.decCtx c ∧ 5 + P.length ≤ s.txFree := by
  simp [sendAccepts]

theorem frameBytes_length (c : Byte) (P : List Byte) (cs : U16) : (frameBytes c P cs).length = 5 + P.length := by
  simp [frameBytes]; omega

/-! The backend. -/

/-- A `MemRead` changes the backend alone (R66). -/
theorem memRead_state (a n : Nat) (s : State) :
    (memRead a n s).2 = { s with backend := (memRead a n s).2.backend } := by
  unfold memRead; split <;> rfl

/-- A `MemRead` that does not answer `error` answers exactly `n` bytes (R66). -/
theorem memRead_length (a n : Nat) (s : State) (r : List Byte) (h : (memRead a n s).1 = some r) : r.length = n := by
  unfold memRead at h
  split at h
  · simp only [Option.some.injEq] at h; rw [← h]; simp
  · simp at h
  · simp only [Option.some.injEq] at h; rw [← h]; simp [replyBytes]
  · simp only at h
    split at h
    · simp at h
    · simp only [Option.some.injEq] at h; rw [← h]; simp [replyBytes]

/-- The answer of a `MemRead` depends on the backend alone (R66). -/
theorem memRead_congr (a n : Nat) (s t : State) (h : s.backend = t.backend) :
    (memRead a n s).1 = (memRead a n t).1 ∧ (memRead a n s).2.backend = (memRead a n t).2.backend := by
  unfold memRead
  rw [← h]
  split <;> simp_all

/-- A `MemWrite` changes the backend alone (R67). -/
theorem memWrite_state (a : Nat) (v : List Byte) (s : State) :
    (memWrite a v s).2 = { s with backend := (memWrite a v s).2.backend } := by
  unfold memWrite; split <;> rfl

/-- The answer of a `MemWrite` depends on the backend alone (R67). -/
theorem memWrite_congr (a : Nat) (v : List Byte) (s t : State) (h : s.backend = t.backend) :
    (memWrite a v s).1 = (memWrite a v t).1 ∧ (memWrite a v s).2.backend = (memWrite a v t).2.backend := by
  unfold memWrite
  rw [← h]
  split <;> simp_all

/-! Buffers. -/

@[simp] theorem xferRead_length (s : State) (a n : Nat) : (xferRead s a n).length = n := by simp [xferRead]

/-! The procedures of a HOST. -/

/-- Everything `host_service()` can do (R183). -/
theorem hostService_cases (s : State) :
    (s.pendOp = none ∧ hostService s = s) ∨
    ∃ op, s.pendOp = some op ∧ hostService s = hostStart op { s with pendOp := none } := by
  unfold hostService
  cases h : s.pendOp with
  | none => exact .inl ⟨rfl, rfl⟩
  | some op => exact .inr ⟨op, rfl, rfl⟩

/-- `host_start(op)` enters the state that awaits the reply, with the deadline armed (R184). -/
theorem hostStart_awaits (op : OpKind) (s : State) :
    (hostStart op s).timerArmed = true ∧ (hostStart op s).curOp = some op ∧
      (hostStart op s).link =
        (match op with
          | .read => .host .waitReadmemOk
          | .write => .host .waitWritememOk
          | .ping => .host .waitPing) := by
  cases op <;> simp [hostStart]

/-- Everything `host_abort(res)` can do (R263). -/
theorem hostAbort_cases (res : OpResult) (s : State) :
    (s.curOp = none ∧ hostAbort res s = s) ∨
    ∃ op, s.curOp = some op ∧
      hostAbort res s = { s with appEv := s.appEv ++ [.opFinished op res], curOp := none } := by
  unfold hostAbort
  cases h : s.curOp with
  | none => exact .inl ⟨rfl, rfl⟩
  | some op => exact .inr ⟨op, rfl, rfl⟩

/-- Everything the deferred request's abort can do (R187, R266). -/
theorem hostAbortPending_cases (res : OpResult) (s : State) :
    (s.pendOp = none ∧ hostAbortPending res s = s) ∨
    ∃ op, s.pendOp = some op ∧
      hostAbortPending res s = { s with appEv := s.appEv ++ [.opFinished op res], pendOp := none } := by
  unfold hostAbortPending
  cases h : s.pendOp with
  | none => exact .inl ⟨rfl, rfl⟩
  | some op => exact .inr ⟨op, rfl, rfl⟩

/-- `host_abort(res)` in one equation (R263). -/
theorem hostAbort_eq (res : OpResult) (s : State) :
    hostAbort res s = { s with appEv := s.appEv ++ finished s.curOp res, curOp := none } := by
  rcases hostAbort_cases res s with ⟨h, h'⟩ | ⟨op, h, h'⟩
  · rw [h']; cases s; simp_all [finished]
  · rw [h']; simp [h, finished]

/-- The deferred request's abort in one equation (R187, R266). -/
theorem hostAbortPending_eq (res : OpResult) (s : State) :
    hostAbortPending res s = { s with appEv := s.appEv ++ finished s.pendOp res, pendOp := none } := by
  rcases hostAbortPending_cases res s with ⟨h, h'⟩ | ⟨op, h, h'⟩
  · rw [h']; cases s; simp_all [finished]
  · rw [h']; simp [h, finished]

/-- Everything `host_send_block()` can do (R190). -/
theorem hostSendBlock_cases (s : State) :
    (xferBufSize < s.xferCnt.toNat + memdataLen s.decCtx ∧ hostSendBlock s = .fault .xferBufIndex) ∨
    (s.xferCnt.toNat + memdataLen s.decCtx ≤ xferBufSize ∧
      ∃ t, hostSendBlock s = .next t ∧ t.link = .host .waitWritememAck ∧ t.timerArmed = true ∧ t.xferCnt = s.xferCnt ∧
        t.blkLen.toNat = memdataLen s.decCtx) := by
  unfold hostSendBlock
  by_cases h : xferBufSize < s.xferCnt.toNat + memdataLen s.decCtx
  · exact .inl ⟨h, if_pos h⟩
  · refine .inr ⟨by omega, _, if_neg h, rfl, rfl, by simp, ?_⟩
    have := (memdataLen_bounds s.decCtx).2
    simp only [arm_blkLen, send_blkLen, BitVec.toNat_ofNat]
    omega

/-! Delivery and exceptions. -/

/-- Everything a delivery can do before the command's own rule (R171). -/
theorem deliver_cases (c : Byte) (P : List Byte) (cs : U16) (rule : State → Result) (s : State) :
    (s.ignoresFrames = true ∧ deliver c P cs rule s = .next { s with lastRxCmd := c }) ∨
    (s.ignoresFrames = false ∧ validate s.cfg c P cs = false ∧
      deliver c P cs rule s = .next (raise .checksumFailure { s with lastRxCmd := c })) ∨
    (s.ignoresFrames = false ∧ validate s.cfg c P cs = true ∧
      deliver c P cs rule s = rule { s with lastRxCmd := c }) := by
  have hi : ({ s with lastRxCmd := c } : State).ignoresFrames = s.ignoresFrames := rfl
  cases h : s.ignoresFrames with
  | true => exact .inl ⟨rfl, by simp [deliver, hi, h]⟩
  | false =>
    cases hv : validate s.cfg c P cs with
    | true => exact .inr (.inr ⟨rfl, rfl, by simp [deliver, hi, h, hv]⟩)
    | false => exact .inr (.inl ⟨rfl, rfl, by simp [deliver, hi, h, hv, raising]⟩)

/-- The states in which frames are ignored (R174). -/
theorem ignoresFrames_eq_false (s : State) :
    s.ignoresFrames = false ↔ s.link ≠ .host .disconnected ∧ s.link ≠ .host .halted := by
  unfold State.ignoresFrames
  split <;> simp_all

/-- A delivery that is not ignored and whose checksum validates runs the command's rule (R171). -/
theorem deliver_accepted (c : Byte) (P : List Byte) (cs : U16) (rule : State → Result) (s : State)
    (hd : s.link ≠ .host .disconnected) (hh : s.link ≠ .host .halted) (hv : validate s.cfg c P cs = true) :
    deliver c P cs rule s = rule { s with lastRxCmd := c } := by
  have hi := (ignoresFrames_eq_false s).2 ⟨hd, hh⟩
  rcases deliver_cases c P cs rule s with ⟨h, _⟩ | ⟨_, h, _⟩ | ⟨_, _, h⟩
  · simp [hi] at h
  · simp [hv] at h
  · exact h

/-- A DEVICE's safe state is `D_IDLE` with a session and `D_DISCONNECTED` without, disarmed and at offset 0 (R270). -/
theorem devToSafe_rests (s : State) (d : DevState) (h : s.link = .device d) :
    (devToSafe s).timerArmed = false ∧ (devToSafe s).xferCnt = 0 ∧
      (devToSafe s).link = .device (if d.inSession then .idle else .disconnected) := by
  cases d <;> simp [devToSafe, h, DevState.inSession]

end Sys2Proof.Machine
end

