-- ==== Sys2Proof/Laws/PerInstr.lean ====
section
/-! SUPPORT. Facts about every instruction as syntax, one lemma per constructor: the frame that an instruction stands for (spec/30_encoding.md R90, R96, R98). -/

namespace Sys2Proof.Laws.FrameShape

open Sys2Proof Sys2Proof.Machine

/-- The instruction's command is one of the vocabulary, its frame stands for it, its encoding has 5 bytes beside the payload, and where it is well formed its payload has the length of the length table. -/
def Statement (i : Instr) : Prop :=
  known i.opcode = true ∧ (⟨i.opcode, i.payload, i.csum⟩ : Frame).instr = some i ∧
    (encode i).length = 5 + i.payload.length ∧ ∀ ctx : DecCtx, i.wf ctx = true → i.payload.length = plen ctx i.opcode

theorem noneCmd (cs : U16) : Statement (.noneCmd cs) :=
  ⟨rfl, rfl, frameBytes_length _ _ _, fun _ _ => rfl⟩

theorem init (cs : U16) : Statement (.init cs) :=
  ⟨rfl, rfl, frameBytes_length _ _ _, fun _ _ => rfl⟩

theorem ping (cs : U16) : Statement (.ping cs) :=
  ⟨rfl, rfl, frameBytes_length _ _ _, fun _ _ => rfl⟩

theorem memid (t : Byte) (cs : U16) : Statement (.memid t cs) :=
  ⟨rfl, rfl, frameBytes_length _ _ _, fun _ _ => rfl⟩

theorem startxfer (cs : U16) : Statement (.startxfer cs) :=
  ⟨rfl, rfl, frameBytes_length _ _ _, fun _ _ => rfl⟩

theorem endxfer (cs : U16) : Statement (.endxfer cs) :=
  ⟨rfl, rfl, frameBytes_length _ _ _, fun _ _ => rfl⟩

theorem disconnect (cs : U16) : Statement (.disconnect cs) :=
  ⟨rfl, rfl, frameBytes_length _ _ _, fun _ _ => rfl⟩

theorem ok (cs : U16) : Statement (.ok cs) :=
  ⟨rfl, rfl, frameBytes_length _ _ _, fun _ _ => rfl⟩

theorem txrxAck (cs : U16) : Statement (.txrxAck cs) :=
  ⟨rfl, rfl, frameBytes_length _ _ _, fun _ _ => rfl⟩

theorem txrxDone (cs : U16) : Statement (.txrxDone cs) :=
  ⟨rfl, rfl, frameBytes_length _ _ _, fun _ _ => rfl⟩

theorem err (e : Byte) (cs : U16) : Statement (.err e cs) :=
  ⟨rfl, rfl, frameBytes_length _ _ _, fun _ _ => rfl⟩

theorem txrxErr (cs : U16) : Statement (.txrxErr cs) :=
  ⟨rfl, rfl, frameBytes_length _ _ _, fun _ _ => rfl⟩

theorem readmem (t : Byte) (cs : U16) : Statement (.readmem t cs) :=
  ⟨rfl, rfl, frameBytes_length _ _ _, fun _ _ => rfl⟩

theorem readnext (cs : U16) : Statement (.readnext cs) :=
  ⟨rfl, rfl, frameBytes_length _ _ _, fun _ _ => rfl⟩

theorem memdata (P : List Byte) (cs : U16) : Statement (.memdata P cs) :=
  ⟨rfl, rfl, frameBytes_length _ _ _, fun ctx h => by simp only [Instr.wf, beq_iff_eq] at h; exact h⟩

theorem data (x : Byte) (cs : U16) : Statement (.data x cs) :=
  ⟨rfl, rfl, frameBytes_length _ _ _, fun _ _ => rfl⟩

theorem info (P : List Byte) (cs : U16) : Statement (.info P cs) :=
  ⟨rfl, rfl, frameBytes_length _ _ _, fun ctx h => by simp only [Instr.wf, Bool.and_eq_true, beq_iff_eq] at h; exact h.1⟩

theorem writemem (t : Byte) (cs : U16) : Statement (.writemem t cs) :=
  ⟨rfl, rfl, frameBytes_length _ _ _, fun _ _ => rfl⟩

end Sys2Proof.Laws.FrameShape
end

