-- ==== Sys2Proof/Laws/Decode.lean ====
section
/-! SUPPORT. What the frame decoder does with each part of a frame (spec/41_framer_decode.md R136 to R144). -/

namespace Sys2Proof

open Machine

theorem decodeStep_seekStart (ctx : DecCtx) (d : Decoder) (b : Byte) (h : d.rxState = .seekStart) :
    decodeStep ctx d b = (decodeSeekStart d b, none) := by
  unfold decodeStep; rw [h]

theorem decodeStep_readCommand (ctx : DecCtx) (d : Decoder) (b : Byte) (h : d.rxState = .readCommand) :
    decodeStep ctx d b = (decodeReadCommand ctx d b, none) := by
  unfold decodeStep; rw [h]

theorem decodeStep_readData (ctx : DecCtx) (d : Decoder) (b : Byte) (h : d.rxState = .readData) :
    decodeStep ctx d b = (decodeReadData d b, none) := by
  unfold decodeStep; rw [h]

theorem decodeStep_readChecksum (ctx : DecCtx) (d : Decoder) (b : Byte) (h : d.rxState = .readChecksum) :
    decodeStep ctx d b = (decodeReadChecksum d b, none) := by
  unfold decodeStep; rw [h]

theorem decodeStep_readEnd (ctx : DecCtx) (d : Decoder) (b : Byte) (h : d.rxState = .readEnd) :
    decodeStep ctx d b = decodeReadEnd ctx d b := by
  unfold decodeStep; rw [h]

/-- A frame comes out of the step of an END byte in `ReadEnd` alone (R141). -/
theorem decodeStep_frame (ctx : DecCtx) (d : Decoder) (b : Byte) (f : Frame) (h : (decodeStep ctx d b).2 = some f) :
    d.rxState = .readEnd ∧ b = endByte ∧ d.rxKnown = true ∧ f = ⟨d.rxCmd, rxPayload ctx d, d.rxCsum⟩ := by
  unfold decodeStep at h
  split at h
  · simp at h
  · simp at h
  · simp at h
  · simp at h
  · next hs =>
    unfold decodeReadEnd at h
    simp only at h
    split at h
    · next hb => exact ⟨hs, hb.1, hb.2, by simpa using h.symm⟩
    · simp at h

theorem decodeRun_append (ctx : DecCtx) (xs ys : List Byte) : ∀ d : Decoder,
    decodeRun ctx d (xs ++ ys) =
      ((decodeRun ctx (decodeRun ctx d xs).1 ys).1, (decodeRun ctx d xs).2 ++ (decodeRun ctx (decodeRun ctx d xs).1 ys).2) := by
  induction xs with
  | nil => intro d; rfl
  | cons b xs ih => intro d; simp only [List.cons_append, decodeRun, ih, List.append_assoc]

theorem decodeReadData_last (d : Decoder) (b : Byte) (h : d.rxCnt + 1 = d.rxLen) :
    decodeReadData d b =
      { d with rxBuf := d.rxBuf.writeBytes d.rxCnt.toNat [b], rxCnt := 0, rxState := .readChecksum } := by
  unfold decodeReadData; exact if_pos h

theorem decodeReadData_more (d : Decoder) (b : Byte) (h : d.rxCnt + 1 ≠ d.rxLen) :
    decodeReadData d b = { d with rxBuf := d.rxBuf.writeBytes d.rxCnt.toNat [b], rxCnt := d.rxCnt + 1 } := by
  unfold decodeReadData; exact if_neg h

/-- The decoder's payload phase (R139): the bytes land at the indices from `rx_cnt` on, no frame comes out, and the decoder stays in `ReadData` until the last of them. -/
theorem decodeRun_data (ctx : DecCtx) (bs : List Byte) : ∀ d : Decoder,
    d.rxState = .readData → d.rxLen.toNat ≤ 256 → bs ≠ [] → d.rxCnt.toNat + bs.length = d.rxLen.toNat →
    ∃ m : Memory,
      (∀ a, m.lookup a =
        if d.rxCnt.toNat ≤ a ∧ a < d.rxCnt.toNat + bs.length then bs[a - d.rxCnt.toNat]? else d.rxBuf.lookup a) ∧
      decodeRun ctx d bs = ({ d with rxBuf := m, rxCnt := 0, rxState := .readChecksum }, []) := by
  induction bs with
  | nil => intro d _ _ h; exact absurd rfl h
  | cons b bs ih =>
    intro d hs hl _ hn
    simp only [List.length_cons] at hn
    have hc : (d.rxCnt + 1).toNat = d.rxCnt.toNat + 1 := by
      simp only [BitVec.toNat_add, BitVec.ofNat_eq_ofNat, BitVec.toNat_ofNat]; omega
    simp only [decodeRun, decodeStep_readData ctx d b hs, Option.toList, List.nil_append]
    cases bs with
    | nil =>
      have he : d.rxCnt + 1 = d.rxLen := by
        apply BitVec.eq_of_toNat_eq; rw [hc]; simpa using hn
      refine ⟨d.rxBuf.writeBytes d.rxCnt.toNat [b], fun a => Memory.lookup_writeBytes _ _ _ _, ?_⟩
      simp only [decodeRun, decodeReadData_last d b he]
    | cons b' bs =>
      have he : d.rxCnt + 1 ≠ d.rxLen := by
        intro h; rw [← h, hc] at hn; simp at hn
      rw [decodeReadData_more d b he]
      obtain ⟨m, hm, hr⟩ := ih { d with rxBuf := d.rxBuf.writeBytes d.rxCnt.toNat [b], rxCnt := d.rxCnt + 1 } hs hl
        (by simp) (by simp only [hc]; simp at hn ⊢; omega)
      refine ⟨m, ?_, hr⟩
      intro a
      rw [hm a]
      simp only [hc, Memory.lookup_writeBytes, List.length_cons, List.length_nil]
      by_cases h1 : d.rxCnt.toNat = a
      · subst h1; simp
      · by_cases h2 : d.rxCnt.toNat + 1 ≤ a
        · have h3 : a - d.rxCnt.toNat = (a - (d.rxCnt.toNat + 1)) + 1 := by omega
          have h4 : d.rxCnt.toNat ≤ a := by omega
          have h5 : ¬ a < d.rxCnt.toNat + (0 + 1) := by omega
          simp only [h2, h4, h5, true_and, and_false, if_false, h3, List.getElem?_cons_succ]
          have h6 : (a < d.rxCnt.toNat + 1 + (bs.length + 1)) = (a < d.rxCnt.toNat + (bs.length + 1 + 1)) := by
            simp only [eq_iff_iff]; omega
          simp only [h6]
        · have h4 : ¬ d.rxCnt.toNat ≤ a := by omega
          simp [h2, h4]

/-- The decoder is past the command byte of a frame, with its counters inside their bounds (R51). -/
def Machine.Decoder.inside (d : Decoder) : Prop :=
  match d.rxState with
  | .readData => d.rxCnt.toNat < d.rxLen.toNat ∧ d.rxLen.toNat ≤ 256
  | .readChecksum => d.rxCnt.toNat ≤ 1
  | .readEnd => True
  | .seekStart => False
  | .readCommand => False

/-- How many bytes the decoder takes until it is in `SeekStart` again (R147). -/
def Machine.Decoder.remaining (d : Decoder) : Nat :=
  match d.rxState with
  | .readData => d.rxLen.toNat - d.rxCnt.toNat + 3
  | .readChecksum => 3 - d.rxCnt.toNat
  | .readEnd => 1
  | .seekStart => 0
  | .readCommand => 0

/-- Before the END position a byte brings the decoder one byte nearer to the frame's end and delivers nothing (R139, R140). -/
theorem decodeStep_inside (ctx : DecCtx) (d : Decoder) (b : Byte) (h : d.inside) (hr : 2 ≤ d.remaining) :
    (decodeStep ctx d b).2 = none ∧ (decodeStep ctx d b).1.inside ∧
      (decodeStep ctx d b).1.remaining + 1 = d.remaining := by
  cases hs : d.rxState with
  | seekStart => simp [Machine.Decoder.inside, hs] at h
  | readCommand => simp [Machine.Decoder.inside, hs] at h
  | readEnd => simp [Machine.Decoder.remaining, hs] at hr
  | readData =>
    simp only [Machine.Decoder.inside, hs] at h
    rw [decodeStep_readData ctx d b hs]
    have hc : (d.rxCnt + 1).toNat = d.rxCnt.toNat + 1 := by
      simp only [BitVec.toNat_add, BitVec.ofNat_eq_ofNat, BitVec.toNat_ofNat]; omega
    by_cases he : d.rxCnt + 1 = d.rxLen
    · have : d.rxLen.toNat = d.rxCnt.toNat + 1 := by rw [← he, hc]
      rw [decodeReadData_last d b he]
      simp only [Machine.Decoder.inside, Decoder.remaining, hs, this]
      refine ⟨trivial, by simp, by simp⟩
    · have : d.rxLen.toNat ≠ d.rxCnt.toNat + 1 := by
        intro h2; apply he; apply BitVec.eq_of_toNat_eq; rw [hc, h2]
      rw [decodeReadData_more d b he]
      simp only [Machine.Decoder.inside, Decoder.remaining, hs, hc]
      refine ⟨trivial, by omega, by omega⟩
  | readChecksum =>
    simp only [Machine.Decoder.inside, hs] at h
    rw [decodeStep_readChecksum ctx d b hs]
    by_cases he : d.rxCnt = 0
    · simp [decodeReadChecksum, he, Decoder.inside, Decoder.remaining, hs]
    · have : d.rxCnt.toNat ≠ 0 := by
        intro h2; apply he; apply BitVec.eq_of_toNat_eq; rw [h2]; rfl
      simp only [decodeReadChecksum, he, if_false, Decoder.inside, Decoder.remaining, hs]
      refine ⟨trivial, trivial, by omega⟩

/-- Inside a frame no byte up to the END position delivers a frame or leads out of the frame (R146, R147). -/
theorem decodeRun_inside (ctx : DecCtx) (bs : List Byte) : ∀ d : Decoder, d.inside → bs.length < d.remaining →
    (decodeRun ctx d bs).2 = [] ∧ (decodeRun ctx d bs).1.inside ∧
      (decodeRun ctx d bs).1.remaining + bs.length = d.remaining := by
  induction bs with
  | nil => intro d h _; exact ⟨rfl, h, rfl⟩
  | cons b bs ih =>
    intro d h hr
    simp only [List.length_cons] at hr
    obtain ⟨h1, h2, h3⟩ := decodeStep_inside ctx d b h (by omega)
    obtain ⟨h4, h5, h6⟩ := ih (decodeStep ctx d b).1 h2 (by omega)
    simp only [decodeRun, h1, Option.toList, List.nil_append, List.length_cons]
    exact ⟨h4, h5, by omega⟩

/-- After the command byte exactly `plen(c) + 3` bytes remain (R138, R147). -/
theorem decodeReadCommand_inside (ctx : DecCtx) (d : Decoder) (c : Byte) (h : ctx.infoLen ≤ 256) :
    (decodeReadCommand ctx d c).inside ∧ (decodeReadCommand ctx d c).remaining = plen ctx c + 3 := by
  have hp := plen_le ctx h c
  have hm : (BitVec.ofNat 9 (plen ctx c)).toNat = plen ctx c := by
    rw [BitVec.toNat_ofNat]; omega
  unfold decodeReadCommand Decoder.inside Decoder.remaining
  by_cases h0 : plen ctx c = 0
  · simp [h0]
  · simp only [h0, if_false, hm]
    simp; omega

/-- START and a command byte lead from `SeekStart` to the registers that `ReadCommand` leaves (R137, R138). -/
theorem decodeRun_start (ctx : DecCtx) (d : Decoder) (c : Byte) (bs : List Byte) (h : d.rxState = .seekStart) :
    decodeRun ctx d (startByte :: c :: bs) =
      decodeRun ctx (decodeReadCommand ctx { d with rxState := .readCommand } c) bs := by
  simp only [decodeRun, decodeStep_seekStart ctx d _ h, decodeSeekStart, if_true,
    decodeStep_readCommand ctx { d with rxState := .readCommand } c rfl, Option.toList, List.nil_append]

@[simp] theorem hiByte_append (hi lo : Byte) : hiByte (hi ++ lo) = hi := by
  apply BitVec.eq_of_getLsbD_eq
  intro i h
  simp only [hiByte, BitVec.getLsbD_extractLsb', BitVec.getLsbD_append]
  simp [h]

@[simp] theorem loByte_append (hi lo : Byte) : loByte (hi ++ lo) = lo := by
  apply BitVec.eq_of_getLsbD_eq
  intro i h
  simp only [loByte, BitVec.getLsbD_extractLsb', BitVec.getLsbD_append]
  simp [h]

/-- The decoder over a whole frame up to the END position (R123, R144): its registers hold the command, the payload and the checksum field. -/
theorem decodeRun_frame (ctx : DecCtx) (d : Decoder) (c : Byte) (P : List Byte) (cs : U16) (hi : ctx.infoLen ≤ 256)
    (hP : P.length = plen ctx c) (hs : d.rxState = .seekStart) :
    ∃ d' : Decoder, d'.rxState = .readEnd ∧ d'.rxCmd = c ∧ d'.rxKnown = known c ∧ d'.rxCnt = 0 ∧
      d'.rxLen.toNat = P.length ∧ d'.rxCsum = cs ∧ rxPayload ctx d' = P ∧
      decodeRun ctx d (startByte :: c :: (P ++ [hiByte cs, loByte cs])) = (d', []) := by
  have hp := plen_le ctx hi c
  have hm : (BitVec.ofNat 9 (plen ctx c)).toNat = plen ctx c := by
    rw [BitVec.toNat_ofNat]; omega
  have hcs : ∀ w : U16, setLo (setHi w (hiByte cs)) (loByte cs) = cs := by
    intro w
    apply BitVec.eq_of_getLsbD_eq
    intro i hi
    simp only [setLo, setHi, hiByte, loByte, BitVec.getLsbD_append, BitVec.getLsbD_extractLsb']
    by_cases h8 : i < 8
    · simp [h8]
    · simp [h8, show i - 8 < 8 by omega, show 8 + (i - 8) = i by omega]
  have key : ∃ m : Memory, (∀ a, a < P.length → m.lookup a = P[a]?) ∧
      decodeRun ctx d (startByte :: c :: P) =
        ({ decodeReadCommand ctx d c with rxBuf := m, rxCnt := 0, rxState := .readChecksum }, []) := by
    rw [decodeRun_start ctx d c P hs]
    by_cases hn : P = []
    · subst hn
      simp only [List.length_nil] at hP
      refine ⟨d.rxBuf, by simp, ?_⟩
      simp [decodeRun, decodeReadCommand, ← hP]
    · have hne : plen ctx c ≠ 0 := by rw [← hP]; simpa using hn
      obtain ⟨m, h1, h2⟩ := decodeRun_data ctx P (decodeReadCommand ctx { d with rxState := .readCommand } c)
        (by simp [decodeReadCommand, hne]) (by simp only [decodeReadCommand, hm]; exact hp) hn
        (by simp only [decodeReadCommand, hm, hP]; simp)
      refine ⟨m, ?_, by rw [h2]; rfl⟩
      intro a ha
      rw [h1 a]
      simp [decodeReadCommand, ha]
  obtain ⟨m, h1, h2⟩ := key
  refine ⟨{ decodeReadCommand ctx d c with rxBuf := m, rxCnt := 0, rxState := .readEnd, rxCsum := cs },
    rfl, rfl, rfl, rfl, by simp only [decodeReadCommand, hm, hP], rfl, ?_, ?_⟩
  · simp only [rxPayload, decodeReadCommand, hm, Memory.readBytes_eq_map]
    apply List.ext_getElem
    · simp [hP]
    · intro i hi1 hi2
      simp [Memory.readByte, h1 i hi2, hi2]
  · rw [show startByte :: c :: (P ++ [hiByte cs, loByte cs]) = (startByte :: c :: P) ++ [hiByte cs, loByte cs] from rfl,
      decodeRun_append, h2]
    simp only [decodeRun]
    rw [decodeStep_readChecksum ctx _ _ rfl]
    simp only [decodeReadChecksum]
    rw [decodeStep_readChecksum ctx _ _ rfl]
    simp [decodeReadChecksum, hcs]

/-- Inside a frame `decode` only feeds its bytes to the decoder (R136). -/
theorem decodeFrom_inside (ctx : DecCtx) (rest bs : List Byte) : ∀ d : Decoder, d.inside → bs.length < d.remaining →
    decodeFrom ctx d (bs ++ rest) = decodeFrom ctx (decodeRun ctx d bs).1 rest := by
  induction bs with
  | nil => intro d _ _; rfl
  | cons b bs ih =>
    intro d h hr
    simp only [List.length_cons] at hr
    obtain ⟨h1, h2, h3⟩ := decodeStep_inside ctx d b h (by omega)
    simp only [List.cons_append, decodeFrom, h1, decodeRun]
    rw [← ih _ h2 (by omega)]
    cases hs : d.rxState with
    | seekStart => simp [Machine.Decoder.inside, hs] at h
    | readEnd => simp [Machine.Decoder.remaining, hs] at hr
    | readCommand => simp
    | readData => simp
    | readChecksum => simp

/-- `decode` of START and a command byte goes on from the registers that `ReadCommand` leaves (R137, R138). -/
theorem decode_start (ctx : DecCtx) (c : Byte) (rest : List Byte) :
    decode ctx (startByte :: c :: rest) =
      decodeFrom ctx (decodeReadCommand ctx { Decoder.reset with rxState := .readCommand } c) rest := by
  have h1 : decodeStep ctx Decoder.reset startByte = ({ Decoder.reset with rxState := .readCommand }, none) := by
    rw [decodeStep_seekStart ctx _ _ rfl]; rfl
  have h2 := decodeStep_readCommand ctx { Decoder.reset with rxState := .readCommand } c rfl
  simp only [decode, decodeFrom, h1, h2]
  simp [Decoder.reset]

/-- An instruction is read off its own frame alone (R90, R96). -/
theorem Frame.instr_eq_some (f : Frame) (i : Instr) (h : f.instr = some i) : f = ⟨i.opcode, i.payload, i.csum⟩ := by
  obtain ⟨c, P, cs⟩ := f
  have step : ∀ (k : Byte) (a : Instr) (r : Option Instr), (if c = k then some a else r) = some i →
      (c = k ∧ a = i) ∨ r = some i := by
    intro k a r hr
    by_cases hk : c = k
    · rw [if_pos hk] at hr; exact .inl ⟨hk, Option.some.inj hr⟩
    · rw [if_neg hk] at hr; exact .inr hr
  rcases P with _ | ⟨p, _ | ⟨q, P⟩⟩ <;> simp only [Frame.instr] at h <;>
    (repeat (rcases step _ _ _ h with ⟨rfl, rfl⟩ | h; · rfl)) <;> cases h

end Sys2Proof
end

