-- ==== Sys2Proof/Machine/Link.lean ====
section
/-! DEFINITION. A link: one HOST and one DEVICE instance and the two byte streams between them (spec/60_exceptions.md R288, spec/20_memory.md R75, R76). The instances share nothing else. The machine of `Core.lean` is one instance; a link is two of them. -/

namespace Sys2Proof.Machine

/-- Two instances and the bytes in flight, oldest first (R49, R76). -/
structure Link where
  host : State
  device : State
  toDevice : List Byte
  toHost : List Byte
  deriving DecidableEq, Repr

/-- A step of a link: an event of one instance, the arrival of the oldest byte in flight at its other end, or the channel's own change of what is in flight (R76 lets it drop, alter or insert bytes; `LinkEvent.ideal` says which events the ideal channel admits). -/
inductive LinkEvent where
  | host (e : Event)
  | device (e : Event)
  | arriveDevice
  | arriveHost
  | channel (toDevice toHost : List Byte)
  deriving DecidableEq, Repr

/-- The bytes that an instance has handed to the transport between two of its states (R61, R124). -/
def handedOver (before after : State) : List Byte := after.wireOut.drop before.wireOut.length

/-- The HOST takes an event; what it hands over is in flight (R61). -/
def Link.hostTakes (e : Event) (l : Link) : Host.Outcome Link Fault Refusal :=
  match handle e l.host with
  | .next t => .next { l with host := t, toDevice := l.toDevice ++ handedOver l.host t }
  | .fault r => .fault r
  | .refused r => .refused r

/-- The DEVICE takes an event; what it hands over is in flight (R61). -/
def Link.deviceTakes (e : Event) (l : Link) : Host.Outcome Link Fault Refusal :=
  match handle e l.device with
  | .next t => .next { l with device := t, toHost := l.toHost ++ handedOver l.device t }
  | .fault r => .fault r
  | .refused r => .refused r

/-- One step of a link (R75, R76): bytes arrive in the order in which they were sent. DESIGN CHOICE: an arrival while no byte is in flight, of which the spec says nothing, is taken without effect (log entry 14). -/
def Link.step (e : LinkEvent) (l : Link) : Host.Outcome Link Fault Refusal :=
  match e with
  | .host e => l.hostTakes e
  | .device e => l.deviceTakes e
  | .arriveDevice =>
    match l.toDevice with
    | [] => .next l
    | b :: rest => ({ l with toDevice := rest } : Link).deviceTakes (.rxByte b)
  | .arriveHost =>
    match l.toHost with
    | [] => .next l
    | b :: rest => ({ l with toHost := rest } : Link).hostTakes (.rxByte b)
  | .channel d h => .next { l with toDevice := d, toHost := h }

/-- What the parameters of the two ends must have in common: `CHECKSUM_MODE` and `INFO_LEN` (R302). `csum_fn` is one constant, and the MemoryType codes and ErrorCode values are the same for every instance. -/
abbrev Cfg.agrees (h d : Cfg) : Prop := h.checksumMode = d.checksumMode ∧ h.infoLen = d.infoLen

/-- A link right after the reset of a HOST built with `h` and a DEVICE built with `d` (R300, R302). Each end has parameters of its own; `Cfg.agrees` says what R302 asks of the two. -/
def Link.reset (h d : Cfg) : Link where
  host := State.resetOf h .host
  device := State.resetOf d .device
  toDevice := []
  toHost := []

/-! The ideal channel (R76): `wire_out` of one instance, exactly, is `wire_in` of the other. -/

/-- The events of a link on the ideal channel (R76): the channel changes nothing in flight, and neither end receives a byte but the one that arrives. -/
def LinkEvent.ideal : LinkEvent → Bool
  | .host (.rxByte _) => false
  | .host _ => true
  | .device (.rxByte _) => false
  | .device _ => true
  | .arriveDevice => true
  | .arriveHost => true
  | .channel _ _ => false

/-- The bytes of `wire_in` that the DEVICE takes in a step (R60). -/
def LinkEvent.deviceIn (e : LinkEvent) (l : Link) : List Byte :=
  match e with
  | .device (.rxByte b) => [b]
  | .device _ => []
  | .arriveDevice => l.toDevice.take 1
  | .host _ => []
  | .arriveHost => []
  | .channel _ _ => []

/-- The bytes of `wire_in` that the HOST takes in a step (R60). -/
def LinkEvent.hostIn (e : LinkEvent) (l : Link) : List Byte :=
  match e with
  | .host (.rxByte b) => [b]
  | .host _ => []
  | .arriveHost => l.toHost.take 1
  | .device _ => []
  | .arriveDevice => []
  | .channel _ _ => []

/-- What passes between the two ends: the bytes that each hands to the transport (R61) and those that each takes from it (R60), oldest first. -/
structure Traffic where
  hostOut : List Byte
  deviceIn : List Byte
  deviceOut : List Byte
  hostIn : List Byte
  deriving DecidableEq, Repr

/-- The steps with events `es` from a link, one after the other, and their traffic. -/
def Link.runTraffic : List LinkEvent → Link → Host.Outcome (Link × Traffic) Fault Refusal
  | [], l => .next (l, ⟨[], [], [], []⟩)
  | e :: es, l =>
    match Link.step e l with
    | .fault r => .fault r
    | .refused r => .refused r
    | .next m =>
      match Link.runTraffic es m with
      | .fault r => .fault r
      | .refused r => .refused r
      | .next (t, w) =>
        .next (t, ⟨handedOver l.host m.host ++ w.hostOut, e.deviceIn l ++ w.deviceIn,
          handedOver l.device m.device ++ w.deviceOut, e.hostIn l ++ w.hostIn⟩)

/-- Nothing is in flight: every byte handed over has arrived. -/
abbrev Link.settled (l : Link) : Prop := l.toDevice = [] ∧ l.toHost = []

/-- A run of the link on the ideal channel with events `es` from `l` to `t` and traffic `w` (R76). Any delay is admitted; that delays are finite means that the run can be extended until the link is settled. -/
def Link.idealRun (es : List LinkEvent) (l t : Link) (w : Traffic) : Prop :=
  (∀ e ∈ es, e.ideal = true) ∧ Link.runTraffic es l = .next (t, w)

end Sys2Proof.Machine
end

