-- ==== Sys2Proof/Laws/Link.lean ====
section
/-! SUPPORT. What the ideal channel gives (spec/20_memory.md R76): the bytes that one end takes, followed by those still in flight, are the bytes that the other end hands over, in order and without loss. -/

namespace Sys2Proof.Machine

@[simp] theorem handedOver_self (s : State) : handedOver s s = [] := List.drop_length

/-- Everything a HOST's event can do to a link. -/
theorem hostTakes_cases (e : Event) (l t : Link) (h : l.hostTakes e = .next t) :
    ∃ s, handle e l.host = .next s ∧ t = { l with host := s, toDevice := l.toDevice ++ handedOver l.host s } := by
  unfold Link.hostTakes at h
  split at h
  · next s hs => cases h; exact ⟨s, hs, rfl⟩
  · cases h
  · cases h

/-- Everything a DEVICE's event can do to a link. -/
theorem deviceTakes_cases (e : Event) (l t : Link) (h : l.deviceTakes e = .next t) :
    ∃ s, handle e l.device = .next s ∧ t = { l with device := s, toHost := l.toHost ++ handedOver l.device s } := by
  unfold Link.deviceTakes at h
  split at h
  · next s hs => cases h; exact ⟨s, hs, rfl⟩
  · cases h
  · cases h

/-- The bytes of one stream are kept by a step: those taken and those in flight after it are those in flight before it and those handed over. -/
def Link.keepsStreams (e : LinkEvent) (l t : Link) : Prop :=
  e.deviceIn l ++ t.toDevice = l.toDevice ++ handedOver l.host t.host ∧
    e.hostIn l ++ t.toHost = l.toHost ++ handedOver l.device t.device

/-- A step on the ideal channel loses no byte, adds none and keeps their order (R76). -/
theorem ideal_step (e : LinkEvent) (l t : Link) (he : e.ideal = true) (h : Link.step e l = .next t) :
    Link.keepsStreams e l t := by
  cases e with
  | host e =>
    obtain ⟨s, -, rfl⟩ := hostTakes_cases e l t h
    cases e <;> simp_all [Link.keepsStreams, LinkEvent.ideal, LinkEvent.deviceIn, LinkEvent.hostIn]
  | device e =>
    obtain ⟨s, -, rfl⟩ := deviceTakes_cases e l t h
    cases e <;> simp_all [Link.keepsStreams, LinkEvent.ideal, LinkEvent.deviceIn, LinkEvent.hostIn]
  | arriveDevice =>
    simp only [Link.step] at h
    split at h
    · next hq => cases h; simp [Link.keepsStreams, LinkEvent.deviceIn, LinkEvent.hostIn, hq]
    · next b rest hq =>
      obtain ⟨s, -, rfl⟩ := deviceTakes_cases _ _ t h
      simp [Link.keepsStreams, LinkEvent.deviceIn, LinkEvent.hostIn, hq]
  | arriveHost =>
    simp only [Link.step] at h
    split at h
    · next hq => cases h; simp [Link.keepsStreams, LinkEvent.deviceIn, LinkEvent.hostIn, hq]
    · next b rest hq =>
      obtain ⟨s, -, rfl⟩ := hostTakes_cases _ _ t h
      simp [Link.keepsStreams, LinkEvent.deviceIn, LinkEvent.hostIn, hq]
  | channel d h' => cases he

/-- Everything the first step of a run can be. -/
theorem runTraffic_cons (e : LinkEvent) (es : List LinkEvent) (l t : Link) (w : Traffic)
    (h : Link.runTraffic (e :: es) l = .next (t, w)) :
    ∃ m w', Link.step e l = .next m ∧ Link.runTraffic es m = .next (t, w') ∧
      w = ⟨handedOver l.host m.host ++ w'.hostOut, e.deviceIn l ++ w'.deviceIn,
        handedOver l.device m.device ++ w'.deviceOut, e.hostIn l ++ w'.hostIn⟩ := by
  simp only [Link.runTraffic] at h
  split at h
  · cases h
  · cases h
  · next m hm =>
    split at h
    · cases h
    · cases h
    · next t' w' hr => cases h; exact ⟨m, w', hm, hr, rfl⟩

/-- On the ideal channel the bytes taken by one end and those in flight are those in flight at first and those handed over by the other end since (R76). -/
theorem idealRun_streams (es : List LinkEvent) (l t : Link) (w : Traffic) (h : Link.idealRun es l t w) :
    w.deviceIn ++ t.toDevice = l.toDevice ++ w.hostOut ∧ w.hostIn ++ t.toHost = l.toHost ++ w.deviceOut := by
  induction es generalizing l w with
  | nil =>
    obtain ⟨-, h⟩ := h
    cases h
    simp
  | cons e es ih =>
    obtain ⟨hi, h⟩ := h
    obtain ⟨m, w', hm, hr, rfl⟩ := runTraffic_cons e es l t w h
    obtain ⟨a, b⟩ := ideal_step e l m (hi e List.mem_cons_self) hm
    obtain ⟨c, d⟩ := ih m w' ⟨fun x hx => hi x (List.mem_cons_of_mem e hx), hr⟩
    constructor
    · rw [List.append_assoc, c, ← List.append_assoc, a, List.append_assoc]
    · rw [List.append_assoc, d, ← List.append_assoc, b, List.append_assoc]

/-- The ideal channel of R76: between two settled links `wire_in` of each end is exactly `wire_out` of the other. -/
theorem idealRun_exact (es : List LinkEvent) (l t : Link) (w : Traffic) (h : Link.idealRun es l t w)
    (hl : l.settled) (ht : t.settled) : w.deviceIn = w.hostOut ∧ w.hostIn = w.deviceOut := by
  have hs := idealRun_streams es l t w h
  rw [hl.1, hl.2, ht.1, ht.2] at hs
  simpa using hs

end Sys2Proof.Machine
end

