-- ==== Sys2Proof/Laws/Step.lean ====
section
/-! SUPPORT. What a step that receives a byte does, by the decoder's state, and a run of steps over the bytes of a frame (spec/41_framer_decode.md R135 to R141). -/

namespace Sys2Proof.Machine

/-- A step takes the first pending event and runs its handler (R14). -/
theorem step_event (s : State) (e : Event) (rest : List Event) (h : s.events = e :: rest) :
    step s = handle e { s with events := rest } := by
  unfold step; rw [h]

/-- A step without a pending event leaves the state as it is. -/
theorem step_idle (s : State) (h : s.events = []) : step s = .next s := by
  unfold step; rw [h]

/-- A received byte that ends no frame changes the decoder alone (R135, R136). -/
theorem rxByte_none (b : Byte) (s : State) (hr : rxInRange s.dec = true) (h : (decodeStep s.decCtx s.dec b).2 = none) :
    rxByte b s = .next { s with dec := (decodeStep s.decCtx s.dec b).1 } := by
  simp [rxByte, hr, h]

/-- A received byte that ends a frame delivers it on the state whose decoder has returned to `SeekStart` (R141, R171). -/
theorem rxByte_some (b : Byte) (s : State) (f : Frame) (i : Instr) (hr : rxInRange s.dec = true)
    (h : (decodeStep s.decCtx s.dec b).2 = some f) (hi : f.instr = some i) :
    rxByte b s = exec i { s with dec := (decodeStep s.decCtx s.dec b).1 } := by
  simp [rxByte, hr, h, deliverFrame, hi]

/-- Inside a frame the decoder stays inside `rx_buf` (R27, R51). -/
theorem rxInRange_inside (d : Decoder) (h : d.inside) (hl : d.rxLen.toNat ≤ 256) : rxInRange d = true := by
  cases hs : d.rxState with
  | seekStart => simp [rxInRange, hs]
  | readCommand => simp [rxInRange, hs]
  | readData => simp only [Decoder.inside, hs] at h; simp [rxInRange, hs, rxBufSize]; omega
  | readChecksum => simp [rxInRange, hs]
  | readEnd => simp [rxInRange, hs, rxBufSize, hl]

end Sys2Proof.Machine
end

