-- ==== Sys2Proof/Tests/Slice0.lean ====
section
/-! SUPPORT. The model's own tests. Expected results come from the vectors of spec/95_test_vectors.md (V…), the trace of R149, or the rule named; the last part shows for each statement a state and operands that meet its hypotheses. -/

namespace Sys2Proof.Tests

open Sys2Proof Sys2Proof.Machine

/-! Helpers: a small state in a given link state, and what a meaning appends to the outputs. -/

/-- The context of the reset state: `MT_NONE`, offset 0, `INFO_LEN` 256. -/
def ctx : DecCtx := State.reset.decCtx

/-- The same with a given `INFO_LEN`. -/
def ctxInfo (n : Nat) : DecCtx := ⟨mtNone, 0, n, 0⟩

/-- A DEVICE with a 24LC16 session. -/
def dev (d : DevState) (armed : Bool) : State :=
  { State.resetOf Cfg.default .device with link := .device d, connected := true, memtype := 0x01, timerArmed := armed }

/-- A HOST with a 24LC16 session. -/
def hst (h : HostState) (armed : Bool) (op : Option OpKind) : State :=
  { State.resetOf Cfg.default .host with
    link := .host h, linkEn := true, connected := true, memtype := 0x01, timerArmed := armed, curOp := op }

/-- What a meaning does to the link state and appends to the empty `txq`, `timer_cmd` and `app_ev`. -/
def effect (r : Result) : Option (LinkState × List Byte × List TimerCall × List AppEvent) :=
  match r with
  | .next t => some (t.link, t.txq, t.timerCmd, t.appEv)
  | .fault _ => none
  | .refused _ => none

/-- The registers `memtype`, `connected`, `xfer_cnt`, `retry_cnt`, `last_rx_cmd` after a meaning. -/
def regs (r : Result) : Option (Byte × Bool × U16 × U16 × Byte) :=
  match r with
  | .next t => some (t.memtype, t.connected, t.xferCnt, t.retryCnt, t.lastRxCmd)
  | .fault _ => none
  | .refused _ => none

/-! WellFormed: a term that each check refuses, and its neighbour that passes. -/

theorem test_wf_refuses_short_memdata : Instr.wf ctx (.memdata [0x00] 0x0000) = false := by decide
theorem test_wf_refuses_short_info : Instr.wf (ctxInfo 2) (.info [0x41] 0x0000) = false := by decide
theorem test_wf_refuses_info_beyond_256 : Instr.wf (ctxInfo 257) (.info (List.replicate 257 0x00) 0x0000) = false := by
  decide +kernel
theorem test_wf_accepts_memdata_of_256 : Instr.wf ctx (.memdata (List.replicate 256 0x5A) 0x0000) = true := by decide +kernel
theorem test_wf_accepts_empty_info : Instr.wf (ctxInfo 0) (.info [] 0xFFFF) = true := by decide

/-! Decode: the words of R127 and of the vectors V10 to V28, written out byte by byte. -/

theorem test_decode_none : decode ctx [0xA5, 0x00, 0x00, 0x00, 0x5A] = .ok (.noneCmd 0x0000, []) := by rfl
theorem test_decode_init : decode ctx [0xA5, 0x01, 0x00, 0x00, 0x5A] = .ok (.init 0x0000, []) := by rfl
theorem test_decode_ping : decode ctx [0xA5, 0x02, 0xBE, 0xEF, 0x5A] = .ok (.ping 0xBEEF, []) := by rfl
theorem test_decode_memid : decode ctx [0xA5, 0x03, 0xA5, 0x00, 0x00, 0x5A] = .ok (.memid 0xA5 0x0000, []) := by rfl
theorem test_decode_startxfer : decode ctx [0xA5, 0xA5, 0x00, 0x00, 0x5A] = .ok (.startxfer 0x0000, []) := by rfl
theorem test_decode_endxfer : decode ctx [0xA5, 0x5A, 0x00, 0x00, 0x5A] = .ok (.endxfer 0x0000, []) := by rfl
theorem test_decode_disconnect : decode ctx [0xA5, 0x0F, 0x00, 0x00, 0x5A] = .ok (.disconnect 0x0000, []) := by rfl
theorem test_decode_ok : decode ctx [0xA5, 0x10, 0xA5, 0x5A, 0x5A] = .ok (.ok 0xA55A, []) := by rfl
theorem test_decode_txrxAck : decode ctx [0xA5, 0x11, 0x00, 0x00, 0x5A] = .ok (.txrxAck 0x0000, []) := by rfl
theorem test_decode_txrxDone : decode ctx [0xA5, 0x12, 0x00, 0x00, 0x5A] = .ok (.txrxDone 0x0000, []) := by rfl
theorem test_decode_err : decode ctx [0xA5, 0xF0, 0x07, 0x12, 0x34, 0x5A] = .ok (.err 0x07 0x1234, []) := by rfl
theorem test_decode_txrxErr : decode ctx [0xA5, 0xF1, 0x00, 0x00, 0x5A] = .ok (.txrxErr 0x0000, []) := by rfl
theorem test_decode_readmem : decode ctx [0xA5, 0x60, 0x01, 0x00, 0x00, 0x5A] = .ok (.readmem 0x01 0x0000, []) := by rfl
theorem test_decode_readnext : decode ctx [0xA5, 0x61, 0x00, 0x00, 0x5A] = .ok (.readnext 0x0000, []) := by rfl
theorem test_decode_data : decode ctx [0xA5, 0x71, 0x7F, 0x00, 0x00, 0x5A] = .ok (.data 0x7F 0x0000, []) := by rfl
theorem test_decode_info :
    decode (ctxInfo 2) [0xA5, 0x72, 0x41, 0x42, 0x00, 0x00, 0x5A] = .ok (.info [0x41, 0x42] 0x0000, []) := by rfl
theorem test_decode_writemem :
    decode ctx [0xA5, 0x80, 0x01, 0x00, 0x00, 0x5A] = .ok (.writemem 0x01 0x0000, []) := by rfl
theorem test_decode_leaves_the_rest :
    decode ctx [0xA5, 0x01, 0x00, 0x00, 0x5A, 0xA5, 0x03] = .ok (.init 0x0000, [0xA5, 0x03]) := by rfl

theorem test_decode_rejects_unknown : decode ctx [0xA5, 0xEE, 0x12, 0x34, 0x5A] = .error .unknownCommand := by rfl
theorem test_decode_rejects_bad_end : decode ctx [0xA5, 0x02, 0x00, 0x00, 0x5B] = .error .badEnd := by rfl
theorem test_decode_rejects_no_start : decode ctx [0x13, 0xA5] = .error .noStart := by rfl
theorem test_decode_rejects_truncated : decode ctx [0xA5, 0x60, 0x01] = .error .truncated := by rfl

/-! MEMDATA is decoded through its table word: 256 payload bytes of zero. -/

theorem test_table_word_memdata : decodeTableWord 8 0x70 = some (.memdata (List.replicate 256 0x00) 0x0000) := by
  decide +kernel
theorem test_table_word_init : decodeTableWord 8 0x01 = some (.init 0x0000) := by rfl
theorem test_table_word_memid : decodeTableWord 8 0x03 = some (.memid 0x00 0x0000) := by rfl
theorem test_table_word_unknown : decodeTableWord 8 0x04 = none := by rfl

/-- V27: a stray START before a valid frame destroys it. -/
theorem test_false_start : (decodeRun ctx Decoder.reset [0xA5, 0xA5, 0x01, 0x00, 0x00, 0x5A]).2 = [] := by rfl
/-- V28 (c): the prefix gives a spurious NONE, then INIT comes out. -/
theorem test_spurious_none :
    (decodeRun ctx Decoder.reset [0xA5, 0x00, 0x00, 0x00, 0x5A, 0xA5, 0x01, 0x00, 0x00, 0x5A]).2 =
      [⟨0x00, [], 0x0000⟩, ⟨0x01, [], 0x0000⟩] := by rfl

/-! Encode and SEND: R127, V1, V5, V6, V8. -/

theorem test_encode_readmem : encode (.readmem 0x01 0x0061) = [0xA5, 0x60, 0x01, 0x00, 0x61, 0x5A] := by rfl
theorem test_encode_err : encode (.err 0x07 0x0000) = [0xA5, 0xF0, 0x07, 0x00, 0x00, 0x5A] := by rfl
theorem test_send_wrong_length :
    (send cmdMemid [] (dev .idle false)).fltTxLen = true ∧ (send cmdMemid [] (dev .idle false)).txq = [] := by decide
theorem test_send_full_queue :
    (send cmdOk [] { dev .idle false with txq := List.replicate 520 0x00 }).fltTxq = true := by decide +kernel
theorem test_tx_byte_order :
    (txByte (txByte (send cmdInit [] (send cmdDisconnect [] (dev .idle false))))).wireOut = [0xA5, 0x0F] := by decide

/-! One step per instruction: the vectors V31 to V83. -/

/-- V79. -/
theorem test_none_device :
    effect (exec (.noneCmd 0x0000) (dev .idle false)) =
      some (.device .idle, [0xA5, 0xF0, 0x01, 0x00, 0x00, 0x5A], [], []) := by decide
/-- V31. -/
theorem test_init_host :
    effect (exec (.init 0x0000) (hst .init true none)) =
      some (.host .memid, [0xA5, 0x03, 0x01, 0x00, 0x00, 0x5A], [.cancel, .arm 2000], [.connected]) := by decide
/-- V43. -/
theorem test_init_device :
    regs (exec (.init 0x0000) { dev .write true with xferCnt := 0x300 }) = some (0x00, true, 0, 0, 0x01) := by decide
/-- V40. -/
theorem test_ping_idle :
    effect (exec (.ping 0x0000) (dev .idle false)) =
      some (.device .idle, [0xA5, 0x11, 0x00, 0x00, 0x5A], [], []) := by decide
/-- V41. -/
theorem test_ping_in_read :
    effect (exec (.ping 0x0000) { dev .read true with xferCnt := 0x300 }) =
      some (.device .idle, [0xA5, 0xF0, 0x01, 0x00, 0x00, 0x5A], [.cancel], []) := by decide
/-- V37. -/
theorem test_memid_supported :
    effect (exec (.memid 0x01 0x0000) (dev .waitMemid true)) =
      some (.device .idle, [0xA5, 0x10, 0x00, 0x00, 0x5A], [.cancel], []) := by decide
/-- V38. -/
theorem test_memid_unsupported :
    effect (exec (.memid 0x09 0x0000) (dev .waitMemid true)) =
      some (.device .disconnected, [0xA5, 0xF0, 0x02, 0x00, 0x00, 0x5A], [.cancel], []) := by decide
/-- V80. -/
theorem test_startxfer_host :
    effect (exec (.startxfer 0x0000) (hst .idle false none)) =
      some (.host .init, [0xA5, 0x01, 0x00, 0x00, 0x5A], [.arm 2000], [.reconnect 0x01]) := by decide
/-- V81. -/
theorem test_endxfer_device :
    effect (exec (.endxfer 0x0000) (dev .waitMemid true)) =
      some (.device .disconnected, [0xA5, 0xF0, 0x01, 0x00, 0x00, 0x5A], [.cancel], []) := by decide
/-- V44. -/
theorem test_disconnect_device :
    regs (exec (.disconnect 0x0000) { dev .read true with xferCnt := 0x300 }) = some (0x00, false, 0, 0, 0x0F) := by
  decide
/-- V45. -/
theorem test_disconnect_host :
    effect (exec (.disconnect 0x0000) (hst .idle false none)) =
      some (.host .init, [0xA5, 0x01, 0x00, 0x00, 0x5A], [.arm 2000], [.reconnect 0x01]) := by decide
/-- V33. -/
theorem test_ok_serves_the_deferred_read :
    effect (exec (.ok 0x0000) { hst .memid true none with pendOp := some .read }) =
      some (.host .waitReadmemOk, [0xA5, 0x60, 0x01, 0x00, 0x00, 0x5A], [.cancel, .arm 7000], []) := by decide
/-- V46. -/
theorem test_ok_begins_a_read :
    effect (exec (.ok 0x0000) (hst .waitReadmemOk true (some .read))) =
      some (.host .waitReadmemData, [0xA5, 0x61, 0x00, 0x00, 0x5A], [.cancel, .arm 1500], []) := by decide
/-- V49. -/
theorem test_txrxAck_ping :
    effect (exec (.txrxAck 0x0000) (hst .waitPing true (some .ping))) =
      some (.host .idle, [], [.cancel], [.pingOk, .opFinished .ping .ok]) := by decide
/-- V51. -/
theorem test_txrxAck_for_the_last_block :
    effect (exec (.txrxAck 0x0000) { hst .waitWritememAck true (some .write) with xferCnt := 0x700, blkLen := 0x100 }) =
      some (.host .init, [0xA5, 0x01, 0x00, 0x00, 0x5A], [.cancel, .arm 2000],
        [.opFinished .write (.err 0x01), .reconnect 0x01]) := by decide
/-- V52. -/
theorem test_txrxDone_host :
    effect (exec (.txrxDone 0x0000) { hst .waitWritememAck true (some .write) with xferCnt := 0x700, blkLen := 0x100 }) =
      some (.host .idle, [], [.cancel], [.writeConfirmed, .opFinished .write .ok]) := by decide
/-- V63. -/
theorem test_txrxDone_device :
    regs (exec (.txrxDone 0x0000) { dev .read true with xferCnt := 0x800 }) = some (0x01, true, 0, 0, 0x12) := by decide
/-- V57. -/
theorem test_err_host :
    effect (exec (.err 0x03 0x0000) { hst .waitReadmemData true (some .read) with xferCnt := 0x300 }) =
      some (.host .idle, [], [.cancel], [.opFinished .read (.err 0x03)]) := by decide
/-- V60. -/
theorem test_err_device :
    effect (exec (.err 0x00 0x0000) (dev .waitMemid true)) = some (.device .disconnected, [], [.cancel], []) := by decide
/-- V55. -/
theorem test_txrxErr_at_the_ceiling :
    effect (exec (.txrxErr 0x0000) { hst .waitWritememAck true (some .write) with
        xferCnt := 0x100, blkLen := 0x100, retryCnt := 10 }) =
      some (.host .init, [0xA5, 0x01, 0x00, 0x00, 0x5A], [.cancel, .arm 2000],
        [.opFinished .write (.err 0x06), .reconnect 0x06]) := by decide
/-- V54: the registers. -/
theorem test_txrxErr_retries :
    regs (exec (.txrxErr 0x0000) { hst .waitWritememAck true (some .write) with xferCnt := 0x100, blkLen := 0x100 }) =
      some (0x01, true, 0x100, 1, 0xF1) := by decide +kernel
/-- V66. -/
theorem test_readmem_session_type :
    effect (exec (.readmem 0x01 0x0000) (dev .idle false)) =
      some (.device .read, [0xA5, 0x10, 0x00, 0x00, 0x5A], [.arm 1500], []) := by decide
/-- V67. -/
theorem test_readmem_other_type :
    effect (exec (.readmem 0x02 0x0000) (dev .idle false)) =
      some (.device .idle, [0xA5, 0xF0, 0x02, 0x00, 0x00, 0x5A], [], []) := by decide
/-- V62, with READNEXT. -/
theorem test_readnext_at_the_end :
    effect (exec (.readnext 0x0000) { dev .read true with xferCnt := 0x800 }) =
      some (.device .idle, [0xA5, 0xF0, 0x08, 0x00, 0x00, 0x5A], [.cancel], []) := by decide
/-- V69. -/
theorem test_readnext_backend_error :
    effect (exec (.readnext 0x0000) { dev .read true with backend := .oracle [.error] 0 }) =
      some (.device .idle, [0xA5, 0xF0, 0x03, 0x00, 0x00, 0x5A], [.cancel], []) := by decide
/-- V72 with a block of two bytes. -/
theorem test_memdata_written_and_verified :
    effect (exec (.memdata [0xAA, 0x55] 0x0000) { dev .write true with backend := .ideal [] }) =
      some (.device .write, [0xA5, 0x11, 0x00, 0x00, 0x5A], [.cancel, .arm 1500], []) := by decide
/-- V74 with a block of two bytes. -/
theorem test_memdata_readback_differs :
    effect (exec (.memdata [0xAA, 0x55] 0x0000) { dev .write true with backend := .oracle [.ok [], .ok [0xAA, 0x54]] 0 }) =
      some (.device .idle, [0xA5, 0xF0, 0x04, 0x00, 0x00, 0x5A], [.cancel], []) := by decide
/-- V82. -/
theorem test_data_host :
    effect (exec (.data 0x7F 0x0000) (hst .waitPing true (some .ping))) =
      some (.host .init, [0xA5, 0x01, 0x00, 0x00, 0x5A], [.cancel, .arm 2000],
        [.opFinished .ping (.err 0x01), .reconnect 0x01]) := by decide
/-- V83. -/
theorem test_info_device :
    effect (exec (.info [0x41, 0x42] 0x0000) (dev .idle false)) =
      some (.device .idle, [0xA5, 0xF0, 0x01, 0x00, 0x00, 0x5A], [], []) := by decide
/-- V76. -/
theorem test_writemem_session_type :
    effect (exec (.writemem 0x01 0x0000) (dev .idle false)) =
      some (.device .write, [0xA5, 0x10, 0x00, 0x00, 0x5A], [.arm 1500], []) := by decide

/-! Requests and timers: V84 to V97. -/

/-- V86. -/
theorem test_req_busy :
    effect (handle (.req .ping) { hst .init true none with pendOp := some .read }) =
      some (.host .init, [], [], [.rejected .ping .busy]) := by decide
/-- V84. -/
theorem test_req_size_mismatch :
    effect (handle (.req (.write (List.replicate 100 0x00))) (hst .idle false none)) =
      some (.host .idle, [], [], [.opFinished .write .sizeMismatch]) := by decide
/-- V88. -/
theorem test_live_tick :
    effect (handle .liveTick (hst .idle false none)) =
      some (.host .waitPing, [0xA5, 0x02, 0x00, 0x00, 0x5A], [.arm 2000], []) := by decide
/-- V90. -/
theorem test_timer_fired_in_a_read :
    effect (handle .timerFired { hst .waitReadmemData true (some .read) with xferCnt := 0x300 }) =
      some (.host .init, [0xA5, 0x01, 0x00, 0x00, 0x5A], [.arm 2000],
        [.opFinished .read (.err 0x07), .reconnect 0x07]) := by decide
/-- V91. -/
theorem test_timer_fired_in_memid :
    effect (handle .timerFired { hst .memid true none with pendOp := some .read }) =
      some (.host .halted, [], [], [.opFinished .read (.err 0x07), .fatal 0x07]) := by decide
/-- V95. -/
theorem test_timer_fired_device :
    effect (handle .timerFired (dev .waitMemid true)) =
      some (.device .disconnected, [0xA5, 0xF0, 0x07, 0x00, 0x00, 0x5A], [], []) := by decide
/-- V96. -/
theorem test_req_disconnect :
    effect (handle .reqDisconnect { hst .waitWritememAck true (some .write) with pendOp := some .ping }) =
      some (.host .disconnected, [0xA5, 0x0F, 0x00, 0x00, 0x5A], [.cancel],
        [.opFinished .write .disconnected, .opFinished .ping .disconnected]) := by decide
/-- V97. -/
theorem test_frame_ignored_while_disconnected :
    effect (exec (.init 0x0000) (State.resetOf Cfg.default .host)) = some (.host .disconnected, [], [], []) := by decide
/-- V99. -/
theorem test_reset_event :
    regs (handle .reset { dev .read true with xferCnt := 0x300 }) = some (0x00, false, 0, 0, 0x00) := by decide

/-- The step that follows `withFetchWord` delivers the instruction: `INIT` on the DEVICE of the reset state (V36). -/
theorem test_fetch_word_runs :
    effect (step (State.reset.withFetchWord 8 0x01)) =
      some (.device .waitMemid, [0xA5, 0x01, 0x00, 0x00, 0x5A], [.arm 2000], []) := by decide

/-! Witnesses: for each statement with hypotheses, a state and operands that meet them, at the boundaries of each clause. -/

/-- A state whose next events are `es`. -/
def evs (es : List Event) (s : State) : State := { s with events := es }

/-- A decoder in a given state of a MEMDATA frame: 256 payload bytes, `n` of them counted. -/
def decAt (r : RxState) (n : U9) : Decoder :=
  { Decoder.reset with rxState := r, rxCmd := 0x70, rxKnown := true, rxLen := 256, rxCnt := n }

/-- A state in STRICT mode. -/
def strict (s : State) : State := { s with cfg := { s.cfg with checksumMode := .strict } }

/-- A checksum that does not validate in STRICT mode. -/
theorem strict_refuses (s : State) (c : Byte) (P : List Byte) :
    validate (strict s).cfg c P (Config.csumFn c P + 1) = false := by
  simp [validate, strict]

theorem witness_StepRunsTheDecodedInstruction :
    let s := { dev .write true with events := [.rxByte 0x5A], dec := decAt .readEnd 0 }
    s.events = .rxByte 0x5A :: [] ∧ s.dec.rxState = .readEnd ∧ s.dec.rxKnown = true ∧ s.dec.rxLen.toNat ≤ 256 ∧
      (⟨s.dec.rxCmd, rxPayload s.decCtx s.dec, s.dec.rxCsum⟩ : Frame).instr =
        some (.memdata (rxPayload s.decCtx s.dec) 0x0000) := ⟨rfl, rfl, rfl, by decide, rfl⟩

theorem witness_ByteStreamRunsTheInstruction :
    let s := evs ((encode (.memid 0xFF 0xFFFF)).map Event.rxByte ++ [.txByte]) (dev .waitMemid true)
    s.cfg.infoLen ≤ 256 ∧ Instr.wf s.decCtx (.memid 0xFF 0xFFFF) = true ∧ s.dec.rxState = .seekStart ∧
      s.events = (encode (.memid 0xFF 0xFFFF)).map Event.rxByte ++ [.txByte] := by decide

theorem witness_DecodeInvertsEncode :
    (ctxInfo 256).infoLen ≤ 256 ∧ Instr.wf (ctxInfo 256) (.info (List.replicate 256 0xA5) 0xFFFF) = true := by
  decide +kernel

theorem witness_DecodedBytesAreTheEncoding :
    ctx.infoLen ≤ 256 ∧ decode ctx [0xA5, 0x71, 0x7F, 0x00, 0x00, 0x5A, 0x13] = .ok (.data 0x7F 0x0000, [0x13]) :=
  ⟨by decide, rfl⟩

theorem witness_ResynchronisesAfterAHarmlessPrefix :
    ctx.infoLen ≤ 256 ∧ known 0x03 = true ∧ [0xFF].length = plen ctx 0x03 ∧ Decoder.reset.rxState = .seekStart ∧
      (decodeRun ctx Decoder.reset [0x00, 0x5A]).2 = [] ∧
      (decodeRun ctx Decoder.reset [0x00, 0x5A]).1.rxState = .seekStart ∧
      ∀ b ∈ ([0x00, 0x5A] : List Byte), b ≠ 0xA5 := by decide

theorem witness_FalseStartConsumesOneFrame :
    (ctxInfo 256).infoLen ≤ 256 ∧ Decoder.reset.rxState = .seekStart ∧
      (List.replicate 259 (0xA5 : Byte)).length = plen (ctxInfo 256) 0x72 + 3 ∧
      ([0xA5, 0xA5, 0x5A] : List Byte).length = plen (ctxInfo 256) 0xEE + 3 ∧ 2 < ([0xA5, 0xA5, 0x5A] : List Byte).length :=
  ⟨by decide, rfl, by rw [List.length_replicate]; rfl, rfl, by decide⟩

theorem witness_SeekStartWaitsForTheStartMarker :
    (evs [.rxByte 0xA5] (dev .idle false)).events = .rxByte 0xA5 :: [] ∧ (dev .idle false).dec.rxState = .seekStart :=
  ⟨rfl, rfl⟩

theorem witness_ReadCommandSamplesTheLength :
    (evs [.rxByte 0x70] (dev .idle false)).events = .rxByte 0x70 :: [] ∧ (decAt .readCommand 0).rxState = .readCommand :=
  ⟨rfl, rfl⟩

theorem witness_ReadDataStoresTheByte :
    let s := { evs [.rxByte 0x5A] (dev .write true) with dec := decAt .readData 255 }
    s.events = .rxByte 0x5A :: [] ∧ s.dec.rxState = .readData ∧ s.dec.rxCnt.toNat < 256 := by decide

theorem witness_ReadChecksumIsBigEndian :
    let s := { evs [.rxByte 0x12] (dev .write true) with dec := decAt .readChecksum 0 }
    let t := { evs [.rxByte 0x34] (dev .write true) with dec := decAt .readChecksum 1 }
    s.events = .rxByte 0x12 :: [] ∧ s.dec.rxState = .readChecksum ∧ s.dec.rxCnt = 0 ∧
      t.events = .rxByte 0x34 :: [] ∧ t.dec.rxState = .readChecksum ∧ t.dec.rxCnt ≠ 0 := by decide

theorem witness_ReadEndDropsBrokenFrames :
    let s := { evs [.rxByte 0x5B] (dev .write true) with dec := decAt .readEnd 0 }
    let t := { evs [.rxByte 0x5A] (dev .write true) with dec := { decAt .readEnd 0 with rxKnown := false } }
    s.events = .rxByte 0x5B :: [] ∧ s.dec.rxState = .readEnd ∧ s.dec.rxLen.toNat ≤ 256 ∧ (0x5B : Byte) ≠ 0x5A ∧
      t.events = .rxByte 0x5A :: [] ∧ t.dec.rxState = .readEnd ∧ t.dec.rxLen.toNat ≤ 256 ∧ t.dec.rxKnown = false := by
  decide

theorem witness_MemorySizesByCode : (0x04 : Byte) ≠ 0x01 ∧ (0x04 : Byte) ≠ 0x02 ∧ (0x04 : Byte) ≠ 0x03 := by decide

theorem witness_FrameLayoutAndChecksumUnit :
    Cfg.default.checksumMode = .none ∧ (strict (dev .idle false)).cfg.checksumMode = .strict := ⟨rfl, rfl⟩

theorem witness_TxByteMovesTheFrontByte :
    let s := evs [.txByte] { dev .idle false with txq := [0xA5, 0x5A] }
    s.events = .txByte :: [] ∧ s.txq = 0xA5 :: [0x5A] ∧
      (evs [.txByte] (dev .idle false)).events = .txByte :: [] ∧ (evs [.txByte] (dev .idle false)).txq = [] :=
  ⟨rfl, rfl, rfl, rfl⟩

theorem witness_NoRuleSendsAWrongLength :
    let s := evs [.liveTick] (hst .idle false none)
    (∃ s', step s = .next s') ∧ s.fltTxLen = false := ⟨⟨_, rfl⟩, rfl⟩

theorem witness_ArmAndCancelTheReplyTimer :
    (dev .read true).timerArmed = true ∧ (dev .idle false).timerArmed = false := ⟨rfl, rfl⟩

theorem witness_IdealBackendIsAnArray :
    let s := { dev .read true with backend := .ideal [(0x7FF, 0xAA)] }
    s.backend = .ideal [(0x7FF, 0xAA)] ∧ (memRead 0x7FF 1 s).1 = some [0xAA] := by decide

theorem witness_HostReconnectsOnErrors :
    let s := hst .waitReadmemData true (some .read)
    let t := { hst .disconnected false none with linkEn := false }
    s.link = .host .waitReadmemData ∧ s.linkEn = true ∧ t.link = .host .disconnected ∧ t.linkEn = false ∧
      (Exn.retryExceeded, (6 : Byte)) ∈
        ([(.protocolViolation, 1), (.checksumFailure, 5), (.retryExceeded, 6)] : List (Exn × Byte)) := by decide

theorem witness_DeviceReportsErrorsAndMakesItselfSafe :
    (dev .read true).link = .device .read ∧ DevState.read ≠ .write ∧ (dev .write true).link = .device .write := by decide

theorem witness_TimerExpiryRunsTheTimeoutHandler :
    let s := evs [.timerFired] (hst .waitWritememAck true (some .write))
    let t := evs [.timerFired] (hst .memid true none)
    let u := evs [.timerFired] (dev .waitMemid true)
    let v := evs [.timerFired] (dev .idle false)
    s.events = .timerFired :: [] ∧ s.timerArmed = true ∧ s.link = .host .waitWritememAck ∧ s.linkEn = true ∧
      HostState.waitWritememAck ∈
        ([.init, .waitPing, .waitReadmemOk, .waitReadmemData, .waitWritememOk, .waitWritememAck] : List HostState) ∧
      t.events = .timerFired :: [] ∧ t.timerArmed = true ∧ t.link = .host .memid ∧
      u.events = .timerFired :: [] ∧ u.timerArmed = true ∧ u.link = .device .waitMemid ∧
      DevState.waitMemid ∈ ([.waitMemid, .read, .write] : List DevState) ∧
      v.events = .timerFired :: [] ∧ v.timerArmed = false := by decide

theorem witness_DeliveryChecksInOrder :
    (hst .disconnected false none).link = .host .disconnected ∧ (hst .halted false none).link = .host .halted ∧
      (strict (dev .write true)).link ≠ .host .disconnected ∧ (strict (dev .write true)).link ≠ .host .halted ∧
      validate (strict (dev .write true)).cfg (Instr.opcode (.memdata [0x01] (Config.csumFn 0x70 [0x01] + 1))) [0x01]
        (Config.csumFn 0x70 [0x01] + 1) = false :=
  ⟨rfl, rfl, by decide, by decide, strict_refuses _ _ _⟩

theorem witness_UnexpectedCommandsAreViolations :
    (hst .waitPing true none).link ≠ .host .disconnected ∧ (hst .waitPing true none).link ≠ .host .halted ∧
      validate (hst .waitPing true none).cfg 0xF0 [0x01] 0x0000 = true ∧
      Instr.acceptedIn (.err 0x01 0x0000) (hst .waitPing true none).link = false := by decide

theorem witness_UnassignedCommandsAreAlwaysViolations :
    validate Cfg.default 0x00 [] 0x0000 = true ∧ validate Cfg.default 0xA5 [] 0x0000 = true ∧
      validate Cfg.default 0x5A [] 0x0000 = true ∧ validate Cfg.default 0x71 [0x7F] 0x0000 = true ∧
      validate Cfg.default 0x72 [0x41, 0x42] 0x0000 = true ∧ (hst .idle false none).cfg = Cfg.default ∧
      (hst .idle false none).link = .host .idle ∧ HostState.idle ≠ .disconnected ∧ HostState.idle ≠ .halted ∧
      (hst .idle false none).linkEn = true ∧ (dev .idle false).cfg = Cfg.default ∧
      (dev .idle false).link = .device .idle := by decide

theorem witness_InitOpensTheHandshake :
    validate (hst .init true none).cfg 0x01 [] 0xFFFF = true ∧ (hst .init true none).link = .host .init ∧
      validate (dev .write true).cfg 0x01 [] 0x0000 = true ∧ (dev .write true).link = .device .write := by decide

theorem witness_PingIsAnsweredFromIdle :
    validate (dev .idle false).cfg 0x02 [] 0x0000 = true ∧ (dev .idle false).link = .device .idle := by decide

theorem witness_MemidFixesTheMemoryType :
    validate (dev .waitMemid true).cfg 0x03 [0x03] 0x0000 = true ∧ (dev .waitMemid true).link = .device .waitMemid ∧
      MemType.t24LC256 ∈ (dev .waitMemid true).cfg.devSupported ∧ memCode .t24LC256 = 0x03 ∧
      validate (dev .waitMemid true).cfg 0x03 [0x04] 0x0000 = true ∧
      ∀ m ∈ (dev .waitMemid true).cfg.devSupported, memCode m ≠ 0x04 := by decide

theorem witness_DisconnectEndsTheSession :
    validate (dev .read true).cfg 0x0F [] 0x0000 = true ∧ (dev .read true).link = .device .read := by decide

theorem witness_OkMovesTheHostOn :
    let s := { hst .waitWritememOk true (some .write) with memtype := 0x03, xferCnt := 0x7F00 }
    validate s.cfg 0x10 [] 0x0000 = true ∧ (hst .memid true none).link = .host .memid ∧
      (hst .waitReadmemOk true (some .read)).link = .host .waitReadmemOk ∧ s.link = .host .waitWritememOk ∧
      s.xferCnt.toNat + memdataLen s.decCtx ≤ 0x8000 := by decide

theorem witness_TxrxAckMovesTheHostOn :
    let s := { hst .waitWritememAck true (some .write) with xferCnt := 0x600, blkLen := 0x100 }
    let t := { hst .waitWritememAck true (some .write) with xferCnt := 0x700, blkLen := 0x100 }
    validate Cfg.default 0x11 [] 0x0000 = true ∧ s.cfg = Cfg.default ∧ t.cfg = Cfg.default ∧
      (hst .waitPing true (some .ping)).link = .host .waitPing ∧ (hst .waitPing true (some .ping)).curOp = some .ping ∧
      (hst .waitPing true none).link = .host .waitPing ∧ (hst .waitPing true none).curOp ≠ some .ping ∧
      s.link = .host .waitWritememAck ∧ s.xferCnt.toNat + s.blkLen.toNat < memsize s.memtype ∧
      t.link = .host .waitWritememAck ∧ memsize t.memtype ≤ t.xferCnt.toNat + t.blkLen.toNat := by decide

theorem witness_DeviceServesTheNextBlock :
    let s := { dev .read true with xferCnt := 0x800 }
    let t := { dev .read true with xferCnt := 0x700, backend := .oracle [.error] 0 }
    let u := { dev .read true with xferCnt := 0x700, backend := .ideal [] }
    validate Cfg.default 0x61 [] 0x0000 = true ∧ validate Cfg.default 0x11 [] 0x0000 = true ∧
      (s.cfg = Cfg.default ∧ t.cfg = Cfg.default ∧ u.cfg = Cfg.default) ∧ s.link = .device .read ∧
      memsize s.memtype ≤ s.xferCnt.toNat ∧ t.link = .device .read ∧ t.xferCnt.toNat < memsize t.memtype ∧
      (memRead t.xferCnt.toNat (memdataLen t.decCtx) t).1 = none ∧ u.link = .device .read ∧
      u.xferCnt.toNat < memsize u.memtype ∧ ∃ r, (memRead u.xferCnt.toNat (memdataLen u.decCtx) u).1 = some r :=
  ⟨rfl, rfl, ⟨rfl, rfl, rfl⟩, rfl, by decide, rfl, by decide, rfl, rfl, by decide, _, rfl⟩

theorem witness_TxrxDoneConcludesATransfer :
    let s := { hst .waitWritememAck true (some .write) with xferCnt := 0x700, blkLen := 0x100 }
    let t := { hst .waitWritememAck true (some .write) with xferCnt := 0x600, blkLen := 0x100 }
    let u := { dev .read true with xferCnt := 0x800 }
    let v := { dev .read true with xferCnt := 0x700 }
    validate Cfg.default 0x12 [] 0x0000 = true ∧
      (s.cfg = Cfg.default ∧ t.cfg = Cfg.default ∧ u.cfg = Cfg.default ∧ v.cfg = Cfg.default) ∧
      s.link = .host .waitWritememAck ∧ s.xferCnt.toNat + s.blkLen.toNat = memsize s.memtype ∧
      t.link = .host .waitWritememAck ∧ t.xferCnt.toNat + t.blkLen.toNat ≠ memsize t.memtype ∧
      u.link = .device .read ∧ u.xferCnt.toNat = memsize u.memtype ∧
      v.link = .device .read ∧ v.xferCnt.toNat ≠ memsize v.memtype := by decide

theorem witness_ErrIsReportedOrEndsTheOperation :
    validate Cfg.default 0xF0 [0xFF] 0x0000 = true ∧ (hst .memid true none).link = .host .memid ∧
      (hst .idle false none).link = .host .idle ∧
      (hst .waitWritememAck true (some .write)).link = .host .waitWritememAck ∧
      HostState.waitWritememAck ∈
        ([.waitReadmemOk, .waitReadmemData, .waitWritememOk, .waitWritememAck] : List HostState) ∧
      (dev .disconnected false).link = .device .disconnected := by decide

theorem witness_TxrxErrResendsUpToTheCeiling :
    let s := { hst .waitWritememAck true (some .write) with memtype := 0x03, xferCnt := 0x7F00, retryCnt := 9 }
    let t := { hst .waitWritememAck true (some .write) with retryCnt := 10 }
    validate s.cfg 0xF1 [] 0x0000 = true ∧ s.link = .host .waitWritememAck ∧ s.retryCnt.toNat < s.cfg.maxRetry ∧
      s.xferCnt.toNat + memdataLen s.decCtx ≤ 0x8000 ∧ validate t.cfg 0xF1 [] 0x0000 = true ∧
      t.link = .host .waitWritememAck ∧ t.cfg.maxRetry ≤ t.retryCnt.toNat ∧ t.linkEn = true := by decide

theorem witness_ReadmemAndWritememBeginATransfer :
    (dev .idle false).link = .device .idle ∧ validate (dev .idle false).cfg 0x60 [0x01] 0x0000 = true ∧
      (0x01 : Byte) = (dev .idle false).memtype ∧ (0x02 : Byte) ≠ (dev .idle false).memtype ∧
      validate (dev .idle false).cfg 0x60 [0x02] 0x0000 = true ∧
      validate (dev .idle false).cfg 0x80 [0x01] 0x0000 = true ∧
      validate (dev .idle false).cfg 0x80 [0x02] 0x0000 = true := by decide

theorem witness_HostCollectsABlock :
    let s := { hst .waitReadmemData true (some .read) with xferCnt := 0x6FF }
    let t := { hst .waitReadmemData true (some .read) with memtype := 0x03, xferCnt := 0x7F00 }
    let P : List Byte := List.replicate 256 0xA5
    validate s.cfg 0x70 P 0x0000 = true ∧ s.link = .host .waitReadmemData ∧ s.xferCnt.toNat + P.length < memsize s.memtype ∧
      validate t.cfg 0x70 P 0x0000 = true ∧ t.link = .host .waitReadmemData ∧ t.xferCnt.toNat + P.length ≤ 0x8000 ∧
      memsize t.memtype ≤ t.xferCnt.toNat + P.length := by decide +kernel

theorem witness_DeviceWritesVerifiesAcknowledges :
    let s := { dev .write true with xferCnt := 0x800 }
    let t := { dev .write true with xferCnt := 0x7FF, backend := .oracle [.error] 0 }
    let u := { dev .write true with xferCnt := 0x7FF, backend := .oracle [.ok [], .ok [0x55]] 0 }
    let v := { dev .write true with xferCnt := 0x7FE, backend := .oracle [.ok [], .ok [0xAA]] 0 }
    validate Cfg.default 0x70 [0xAA] 0x0000 = true ∧
      (s.cfg = Cfg.default ∧ t.cfg = Cfg.default ∧ u.cfg = Cfg.default ∧ v.cfg = Cfg.default) ∧
      s.link = .device .write ∧ memsize s.memtype ≤ s.xferCnt.toNat ∧
      (t.link = .device .write ∧ t.xferCnt.toNat + 1 ≤ memsize t.memtype ∧
        (memWrite t.xferCnt.toNat [0xAA] t).1 = false) ∧
      (u.link = .device .write ∧ u.xferCnt.toNat + 1 = memsize u.memtype ∧
        ∃ w, memWrite u.xferCnt.toNat [0xAA] u = (true, w) ∧ (memRead u.xferCnt.toNat 1 w).1 ≠ some [0xAA] ∧
          (memRead u.xferCnt.toNat 1 w).1 = some [0x55]) ∧
      (v.link = .device .write ∧ v.xferCnt.toNat + 1 < memsize v.memtype ∧
        ∃ w, memWrite v.xferCnt.toNat [0xAA] v = (true, w) ∧ (memRead v.xferCnt.toNat 1 w).1 = some [0xAA]) :=
  ⟨rfl, ⟨rfl, rfl, rfl, rfl⟩, rfl, by decide, ⟨rfl, by decide, rfl⟩, ⟨rfl, by decide, _, rfl, by decide, rfl⟩,
    ⟨rfl, by decide, _, rfl, rfl⟩⟩

/-- The last block of a memory, written and verified on the ideal backend: the clause that ends in `TXRX_DONE`. -/
theorem witness_DeviceWritesVerifiesAcknowledges_last :
    let s := { dev .write true with xferCnt := 0x7FF, backend := .ideal [] }
    validate s.cfg 0x70 [0xAA] 0x0000 = true ∧ s.link = .device .write ∧ s.xferCnt.toNat + 1 = memsize s.memtype ∧
      ∃ w, memWrite s.xferCnt.toNat [0xAA] s = (true, w) ∧ (memRead s.xferCnt.toNat 1 w).1 = some [0xAA] :=
  ⟨rfl, rfl, by decide, _, rfl, rfl⟩

theorem witness_BlocksOutsideABufferStop :
    let s := { hst .waitReadmemData true (some .read) with memtype := 0x03, xferCnt := 0x8000 }
    let t := { dev .write true with xferCnt := 0x7FF }
    let u := { hst .waitWritememOk true (some .write) with xferCnt := 0x7F01 }
    let v := { hst .waitWritememAck true (some .write) with xferCnt := 0x7F01, retryCnt := 9 }
    validate Cfg.default 0x70 [0xAA] 0x0000 = true ∧ validate Cfg.default 0x70 [] 0x0000 = true ∧
      (s.cfg = Cfg.default ∧ t.cfg = Cfg.default ∧ u.cfg = Cfg.default ∧ v.cfg = Cfg.default) ∧
      s.link = .host .waitReadmemData ∧ 0x8000 < s.xferCnt.toNat + ([0xAA] : List Byte).length ∧
      t.link = .device .write ∧ t.xferCnt.toNat < memsize t.memtype ∧ ([] : List Byte).length = 0 ∧
      256 < (List.replicate 257 (0xAA : Byte)).length ∧
      memsize t.memtype < t.xferCnt.toNat + ([0xAA, 0xAA] : List Byte).length ∧
      0x8000 < u.xferCnt.toNat + memdataLen u.decCtx ∧ validate u.cfg 0x10 [] 0x0000 = true ∧
      u.link = .host .waitWritememOk ∧ 0x8000 < v.xferCnt.toNat + memdataLen v.decCtx ∧
      validate v.cfg 0xF1 [] 0x0000 = true ∧ v.link = .host .waitWritememAck ∧ v.retryCnt.toNat < v.cfg.maxRetry :=
  ⟨rfl, rfl, ⟨rfl, rfl, rfl, rfl⟩, rfl, by decide, rfl, by decide, rfl, by rw [List.length_replicate]; decide, by decide,
    by decide, rfl, rfl, by decide, rfl, rfl, by decide⟩

theorem witness_RequestsAreServedDeferredOrAnswered :
    let h := evs [.req .read] (hst .halted false none)
    let m := evs [.req (.write [0x00])] (hst .init true none)
    let b := evs [.req .ping] { hst .init true none with pendOp := some .read }
    let c := evs [.req .read] (hst .waitPing true (some .ping))
    let d := evs [.req .ping] (hst .idle false none)
    (h.events = .req .read :: [] ∧ h.link = .host .halted) ∧
      (m.events = .req (.write [0x00]) :: [] ∧ m.link = .host .init ∧ HostState.init ≠ .halted ∧
        ([0x00] : List Byte).length ≠ memTypeSize m.cfg.hostTarget) ∧
      (b.events = .req .ping :: [] ∧ b.link = .host .init ∧ b.pendOp ≠ none) ∧
      (c.events = .req .read :: [] ∧ c.link = .host .waitPing ∧ c.pendOp = none ∧
        ¬ (Request.read.op = .write ∧ (c.curOp = some .read ∨ c.curOp = some .write)) ∧ HostState.waitPing ≠ .idle) ∧
      (d.events = .req .ping :: [] ∧ d.link = .host .idle ∧ d.pendOp = none) := by decide

/-- The clauses about a write of the target's size: rejected while a transfer is in flight, begun at once when idle. -/
theorem witness_RequestsAreServedDeferredOrAnswered_write :
    let r : Request := .write (List.replicate 0x800 0xFF)
    let b := evs [.req r] (hst .waitReadmemData true (some .read))
    let d := evs [.req r] (hst .idle false none)
    (List.replicate 0x800 (0xFF : Byte)).length = memTypeSize b.cfg.hostTarget ∧ b.events = .req r :: [] ∧
      b.link = .host .waitReadmemData ∧ r.op = .write ∧ b.curOp = some .read ∧
      d.events = .req r :: [] ∧ d.link = .host .idle ∧ d.pendOp = none ∧ d.curOp = none :=
  ⟨by rw [List.length_replicate]; rfl, rfl, rfl, rfl, rfl, rfl, rfl, rfl, rfl⟩

theorem witness_ConnectRequestSendsInit :
    (evs [.reqConnect] (hst .disconnected false none)).events = .reqConnect :: [] ∧
      (hst .disconnected false none).link = .host .disconnected ∧
      (evs [.reqConnect] (hst .halted false none)).events = .reqConnect :: [] ∧ HostState.halted ≠ .disconnected :=
  ⟨rfl, rfl, rfl, by decide⟩

theorem witness_DisconnectRequestTearsDown :
    (evs [.reqDisconnect] (hst .halted false none)).events = .reqDisconnect :: [] ∧
      (hst .halted false none).link = .host .halted ∧
      (hst .waitPing true none).link = .host .waitPing ∧ HostState.waitPing ≠ .halted ∧
      HostState.waitPing ≠ .disconnected ∧ (hst .disconnected false none).link = .host .disconnected ∧
      HostState.disconnected ≠ .halted := by decide

theorem witness_LiveTickPingsFromIdleOnly :
    let s := evs [.liveTick] (hst .idle false none)
    let t := evs [.liveTick] { hst .idle false none with pendOp := some .ping }
    s.events = .liveTick :: [] ∧ s.link = .host .idle ∧ s.curOp = none ∧ s.pendOp = none ∧
      t.events = .liveTick :: [] ∧ t.pendOp ≠ none ∧ (dev .idle false).link ≠ .host .idle ∧
      (hst .waitPing true (some .ping)).curOp ≠ none := by decide

theorem witness_DeviceHasNoApplicationPort :
    (evs [.req (.write [])] (dev .idle false)).events = .req (.write []) :: [] ∧
      (evs [.reqConnect] (dev .idle false)).events = .reqConnect :: [] ∧
      (evs [.reqDisconnect] (dev .idle false)).events = .reqDisconnect :: [] ∧
      (evs [.liveTick] (dev .idle false)).events = .liveTick :: [] ∧ (dev .idle false).link = .device .idle :=
  ⟨rfl, rfl, rfl, rfl, rfl⟩

theorem witness_ResetClearsEveryRegister :
    (evs [.reset, .txByte] (hst .halted false none)).events = .reset :: [.txByte] ∧
      (hst .halted false none).link = .host .halted ∧
      (evs [.reset] (dev .write true)).events = .reset :: [] ∧ (dev .write true).link = .device .write :=
  ⟨rfl, rfl, rfl, rfl⟩

theorem witness_RoleAndParametersNeverChange : ∃ s', step (evs [.reset] (hst .halted false none)) = .next s' := ⟨_, rfl⟩

theorem witness_MemoryTypeIsFixedForTheSession :
    (∃ s', step (evs [.liveTick] (hst .idle false none)) = .next s' ∧ s'.link = .host .waitPing) ∧
      HostState.idle.sessionless = false ∧ HostState.waitPing.sessionless = false ∧
      (∃ s', step (evs [.timerFired] (dev .read true)) = .next s' ∧ s'.link = .device .idle) ∧
      DevState.read.inSession = true ∧ DevState.idle.inSession = true :=
  ⟨⟨_, rfl, rfl⟩, rfl, rfl, ⟨_, rfl, rfl⟩, rfl, rfl⟩

theorem witness_HaltedHostIsStuckAndSilent :
    let s := evs [.reqConnect] (hst .halted false none)
    s.link = .host .halted ∧ s.events.head? ≠ some .reset ∧ ∃ s', step s = .next s' := ⟨rfl, by decide, _, rfl⟩

theorem witness_AcknowledgedBlocksAreVerified :
    let s := { dev .write true with backend := .ideal [] }
    let u := { dev .write true with xferCnt := 0x7FF, backend := .ideal [] }
    s.link = .device .write ∧
      (∃ t, exec (.memdata [0xAA] 0x0000) s = .next t ∧ t.txq = s.txq ++ encodeFrame s.cfg 0x11 []) ∧
      u.link = .device .write ∧
      ∃ t, exec (.memdata [0xAA] 0x0000) u = .next t ∧ t.txq = u.txq ++ encodeFrame u.cfg 0x12 [] :=
  ⟨rfl, ⟨_, rfl, by decide⟩, rfl, _, rfl, by decide⟩

/-- A HOST that receives the last byte of a 24LC16 image; the block is cut to one byte, since its content plays no part. -/
def lastByte : State :=
  { evs [.rxByte 0x5A] (hst .waitReadmemData true (some .read)) with
    xferCnt := 0x7FF, dec := { Decoder.reset with rxState := .readEnd, rxCmd := 0x70, rxKnown := true, rxLen := 1 } }

/-- The events that a step emits. -/
def emitted (r : Result) : List AppEvent :=
  match r with
  | .next t => t.appEv
  | .fault _ => []
  | .refused _ => []

theorem test_last_byte_hands_over_the_image :
    emitted (step lastByte) =
      [.memReceived ((lastByte.xferBuf.writeBytes 0x7FF [Config.rxBufByte 0 0]).readBytes (Config.xferBufByte 0) 0 0x800),
        .opFinished .read .ok] := by rfl

/-- R242 with R180, R183 and R184: the last block of a read with a ping deferred queues TXRX_DONE and then PING, where R172 derives one SEND per step (log entry 10). -/
theorem test_last_byte_serves_the_deferred_ping :
    ((effect (step { lastByte with pendOp := some .ping })).map (fun r => (r.1, r.2.1))) =
      some (.host .waitPing, [0xA5, 0x12, 0x00, 0x00, 0x5A, 0xA5, 0x02, 0x00, 0x00, 0x5A]) := by rfl

theorem witness_ImagesReachTheApplicationWhole :
    ∃ s' evs img, step lastByte = .next s' ∧ s'.appEv = lastByte.appEv ++ evs ∧ AppEvent.memReceived img ∈ evs := by
  have h := test_last_byte_hands_over_the_image
  cases hs : step lastByte with
  | next t => rw [hs] at h; exact ⟨t, _, _, rfl, h, List.mem_cons_self⟩
  | fault _ => rw [hs] at h; cases h
  | refused _ => rw [hs] at h; cases h

theorem witness_CommandsKeepWhatTheyDoNotWrite :
    let s := { dev .idle false with backend := .ideal [(0, 0xAA)] }
    (∃ t, exec (.ping 0x0000) s = .next t) ∧ s.link = .device .idle ∧ (Instr.ping 0x0000).opcode ≠ 0x70 ∧
      s.backend = .ideal [(0, 0xAA)] ∧ (∃ t, exec (.init 0x0000) (hst .init true none) = .next t) ∧
      (hst .init true none).link = .host .init := ⟨⟨_, rfl⟩, rfl, by decide, rfl, ⟨_, rfl⟩, rfl⟩

theorem witness_ResetStatesMeetTheInvariant : Cfg.default.wf := by decide

/-- A DEVICE that serves a read, in the middle of a received READNEXT frame, meets the invariant. -/
theorem witness_Inv_device :
    ({ evs [.rxByte 0x61] (dev .read true) with
        xferCnt := 0x700, dec := { Decoder.reset with rxState := .readEnd, rxCmd := 0x61, rxKnown := true } } : State).Inv where
  cfg_wf := by decide
  decoder :=
    { len_le := by decide
      data_cnt := by decide
      csum_cnt := by decide
      known_cmd := fun _ => rfl
      len_cmd := fun _ => rfl
      data_written := by decide
      all_written := fun _ i h => absurd h (Nat.not_lt_zero i) }
  memory :=
    { rx_wf := by decide
      rx_below := by decide
      xfer_wf := by decide
      xfer_below := by decide
      backend_wf := fun _ h => by cases h }
  counters := { xfer_le := by decide, xfer_mult := by decide, retry_le := by decide, txq_le := by decide }
  dispatcher :=
    { not_ping := by decide
      memtype_eq := by decide
      connected_eq := by decide
      timer := by decide
      resting := by decide
      writing := by decide
      host_registers := by decide
      host_buffer := by decide }

/-- A HOST that waits for the answer of a ping, with a read deferred, meets the invariant. -/
theorem witness_Inv_host :
    ({ evs [.timerFired] (hst .waitPing true (some .ping)) with pendOp := some .read } : State).Inv where
  cfg_wf := by decide
  decoder :=
    { len_le := by decide
      data_cnt := by decide
      csum_cnt := by decide
      known_cmd := fun h => by rcases h with h | h | h <;> cases h
      len_cmd := fun h => by rcases h with h | h | h <;> cases h
      data_written := by decide
      all_written := fun h => by rcases h with h | h <;> cases h }
  memory :=
    { rx_wf := by decide
      rx_below := by decide
      xfer_wf := by decide
      xfer_below := by decide
      backend_wf := fun _ h => by cases h }
  counters := { xfer_le := by decide, xfer_mult := by decide, retry_le := by decide, txq_le := by decide }
  dispatcher :=
    { memtype_eq := by decide
      enabled := by decide
      connected_eq := by decide
      cur_op := .inr rfl
      pend_op := fun h => by rcases h with h | h <;> cases h
      timer := by decide
      progress := trivial
      read_written := by decide
      write_written := by decide }

/-- The hypotheses of `StepsKeepTheInvariant`, `GoodStatesNeverStop` and `InvariantGivesTheBoundsOfR51`: states that meet the invariant, and steps from them that answer a next state. -/
theorem witness_StepsKeepTheInvariant :
    (∃ s s' : State, s.Inv ∧ step s = .next s' ∧ s.link = .device .read ∧ s.dec.rxState = .readEnd) ∧
      ∃ s s' : State, s.Inv ∧ step s = .next s' ∧ s.link = .host .waitPing :=
  ⟨⟨_, _, witness_Inv_device, rfl, rfl, rfl⟩, _, _, witness_Inv_host, rfl, rfl⟩

/-- A good state and a step that sends; a waiting HOST and an event with which it stays silent; a step that sends two frames. -/
theorem witness_FramesLeaveWholeAndInOrder :
    (∃ s s' : State, s.Inv ∧ step s = .next s' ∧ s.events.head? ≠ some .reset ∧ s'.txq ≠ []) ∧
      (let s := evs [.req .ping] (hst .waitPing true (some .ping));
        (∃ s', step s = .next s') ∧ s.link ≠ .host .idle ∧ s.link ≠ .host .disconnected ∧
          s.events.head? = some (.req .ping)) ∧
      (∃ s', step { lastByte with pendOp := some .ping } = .next s') ∧ lastByte.link = .host .waitReadmemData :=
  ⟨⟨_, _, witness_Inv_host, rfl, by decide, by decide⟩, ⟨⟨_, rfl⟩, by decide, by decide, rfl⟩, ⟨_, rfl⟩, rfl⟩

theorem witness_EveryStepSendsAtMostOneFrame :
    (∃ s', step { lastByte with pendOp := some .ping } = .next s') ∧ lastByte.events.head? ≠ some .reset :=
  ⟨⟨_, rfl⟩, by decide⟩

/-! The ideal channel (R76). -/

/-- Two bytes in flight to a DEVICE, one of which arrives. -/
theorem test_ideal_arrival :
    let l := { Link.reset Cfg.default Cfg.default with toDevice := [0xA5, 0x01] }
    (∃ t, Link.idealRun [.arriveDevice] l t ⟨[], [0xA5], [], []⟩ ∧ t.toDevice = [0x01]) ∧
      LinkEvent.ideal (.device (.rxByte 0xA5)) = false :=
  ⟨⟨_, ⟨by decide, rfl⟩, rfl⟩, rfl⟩

end Sys2Proof.Tests
end

