-- ==== Sys2Proof/Proofs/ByteStream.lean ====
section
/-! PROOFS. Receiving the bytes of a frame one step at a time is `exec` of its instruction (spec/41_framer_decode.md R135 to R144): quiet bytes move the decoder alone, the END byte delivers. Settles O1 and O2. -/

namespace Sys2Proof.Machine

open Sys2Proof.Laws

/-- The frame facts of `FrameShape`, for every instruction at once (R90, R96, R98). -/
theorem frameShape (i : Instr) : FrameShape.Statement i := by
  cases i with
  | noneCmd cs => exact FrameShape.noneCmd cs
  | init cs => exact FrameShape.init cs
  | ping cs => exact FrameShape.ping cs
  | memid t cs => exact FrameShape.memid t cs
  | startxfer cs => exact FrameShape.startxfer cs
  | endxfer cs => exact FrameShape.endxfer cs
  | disconnect cs => exact FrameShape.disconnect cs
  | ok cs => exact FrameShape.ok cs
  | txrxAck cs => exact FrameShape.txrxAck cs
  | txrxDone cs => exact FrameShape.txrxDone cs
  | err e cs => exact FrameShape.err e cs
  | txrxErr cs => exact FrameShape.txrxErr cs
  | readmem t cs => exact FrameShape.readmem t cs
  | readnext cs => exact FrameShape.readnext cs
  | memdata P cs => exact FrameShape.memdata P cs
  | data x cs => exact FrameShape.data x cs
  | info P cs => exact FrameShape.info P cs
  | writemem t cs => exact FrameShape.writemem t cs

/-! Runs of the machine, one step at a time (R14). -/

/-- A run goes on from the state that its first step answers. -/
theorem run_succ (k : Nat) (s t : State) (h : step s = .next t) :
    Host.Core.run core (k + 1) s = Host.Core.run core k t := by
  have hc : core.step s = .next t := h
  simp only [Host.Core.run, hc]

/-- A run of one step is that step. -/
theorem run_one (s : State) : Host.Core.run core 1 s = step s := by
  show Host.Core.run core 1 s = core.step s
  simp only [Host.Core.run]
  cases core.step s <;> rfl

/-! Bytes that end no frame. -/

/-- Only a command byte samples the payload length (R138). -/
theorem decodeStep_rxLen (ctx : DecCtx) (d : Decoder) (b : Byte) (h : d.rxState ≠ .readCommand) :
    (decodeStep ctx d b).1.rxLen = d.rxLen := by
  cases hs : d.rxState with
  | seekStart => rw [decodeStep_seekStart ctx d b hs]; unfold decodeSeekStart; split <;> rfl
  | readCommand => exact absurd hs h
  | readData =>
    rw [decodeStep_readData ctx d b hs]
    by_cases hl : d.rxCnt + 1 = d.rxLen
    · rw [decodeReadData_last d b hl]
    · rw [decodeReadData_more d b hl]
  | readChecksum => rw [decodeStep_readChecksum ctx d b hs]; unfold decodeReadChecksum; split <;> rfl
  | readEnd => rw [decodeStep_readEnd ctx d b hs]; rfl

/-- The step of a byte that ends no frame takes the event and moves the decoder, nothing else (R135, R136). -/
theorem step_quietByte (s : State) (b : Byte) (rest : List Event) (he : s.events = .rxByte b :: rest)
    (hr : rxInRange s.dec = true) (hq : (decodeStep s.decCtx s.dec b).2 = none) :
    step s = .next { s with events := rest, dec := (decodeStep s.decCtx s.dec b).1 } := by
  rw [step_event s _ rest he]
  exact rxByte_none b { s with events := rest } hr hq

/-- Inside a frame and before its END position, a run over received bytes only feeds them to the decoder (R139, R140). -/
theorem run_inside (k : Nat) (rest : List Event) (bs : List Byte) : ∀ s : State,
    s.dec.inside → s.dec.rxLen.toNat ≤ 256 → bs.length < s.dec.remaining →
    s.events = bs.map Event.rxByte ++ rest →
    Host.Core.run core (bs.length + k) s =
      Host.Core.run core k { s with events := rest, dec := (decodeRun s.decCtx s.dec bs).1 } := by
  induction bs with
  | nil =>
    intro s _ _ _ he
    have hs : ({ s with events := rest, dec := s.dec } : State) = s := by rw [show rest = s.events from he.symm]
    simp only [List.length_nil, Nat.zero_add, decodeRun, hs]
  | cons b bs ih =>
    intro s hin hl hr he
    simp only [List.length_cons] at hr
    obtain ⟨hq, hin', hr'⟩ := decodeStep_inside s.decCtx s.dec b hin (by omega)
    have hc : s.dec.rxState ≠ .readCommand := by
      intro h; simp [Decoder.inside, h] at hin
    have hstep := step_quietByte s b (bs.map Event.rxByte ++ rest) he (rxInRange_inside s.dec hin hl) hq
    rw [show (b :: bs).length + k = (bs.length + k) + 1 by simp only [List.length_cons]; omega,
      run_succ _ s _ hstep,
      ih _ hin' (by simpa only [decodeStep_rxLen _ _ b hc] using hl)
        (show bs.length < (decodeStep s.decCtx s.dec b).1.remaining by omega) rfl]
    rfl

/-- The same from `SeekStart`: START, a command byte and fewer bytes than bring the END position (R137, R138). -/
theorem run_start (k : Nat) (rest : List Event) (c : Byte) (bs : List Byte) (s : State) (hi : s.cfg.infoLen ≤ 256)
    (hs : s.dec.rxState = .seekStart) (hb : bs.length < plen s.decCtx c + 3)
    (he : s.events = (startByte :: c :: bs).map Event.rxByte ++ rest) :
    Host.Core.run core ((startByte :: c :: bs).length + k) s =
      Host.Core.run core k { s with events := rest, dec := (decodeRun s.decCtx s.dec (startByte :: c :: bs)).1 } := by
  have hstart := decodeStep_seekStart s.decCtx s.dec startByte hs
  have h1 := step_quietByte s startByte ((c :: bs).map Event.rxByte ++ rest) he (by simp [rxInRange, hs]) (by rw [hstart])
  rw [hstart, show decodeSeekStart s.dec startByte = { s.dec with rxState := .readCommand } from if_pos rfl] at h1
  have h2 := step_quietByte { s with
      events := (c :: bs).map Event.rxByte ++ rest, dec := { s.dec with rxState := .readCommand } }
    c (bs.map Event.rxByte ++ rest) rfl rfl rfl
  obtain ⟨hin, hrem⟩ := decodeReadCommand_inside s.decCtx { s.dec with rxState := .readCommand } c hi
  have hlen : (decodeReadCommand s.decCtx { s.dec with rxState := .readCommand } c).rxLen.toNat ≤ 256 := by
    have hp := plen_le s.decCtx hi c
    simp only [decodeReadCommand, BitVec.toNat_ofNat]
    omega
  rw [show (startByte :: c :: bs).length + k = (bs.length + k) + 1 + 1 by simp only [List.length_cons]; omega,
    run_succ _ s _ h1, run_succ _ _ _ h2, decodeRun_start s.decCtx s.dec c bs hs]
  exact run_inside k rest bs _ hin hlen (hrem ▸ hb) rfl

/-! The END byte. -/

/-- The step of a known frame's END byte is `exec` of the frame's instruction, after the decoder has returned to `SeekStart` (R141, R171). -/
theorem step_endByte (s : State) (rest : List Event) (i : Instr) (he : s.events = .rxByte endByte :: rest)
    (hs : s.dec.rxState = .readEnd) (hk : s.dec.rxKnown = true) (hl : s.dec.rxLen.toNat ≤ 256)
    (hi : (⟨s.dec.rxCmd, rxPayload s.decCtx s.dec, s.dec.rxCsum⟩ : Frame).instr = some i) :
    step s = exec i { s with events := rest, dec := { s.dec with rxState := .seekStart } } := by
  have hd : decodeStep s.decCtx s.dec endByte =
      ({ s.dec with rxState := .seekStart }, some ⟨s.dec.rxCmd, rxPayload s.decCtx s.dec, s.dec.rxCsum⟩) := by
    rw [decodeStep_readEnd s.decCtx s.dec endByte hs]
    simp [decodeReadEnd, hk]
  have hr : rxInRange s.dec = true := by simp [rxInRange, hs, rxBufSize, hl]
  rw [step_event s _ rest he]
  have h := rxByte_some endByte { s with events := rest } _ i hr (congrArg Prod.snd hd) hi
  exact h.trans (by rw [show decodeStep (State.decCtx { s with events := rest }) s.dec endByte = _ from hd])

/-- Settles O1: the END byte's step is `step_endByte`. -/
theorem stepRunsTheDecodedInstruction : Obligations.StepRunsTheDecodedInstruction := by
  intro s rest i he hs hk hl hi
  exact step_endByte s rest i he hs hk hl hi

/-- The encoding up to the END byte, as the decoder's run over a frame takes it (R123). -/
theorem encode_eq_append (i : Instr) :
    encode i = (startByte :: i.opcode :: (i.payload ++ [hiByte i.csum, loByte i.csum])) ++ [endByte] := by
  simp [encode, frameBytes]

/-- Settles O2: every byte before END is quiet (`run_start`) and leaves the frame in the decoder (`decodeRun_frame`); the END byte's step is `exec` (`step_endByte`). -/
theorem byteStreamRunsTheInstruction : Obligations.ByteStreamRunsTheInstruction := by
  intro i s rest hi hwf hs he
  obtain ⟨hknown, hinstr, -, hlen⟩ := frameShape i
  have hP := hlen s.decCtx hwf
  obtain ⟨d, hend, hcmd, hk, hcnt, hrxLen, hcs, hpay, hrun⟩ :=
    decodeRun_frame s.decCtx s.dec i.opcode i.payload i.csum hi hP hs
  have hP256 := plen_le s.decCtx hi i.opcode
  rw [encode_eq_append] at he ⊢
  rw [List.map_append, List.append_assoc] at he
  refine ⟨{ d with rxState := .seekStart }, rfl, hcmd, hk.trans hknown, hcnt, hrxLen, hcs, hpay, ?_⟩
  rw [List.length_append, List.length_singleton,
    run_start 1 _ i.opcode _ s hi hs (by simp [hP]) he, hrun, run_one]
  exact step_endByte { s with events := .rxByte endByte :: rest, dec := d } rest i rfl hend (hk.trans hknown)
    (show d.rxLen.toNat ≤ 256 by omega) (by
      show (⟨d.rxCmd, rxPayload s.decCtx d, d.rxCsum⟩ : Frame).instr = some i
      rw [hcmd, hpay, hcs, hinstr])

end Sys2Proof.Machine
end

