-- ==== Sys2Proof/Proofs/Identity.lean ====
section
/-! PROOFS. What identifies a link core, its role and its parameters (spec/00_scope.md R2, R8), is kept by every operation, exception, command and event. Settles O49. -/

namespace Sys2Proof.Machine

/-- The role that a link state belongs to (R31, R32). -/
def LinkState.role : LinkState → Role
  | .host _ => .host
  | .device _ => .device

@[simp] theorem LinkState.role_host (h : HostState) : (LinkState.host h).role = .host := rfl
@[simp] theorem LinkState.role_device (d : DevState) : (LinkState.device d).role = .device := rfl
@[simp] theorem Role.disconnected_role (r : Role) : r.disconnected.role = r := by cases r <;> rfl

theorem State.role_eq (s : State) : s.role = s.link.role := by
  unfold State.role LinkState.role; cases s.link <;> rfl

/-! The parameters under each shared operation. -/

@[simp] theorem hostAbort_cfg (res : OpResult) (s : State) : (hostAbort res s).cfg = s.cfg := by rw [hostAbort_eq]
@[simp] theorem hostAbortPending_cfg (res : OpResult) (s : State) : (hostAbortPending res s).cfg = s.cfg := by
  rw [hostAbortPending_eq]
@[simp] theorem hostEnterDisconnected_cfg (s : State) : (hostEnterDisconnected s).cfg = s.cfg := by
  unfold hostEnterDisconnected; dsimp only; split <;> simp
@[simp] theorem hostStart_cfg (op : OpKind) (s : State) : (hostStart op s).cfg = s.cfg := by
  cases op <;> simp [hostStart]
@[simp] theorem hostService_cfg (s : State) : (hostService s).cfg = s.cfg := by
  rcases hostService_cases s with ⟨-, h⟩ | ⟨op, -, h⟩ <;> simp [h]
@[simp] theorem hostToIdle_cfg (s : State) : (hostToIdle s).cfg = s.cfg := by simp [hostToIdle]
@[simp] theorem hostReconnect_cfg (kind : Byte) (s : State) : (hostReconnect kind s).cfg = s.cfg := by
  simp [hostReconnect]
@[simp] theorem hostOpFail_cfg (code : Byte) (s : State) : (hostOpFail code s).cfg = s.cfg := by simp [hostOpFail]
@[simp] theorem hostHalt_cfg (kind : Byte) (s : State) : (hostHalt kind s).cfg = s.cfg := by simp [hostHalt]
@[simp] theorem devToSafe_cfg (s : State) : (devToSafe s).cfg = s.cfg := by unfold devToSafe; dsimp only; split <;> simp
@[simp] theorem deviceError_cfg (code : ErrorCode) (s : State) : (deviceError code s).cfg = s.cfg := by
  simp [deviceError]
@[simp] theorem hostTimeout_cfg (h : HostState) (s : State) : (hostTimeout h s).cfg = s.cfg := by
  cases h <;> simp [hostTimeout]
@[simp] theorem devTimeout_cfg (d : DevState) (s : State) : (devTimeout d s).cfg = s.cfg := by
  cases d <;> simp [devTimeout]
@[simp] theorem devChecksumFailure_cfg (d : DevState) (s : State) : (devChecksumFailure d s).cfg = s.cfg := by
  cases d <;> simp [devChecksumFailure]
@[simp] theorem raise_cfg (x : Exn) (s : State) : (raise x s).cfg = s.cfg := by unfold raise; split <;> simp

/-! The role under each shared operation: a procedure that enters a host state answers a HOST whatever it starts from; the others keep the role. -/

@[simp] theorem hostAbort_link (res : OpResult) (s : State) : (hostAbort res s).link = s.link := by rw [hostAbort_eq]
@[simp] theorem hostAbortPending_link (res : OpResult) (s : State) : (hostAbortPending res s).link = s.link := by
  rw [hostAbortPending_eq]
@[simp] theorem hostEnterDisconnected_role (s : State) : (hostEnterDisconnected s).link.role = .host := by
  unfold hostEnterDisconnected; dsimp only; split <;> rfl
@[simp] theorem hostStart_role (op : OpKind) (s : State) : (hostStart op s).link.role = .host := by cases op <;> rfl
@[simp] theorem hostToIdle_role (s : State) : (hostToIdle s).link.role = .host := by
  unfold hostToIdle
  rcases hostService_cases { cancel s with link := .host .idle } with ⟨-, h⟩ | ⟨op, -, h⟩
  · rw [h]; rfl
  · rw [h, hostStart_role]
@[simp] theorem hostReconnect_role (kind : Byte) (s : State) : (hostReconnect kind s).link.role = .host :=
  hostEnterDisconnected_role _
@[simp] theorem hostOpFail_role (code : Byte) (s : State) : (hostOpFail code s).link.role = .host := hostToIdle_role _
@[simp] theorem hostHalt_role (kind : Byte) (s : State) : (hostHalt kind s).link.role = .host := rfl
@[simp] theorem devToSafe_role (s : State) : (devToSafe s).link.role = s.link.role := by
  cases h : s.link with
  | host hs => simp [devToSafe, h]
  | device d => rw [(devToSafe_rests s d h).2.2]; rfl
@[simp] theorem deviceError_role (code : ErrorCode) (s : State) : (deviceError code s).link.role = s.link.role := by
  simp [deviceError]
theorem hostTimeout_role (h : HostState) (s : State) (hs : s.link.role = .host) :
    (hostTimeout h s).link.role = .host := by
  cases h <;> simp [hostTimeout, hs]
@[simp] theorem devTimeout_role (d : DevState) (s : State) : (devTimeout d s).link.role = s.link.role := by
  cases d <;> simp [devTimeout]
@[simp] theorem devChecksumFailure_role (d : DevState) (s : State) :
    (devChecksumFailure d s).link.role = s.link.role := by
  cases d <;> simp [devChecksumFailure]

/-- Every handler runs for the role it finds and stays in it (R262). -/
@[simp] theorem raise_role (x : Exn) (s : State) : (raise x s).link.role = s.link.role := by
  cases hl : s.link with
  | host h => cases x <;> simp [raise, hl, hostTimeout_role]
  | device d => cases x <;> simp [raise, hl]

/-! Outcomes. -/

/-- An outcome that starts from `s` keeps the role and the parameters: its next state, if it has one, has those of `s` (R2, R8). -/
def State.keepsIdentity (s : State) (r : Result) : Prop := ∀ t, r = .next t → t.link.role = s.link.role ∧ t.cfg = s.cfg

@[simp] theorem keepsIdentity_next (s t : State) :
    s.keepsIdentity (.next t) ↔ t.link.role = s.link.role ∧ t.cfg = s.cfg := by simp [State.keepsIdentity]
@[simp] theorem keepsIdentity_fault (s : State) (f : Fault) : s.keepsIdentity (.fault f) := by
  simp [State.keepsIdentity]
@[simp] theorem keepsIdentity_raising (s t : State) (x : Exn) :
    s.keepsIdentity (raising x t) ↔ t.link.role = s.link.role ∧ t.cfg = s.cfg := by simp [raising]

/-- Identity that is kept from `t` is kept from any state of the same role and parameters. -/
theorem State.keepsIdentity.of_same {s t : State} {r : Result} (h : t.keepsIdentity r)
    (hrole : t.link.role = s.link.role) (hcfg : t.cfg = s.cfg) : s.keepsIdentity r := by
  intro u hu
  obtain ⟨hr, hc⟩ := h u hu
  exact ⟨hr.trans hrole, hc.trans hcfg⟩

/-- A `MemRead` leaves the link state and the parameters (R66). -/
theorem memRead_same {a n : Nat} {s t : State} {r : Option (List Byte)} (h : memRead a n s = (r, t)) :
    t.link = s.link ∧ t.cfg = s.cfg := by
  have hs := memRead_state a n s
  rw [h] at hs
  exact ⟨(congrArg State.link hs).trans rfl, (congrArg State.cfg hs).trans rfl⟩

/-- A `MemWrite` leaves the link state and the parameters (R67). -/
theorem memWrite_same {a : Nat} {v : List Byte} {s t : State} {r : Bool} (h : memWrite a v s = (r, t)) :
    t.link = s.link ∧ t.cfg = s.cfg := by
  have hs := memWrite_state a v s
  rw [h] at hs
  exact ⟨(congrArg State.link hs).trans rfl, (congrArg State.cfg hs).trans rfl⟩

/-! The block procedures. -/

theorem hostSendBlock_keepsIdentity (s : State) (h : s.link.role = .host) : s.keepsIdentity (hostSendBlock s) := by
  unfold hostSendBlock; dsimp only
  split
  · exact keepsIdentity_fault _ _
  · simp [h]

theorem devSendBlock_keepsIdentity (s : State) : s.keepsIdentity (devSendBlock s) := by
  unfold devSendBlock; dsimp only
  split
  · simp
  · split
    · next hr => obtain ⟨hl, hc⟩ := memRead_same hr; simp [hl, hc]
    · next hr => obtain ⟨hl, hc⟩ := memRead_same hr; simp [hl, hc]

theorem devBegin_keepsIdentity (t : Byte) (d : DevState) (s : State) (h : s.link.role = .device) :
    s.keepsIdentity (devBegin t d s) := by
  unfold devBegin; split <;> simp [h]

theorem hostTakeBlock_keepsIdentity (P : List Byte) (s : State) (h : s.link.role = .host) :
    s.keepsIdentity (hostTakeBlock P s) := by
  unfold hostTakeBlock; dsimp only
  split
  · exact keepsIdentity_fault _ _
  · split <;> simp [h]

theorem devBlockDone_keepsIdentity (n : Nat) (s : State) (h : s.link.role = .device) :
    s.keepsIdentity (devBlockDone n s) := by
  unfold devBlockDone; dsimp only
  split <;> simp [h]

theorem devTakeBlock_keepsIdentity (P : List Byte) (s : State) (h : s.link.role = .device) :
    s.keepsIdentity (devTakeBlock P s) := by
  unfold devTakeBlock; dsimp only
  split
  · simp
  · split
    · split
      · next hw => obtain ⟨hl, hc⟩ := memWrite_same hw; simp [hl, hc]
      · next u hw =>
        obtain ⟨hl, hc⟩ := memWrite_same hw
        simp only [cancel_link, cancel_cfg] at hl hc
        split
        · next hr => obtain ⟨hl', hc'⟩ := memRead_same hr; simp [hl, hc, hl', hc']
        · next v u' hr =>
          obtain ⟨hl', hc'⟩ := memRead_same hr
          have hlink := hl'.trans hl
          split
          · exact (devBlockDone_keepsIdentity _ u' (by rw [hlink, h])).of_same (by rw [hlink]) (hc'.trans hc)
          · simp [hlink, hc, hc']
    · exact keepsIdentity_fault _ _

/-! The commands' rules: each splits on the link state, so that the role is known where a rule enters a state (R195, R196). -/

theorem initRule_keepsIdentity (s : State) : s.keepsIdentity (initRule s) := by
  unfold initRule; split <;> simp [*]

theorem pingRule_keepsIdentity (s : State) : s.keepsIdentity (pingRule s) := by
  unfold pingRule; split <;> simp [*]

theorem memidRule_keepsIdentity (t : Byte) (s : State) : s.keepsIdentity (memidRule t s) := by
  unfold memidRule
  split
  · next hl => dsimp only; split <;> simp [hl]
  · simp
  · simp

theorem disconnectRule_keepsIdentity (s : State) : s.keepsIdentity (disconnectRule s) := by
  unfold disconnectRule; split <;> simp [*]

theorem okRule_keepsIdentity (s : State) : s.keepsIdentity (okRule s) := by
  unfold okRule
  split
  · next hl => simp [hl]
  · next hl => simp [hl]
  · next hl => exact (hostSendBlock_keepsIdentity (cancel s) (by simp [hl])).of_same (by simp) (by simp)
  · simp
  · simp

theorem txrxAckRule_keepsIdentity (s : State) : s.keepsIdentity (txrxAckRule s) := by
  unfold txrxAckRule; dsimp only
  split
  · next hl => split <;> simp [hl]
  · next hl =>
    split
    · exact (hostSendBlock_keepsIdentity _ (by simp [hl])).of_same (by simp) (by simp)
    · simp
  · exact (devSendBlock_keepsIdentity (cancel s)).of_same (by simp) (by simp)
  · simp
  · simp

theorem txrxDoneRule_keepsIdentity (s : State) : s.keepsIdentity (txrxDoneRule s) := by
  unfold txrxDoneRule; dsimp only
  split
  · next hl => split <;> simp [hl]
  · next hl => split <;> simp [hl]
  · simp
  · simp

theorem errRule_keepsIdentity (e : Byte) (s : State) : s.keepsIdentity (errRule e s) := by
  unfold errRule; split <;> simp [*]

theorem txrxErrRule_keepsIdentity (s : State) : s.keepsIdentity (txrxErrRule s) := by
  unfold txrxErrRule
  split
  · next hl =>
    split
    · exact (hostSendBlock_keepsIdentity _ (by simp [hl])).of_same (by simp) (by simp)
    · simp
  · simp
  · simp

theorem readmemRule_keepsIdentity (t : Byte) (s : State) : s.keepsIdentity (readmemRule t s) := by
  unfold readmemRule
  split
  · next hl => exact devBegin_keepsIdentity t .read s (by simp [hl])
  · simp
  · simp

theorem writememRule_keepsIdentity (t : Byte) (s : State) : s.keepsIdentity (writememRule t s) := by
  unfold writememRule
  split
  · next hl => exact devBegin_keepsIdentity t .write s (by simp [hl])
  · simp
  · simp

theorem readnextRule_keepsIdentity (s : State) : s.keepsIdentity (readnextRule s) := by
  unfold readnextRule
  split
  · exact (devSendBlock_keepsIdentity (cancel s)).of_same (by simp) (by simp)
  · simp
  · simp

theorem memdataRule_keepsIdentity (P : List Byte) (s : State) : s.keepsIdentity (memdataRule P s) := by
  unfold memdataRule
  split
  · next hl => exact hostTakeBlock_keepsIdentity P s (by simp [hl])
  · next hl => exact devTakeBlock_keepsIdentity P s (by simp [hl])
  · simp
  · simp

theorem violation_keepsIdentity (s : State) : s.keepsIdentity (raising .protocolViolation s) := by simp

/-! Delivery, commands, events. -/

/-- A delivery keeps the identity if the command's own rule does (R171). -/
theorem deliver_keepsIdentity (c : Byte) (P : List Byte) (cs : U16) (rule : State → Result) (s : State)
    (h : ∀ t : State, t.keepsIdentity (rule t)) : s.keepsIdentity (deliver c P cs rule s) := by
  rcases deliver_cases c P cs rule s with ⟨-, hd⟩ | ⟨-, -, hd⟩ | ⟨-, -, hd⟩
  · simp [hd]
  · simp [hd]
  · rw [hd]
    exact (h { s with lastRxCmd := c }).of_same rfl rfl

/-- No command changes the role or the parameters (R2, R8). -/
theorem exec_keepsIdentity (i : Instr) (s : State) : s.keepsIdentity (exec i s) := by
  cases i with
  | noneCmd cs => exact deliver_keepsIdentity _ _ _ _ s violation_keepsIdentity
  | init cs => exact deliver_keepsIdentity _ _ _ _ s initRule_keepsIdentity
  | ping cs => exact deliver_keepsIdentity _ _ _ _ s pingRule_keepsIdentity
  | memid t cs => exact deliver_keepsIdentity _ _ _ _ s (memidRule_keepsIdentity t)
  | startxfer cs => exact deliver_keepsIdentity _ _ _ _ s violation_keepsIdentity
  | endxfer cs => exact deliver_keepsIdentity _ _ _ _ s violation_keepsIdentity
  | disconnect cs => exact deliver_keepsIdentity _ _ _ _ s disconnectRule_keepsIdentity
  | ok cs => exact deliver_keepsIdentity _ _ _ _ s okRule_keepsIdentity
  | txrxAck cs => exact deliver_keepsIdentity _ _ _ _ s txrxAckRule_keepsIdentity
  | txrxDone cs => exact deliver_keepsIdentity _ _ _ _ s txrxDoneRule_keepsIdentity
  | err e cs => exact deliver_keepsIdentity _ _ _ _ s (errRule_keepsIdentity e)
  | txrxErr cs => exact deliver_keepsIdentity _ _ _ _ s txrxErrRule_keepsIdentity
  | readmem t cs => exact deliver_keepsIdentity _ _ _ _ s (readmemRule_keepsIdentity t)
  | readnext cs => exact deliver_keepsIdentity _ _ _ _ s readnextRule_keepsIdentity
  | memdata P cs => exact deliver_keepsIdentity _ _ _ _ s (memdataRule_keepsIdentity P)
  | data x cs => exact deliver_keepsIdentity _ _ _ _ s violation_keepsIdentity
  | info P cs => exact deliver_keepsIdentity _ _ _ _ s violation_keepsIdentity
  | writemem t cs => exact deliver_keepsIdentity _ _ _ _ s (writememRule_keepsIdentity t)

theorem rxByte_keepsIdentity (b : Byte) (s : State) : s.keepsIdentity (rxByte b s) := by
  unfold rxByte; dsimp only
  split
  · split
    · simp
    · next f _ =>
      unfold deliverFrame
      split
      · next i _ => exact (exec_keepsIdentity i _).of_same rfl rfl
      · simp
  · exact keepsIdentity_fault _ _

theorem txByte_same (s : State) : (txByte s).link = s.link ∧ (txByte s).cfg = s.cfg := by
  unfold txByte; split <;> simp

theorem timerFired_same (s : State) : (timerFired s).link.role = s.link.role ∧ (timerFired s).cfg = s.cfg := by
  unfold timerFired; split <;> simp

theorem liveTick_same (s : State) : (liveTick s).link.role = s.link.role ∧ (liveTick s).cfg = s.cfg := by
  unfold liveTick
  split
  · next hl => split <;> simp [hl]
  · simp
  · simp

@[simp] theorem loadImage_link (r : Request) (s : State) : (loadImage r s).link = s.link := by cases r <;> rfl
@[simp] theorem loadImage_cfg (r : Request) (s : State) : (loadImage r s).cfg = s.cfg := by cases r <;> rfl

theorem hostReq_same (h : HostState) (r : Request) (s : State) (hs : s.link.role = .host) :
    (hostReq h r s).link.role = .host ∧ (hostReq h r s).cfg = s.cfg := by
  unfold hostReq; dsimp only
  split
  · simp [hs]
  · split
    · simp [hs]
    · split
      · simp [hs]
      · split <;> simp [hs]

theorem req_same (r : Request) (s : State) : (req r s).link.role = s.link.role ∧ (req r s).cfg = s.cfg := by
  unfold req
  split
  · next h hl => simpa [hl] using hostReq_same h r s (by simp [hl])
  · simp

theorem reqConnect_same (s : State) : (reqConnect s).link.role = s.link.role ∧ (reqConnect s).cfg = s.cfg := by
  unfold reqConnect; split <;> simp [*]

theorem hostDisconnect_same (h : HostState) (s : State) :
    (hostDisconnect h s).link.role = .host ∧ (hostDisconnect h s).cfg = s.cfg := by
  unfold hostDisconnect; dsimp only
  split <;> simp

theorem reqDisconnect_same (s : State) :
    (reqDisconnect s).link.role = s.link.role ∧ (reqDisconnect s).cfg = s.cfg := by
  unfold reqDisconnect
  split
  · simp
  · next h _ hl => simpa [hl] using hostDisconnect_same h s
  · simp

/-- A reset keeps what is no register: the role and the parameters (R2, R8, R50). -/
theorem resetEvent_same (s : State) : (resetEvent s).link.role = s.link.role ∧ (resetEvent s).cfg = s.cfg := by
  simp [resetEvent, State.resetOf, State.role_eq]

/-- No event changes the role or the parameters (R2, R8, R279). -/
theorem handle_keepsIdentity (e : Event) (s : State) : s.keepsIdentity (handle e s) := by
  cases e with
  | rxByte b => exact rxByte_keepsIdentity b s
  | txByte =>
    obtain ⟨hl, hc⟩ := txByte_same s
    exact (keepsIdentity_next s _).2 ⟨by rw [hl], hc⟩
  | timerFired => exact (keepsIdentity_next s _).2 (timerFired_same s)
  | liveTick => exact (keepsIdentity_next s _).2 (liveTick_same s)
  | req r => exact (keepsIdentity_next s _).2 (req_same r s)
  | reqConnect => exact (keepsIdentity_next s _).2 (reqConnect_same s)
  | reqDisconnect => exact (keepsIdentity_next s _).2 (reqDisconnect_same s)
  | reset => exact (keepsIdentity_next s _).2 (resetEvent_same s)

theorem step_keepsIdentity (s : State) : s.keepsIdentity (step s) := by
  cases he : s.events with
  | nil => simp [step_idle s he]
  | cons e rest =>
    rw [step_event s e rest he]
    exact (handle_keepsIdentity e { s with events := rest }).of_same rfl rfl

/-- Settles O49: `step_keepsIdentity`, with the role read off the link state. -/
theorem roleAndParametersNeverChange : Obligations.RoleAndParametersNeverChange := by
  intro s s' h
  obtain ⟨hrole, hcfg⟩ := step_keepsIdentity s s' h
  exact ⟨by rw [State.role_eq, State.role_eq, hrole], hcfg⟩

end Sys2Proof.Machine
end

