-- ==== Sys2Proof/Proofs/Outcome.lean ====
section
/-! PROOFS. What is said of every next state that an outcome answers, every command as the delivery of its rule (spec/43_dispatch_core.md R171), and the backend's calls. -/

namespace Sys2Proof.Machine

/-- Every next state that the outcome answers satisfies `p`; a stop satisfies anything. -/
def answers (r : Result) (p : State → Prop) : Prop := ∀ t, r = .next t → p t

@[simp] theorem answers_next (t : State) (p : State → Prop) : answers (.next t) p ↔ p t := by simp [answers]
@[simp] theorem answers_fault (f : Fault) (p : State → Prop) : answers (.fault f) p := by simp [answers]
@[simp] theorem answers_raising (x : Exn) (s : State) (p : State → Prop) :
    answers (raising x s) p ↔ p (raise x s) := by simp [raising]

/-- The command's own rule (spec/44 to 47), which a delivery runs when the frame is neither ignored nor broken. -/
def Instr.rule : Instr → State → Result
  | .noneCmd _ => raising .protocolViolation
  | .init _ => initRule
  | .ping _ => pingRule
  | .memid t _ => memidRule t
  | .startxfer _ => raising .protocolViolation
  | .endxfer _ => raising .protocolViolation
  | .disconnect _ => disconnectRule
  | .ok _ => okRule
  | .txrxAck _ => txrxAckRule
  | .txrxDone _ => txrxDoneRule
  | .err e _ => errRule e
  | .txrxErr _ => txrxErrRule
  | .readmem t _ => readmemRule t
  | .readnext _ => readnextRule
  | .memdata P _ => memdataRule P
  | .data _ _ => raising .protocolViolation
  | .info _ _ => raising .protocolViolation
  | .writemem t _ => writememRule t

/-- Every command is the delivery of its own rule (R171). -/
theorem exec_eq_deliver (i : Instr) (s : State) : exec i s = deliver i.opcode i.payload i.csum (Instr.rule i) s := by
  cases i <;> rfl

/-- What a delivery answers: the state with `last_rx_cmd` written where frames are ignored, the handler of `ChecksumFailure`, or the rule's answer (R171). -/
theorem exec_answers {i : Instr} {s : State} {p : State → Prop}
    (hignored : s.ignoresFrames = true → p { s with lastRxCmd := i.opcode })
    (hbroken : s.ignoresFrames = false → p (raise .checksumFailure { s with lastRxCmd := i.opcode }))
    (hrule : answers (Instr.rule i { s with lastRxCmd := i.opcode }) p) : answers (exec i s) p := by
  rw [exec_eq_deliver]
  rcases deliver_cases i.opcode i.payload i.csum (Instr.rule i) s with ⟨hi, hd⟩ | ⟨hi, -, hd⟩ | ⟨-, -, hd⟩ <;> rw [hd]
  · exact (answers_next _ _).2 (hignored hi)
  · exact (answers_next _ _).2 (hbroken hi)
  · exact hrule

/-- A received byte moves the decoder alone, or delivers the instruction of a frame that it ends (R136, R141). -/
theorem rxByte_answers {b : Byte} {s : State} {p : State → Prop}
    (hquiet : p { s with dec := (decodeStep s.decCtx s.dec b).1 })
    (hframe : ∀ (f : Frame) (i : Instr), (decodeStep s.decCtx s.dec b).2 = some f → f.instr = some i →
      answers (exec i { s with dec := (decodeStep s.decCtx s.dec b).1 }) p) : answers (rxByte b s) p := by
  unfold rxByte; dsimp only
  split
  · split
    · exact (answers_next _ _).2 hquiet
    · next f hf =>
      unfold deliverFrame
      split
      · next i hi => exact hframe f i hf hi
      · exact (answers_next _ _).2 hquiet
  · exact answers_fault _ _

/-- A `MemRead` changes the backend alone, and an ideal backend not at all (R66, R68). -/
theorem memRead_cases {a n : Nat} {s t : State} {r : Option (List Byte)} (h : memRead a n s = (r, t)) :
    ∃ b, t = { s with backend := b } ∧ ∀ cells, b = .ideal cells ∨ s.backend = .ideal cells → b = s.backend := by
  have hs := memRead_state a n s
  rw [h] at hs
  refine ⟨t.backend, hs, fun cells hc => ?_⟩
  clear hs
  unfold memRead at h
  split at h <;> cases h
  case h_1 => rfl
  all_goals simp_all

/-- A `MemWrite` changes the backend alone, and it writes the bytes to an ideal one (R67, R68). -/
theorem memWrite_cases {a : Nat} {v : List Byte} {s t : State} {r : Bool} (h : memWrite a v s = (r, t)) :
    ∃ b, t = { s with backend := b } ∧
      ∀ cells, b = .ideal cells → ∃ old, s.backend = .ideal old ∧ cells = old.writeBytes a v := by
  have hs := memWrite_state a v s
  rw [h] at hs
  refine ⟨t.backend, hs, fun cells hc => ?_⟩
  clear hs
  unfold memWrite at h
  split at h <;> cases h
  case h_1 old ho => cases hc; exact ⟨old, ho, rfl⟩
  all_goals cases hc

end Sys2Proof.Machine
end

