-- ==== Sys2Proof/Proofs/InvariantData.lean ====
section
/-! PROOFS. The part of the invariant that is the same in every link state: the decoder, the buffers, the counters (spec/10_state.md R51, R27, R29, R38, R40). -/

namespace Sys2Proof.Machine

/-! The decoder's part. -/

/-- The decoder's part speaks of the decoder and the parameters alone. -/
theorem State.DecInv.of_same {s t : State} (h : s.DecInv) (hd : t.dec = s.dec) (hc : t.cfg = s.cfg) : t.DecInv := by
  obtain ⟨h1, h2, h3, h4, h5, h6, h7⟩ := h
  constructor <;> rw [hd]
  case len_cmd => rwa [hc]
  all_goals assumption

/-- Outside a frame only `rx_len` is bounded (R51). -/
theorem State.DecInv.of_outside {s : State} (hl : s.dec.rxLen.toNat ≤ 256)
    (hs : s.dec.rxState = .seekStart ∨ s.dec.rxState = .readCommand) : s.DecInv := by
  rcases hs with hs | hs <;> constructor <;> simp [Decoder.inFrame, hs, hl]

/-- At an offset that is a multiple of 256 the length table has the frame lengths of the invariant (R98, R100). -/
theorem plen_eq_frameLen (s : State) (c : Byte) (h : s.xferCnt.toNat % 256 = 0) : plen s.decCtx c = frameLen s.cfg c := by
  unfold frameLen
  by_cases hc : c = cmdMemdata
  · rw [if_pos hc, hc, plen_memdata, memdataLen_of_mult s.decCtx h]
  · rw [if_neg hc]
    exact plen_congr s.decCtx _ c hc rfl

theorem decodeSeekStart_decInv {s : State} (b : Byte) (h : s.DecInv) (hs : s.dec.rxState = .seekStart) :
    ({ s with dec := decodeSeekStart s.dec b } : State).DecInv := by
  unfold decodeSeekStart
  split
  · exact .of_outside h.len_le (.inr rfl)
  · exact .of_outside h.len_le (.inl hs)

/-- The command byte samples the frame length of the invariant (R98, R138). -/
theorem decodeReadCommand_decInv {s : State} (b : Byte) (hi : s.cfg.infoLen ≤ 256) (hx : s.xferCnt.toNat % 256 = 0) :
    ({ s with dec := decodeReadCommand s.decCtx s.dec b } : State).DecInv := by
  have hp := plen_le s.decCtx hi b
  have hlen : (BitVec.ofNat 9 (plen s.decCtx b)).toNat = plen s.decCtx b := by rw [BitVec.toNat_ofNat]; omega
  have hfl := plen_eq_frameLen s b hx
  unfold decodeReadCommand
  constructor <;> dsimp only <;> try rw [hlen]
  case len_le => exact hp
  case data_cnt => split <;> simp; omega
  case csum_cnt => simp
  case known_cmd => simp
  case len_cmd => simp [hfl]
  case data_written => simp
  case all_written =>
    split
    · next h0 => simp [h0]
    · simp

/-- A payload byte is written at `rx_cnt`, so that every index below the new count is written (R27, R139). -/
theorem decodeReadData_decInv {s : State} (b : Byte) (h : s.DecInv) (hs : s.dec.rxState = .readData) :
    ({ s with dec := decodeReadData s.dec b } : State).DecInv := by
  obtain ⟨hle, hcnt, -, hknown, hlen, hwritten, -⟩ := h
  have hin : s.dec.inFrame := .inl hs
  have hlt := hcnt hs
  have hc : (s.dec.rxCnt + 1).toNat = s.dec.rxCnt.toNat + 1 := by
    simp only [BitVec.toNat_add, BitVec.ofNat_eq_ofNat, BitVec.toNat_ofNat]; omega
  have hnew : ∀ i < s.dec.rxCnt.toNat + 1, ((s.dec.rxBuf.writeBytes s.dec.rxCnt.toNat [b]).lookup i).isSome := by
    intro i hi
    by_cases he : i = s.dec.rxCnt.toNat
    · simp [Memory.lookup_writeBytes, he]
    · exact Memory.writeBytes_written _ _ _ _ (hwritten hs i (by omega))
  by_cases hl : s.dec.rxCnt + 1 = s.dec.rxLen
  · rw [decodeReadData_last s.dec b hl]
    have hl' : s.dec.rxLen.toNat = s.dec.rxCnt.toNat + 1 := by rw [← hl, hc]
    constructor <;> dsimp only
    case len_le => exact hle
    case data_cnt => simp
    case csum_cnt => simp
    case known_cmd => exact fun _ => hknown hin
    case len_cmd => exact fun _ => hlen hin
    case data_written => simp
    case all_written => exact fun _ => hl' ▸ hnew
  · rw [decodeReadData_more s.dec b hl]
    have hl' : s.dec.rxLen.toNat ≠ s.dec.rxCnt.toNat + 1 := fun he => hl (BitVec.eq_of_toNat_eq (by rw [hc, he]))
    constructor <;> dsimp only <;> try rw [hc]
    case len_le => exact hle
    case data_cnt => omega
    case csum_cnt => simp [hs]
    case known_cmd => exact fun _ => hknown hin
    case len_cmd => exact fun _ => hlen hin
    case data_written => exact fun _ => hnew
    case all_written => simp [hs]

theorem decodeReadChecksum_decInv {s : State} (b : Byte) (h : s.DecInv) (hs : s.dec.rxState = .readChecksum) :
    ({ s with dec := decodeReadChecksum s.dec b } : State).DecInv := by
  obtain ⟨hle, -, -, hknown, hlen, -, hwritten⟩ := h
  have hin : s.dec.inFrame := .inr (.inl hs)
  unfold decodeReadChecksum
  split <;> constructor <;> dsimp only
  case isTrue.all_written | isFalse.all_written => exact fun _ => hwritten (.inl hs)
  case isTrue.len_le | isFalse.len_le => exact hle
  all_goals simp [hs, hknown hin, hlen hin]

/-- Every received byte keeps the decoder's part (R136). -/
theorem decodeStep_decInv {s : State} (b : Byte) (h : s.DecInv) (hi : s.cfg.infoLen ≤ 256)
    (hx : s.xferCnt.toNat % 256 = 0) : ({ s with dec := (decodeStep s.decCtx s.dec b).1 } : State).DecInv := by
  cases hs : s.dec.rxState with
  | seekStart => rw [decodeStep_seekStart _ _ b hs]; exact decodeSeekStart_decInv b h hs
  | readCommand => rw [decodeStep_readCommand _ _ b hs]; exact decodeReadCommand_decInv b hi hx
  | readData => rw [decodeStep_readData _ _ b hs]; exact decodeReadData_decInv b h hs
  | readChecksum => rw [decodeStep_readChecksum _ _ b hs]; exact decodeReadChecksum_decInv b h hs
  | readEnd => rw [decodeStep_readEnd _ _ b hs]; exact .of_outside h.len_le (.inl rfl)

/-- Only a payload byte writes `rx_buf`, at `rx_cnt` (R139). -/
theorem decodeStep_rxBuf (ctx : DecCtx) (d : Decoder) (b : Byte) :
    (decodeStep ctx d b).1.rxBuf = if d.rxState = .readData then d.rxBuf.writeBytes d.rxCnt.toNat [b] else d.rxBuf := by
  cases hs : d.rxState with
  | seekStart => rw [decodeStep_seekStart _ _ b hs]; unfold decodeSeekStart; split <;> rfl
  | readCommand => rw [decodeStep_readCommand _ _ b hs]; rfl
  | readData => rw [decodeStep_readData _ _ b hs]; unfold decodeReadData; dsimp only; split <;> rfl
  | readChecksum => rw [decodeStep_readChecksum _ _ b hs]; unfold decodeReadChecksum; split <;> rfl
  | readEnd => rw [decodeStep_readEnd _ _ b hs]; rfl

/-! The whole of what holds in every link state. -/

/-- The invariant without what it says of the link state: the parameters, the decoder, the buffers and the counters (R51). -/
structure State.Sound (s : State) : Prop where
  cfg_wf : s.cfg.wf
  decoder : s.DecInv
  memory : s.MemInv
  xfer_mult : s.xferCnt.toNat % 256 = 0
  retry_le : s.retryCnt.toNat ≤ s.cfg.maxRetry
  txq_le : s.txq.length ≤ s.cfg.txqBytes

theorem State.Inv.sound {s : State} (h : s.Inv) : s.Sound :=
  ⟨h.cfg_wf, h.decoder, h.memory, h.counters.xfer_mult, h.counters.retry_le, h.counters.txq_le⟩

/-- The invariant is `Sound`, the bound of `xfer_cnt` by the memory, and the dispatcher's part. -/
theorem State.Sound.inv {s : State} (h : s.Sound) (hx : s.xferCnt.toNat ≤ memsize s.memtype) (hl : s.LinkInv) : s.Inv :=
  ⟨h.cfg_wf, h.decoder, h.memory, ⟨hx, h.xfer_mult, h.retry_le, h.txq_le⟩, hl⟩

/-- A `SEND` never overfills the queue (R29, R122). -/
@[simp] theorem send_txq_le (c : Byte) (P : List Byte) (s : State) (n : Nat) (hn : s.cfg.txqBytes = n) :
    (send c P s).txq.length ≤ n ↔ s.txq.length ≤ n := by
  rcases send_cases c P s with ⟨-, h⟩ | ⟨-, -, h⟩ | ⟨-, hf, h⟩
  · simp [h]
  · simp [h]
  · have : (encodeFrame s.cfg c P).length = 5 + P.length := frameBytes_length _ _ _
    unfold State.txFree at hf
    simp [h, this]
    omega

/-- A step inside one handler keeps `Sound` if it leaves the parameters, the decoder, the buffers and the backend, and each counter it writes keeps its bound. -/
theorem State.Sound.update {s t : State} (h : s.Sound)
    (hsame : t.cfg = s.cfg ∧ t.dec = s.dec ∧ t.xferBuf = s.xferBuf ∧ t.backend = s.backend)
    (hcnt : (s.xferCnt.toNat % 256 = 0 → t.xferCnt.toNat % 256 = 0) ∧
      (s.retryCnt.toNat ≤ s.cfg.maxRetry → t.retryCnt.toNat ≤ s.cfg.maxRetry) ∧
      (s.txq.length ≤ s.cfg.txqBytes → t.txq.length ≤ s.cfg.txqBytes)) : t.Sound := by
  obtain ⟨hcfg, hdec, hbuf, hback⟩ := hsame
  obtain ⟨hx, hr, hq⟩ := hcnt
  exact {
    cfg_wf := hcfg ▸ h.cfg_wf
    decoder := h.decoder.of_same hdec hcfg
    memory :=
      { rx_wf := hdec ▸ h.memory.rx_wf
        rx_below := hdec ▸ h.memory.rx_below
        xfer_wf := hbuf ▸ h.memory.xfer_wf
        xfer_below := hbuf ▸ h.memory.xfer_below
        backend_wf := hback ▸ h.memory.backend_wf }
    xfer_mult := hx h.xfer_mult
    retry_le := hcfg ▸ hr h.retry_le
    txq_le := hcfg ▸ hq h.txq_le }

/-- `clear_buffers()` leaves the decoder outside a frame and the counters at 0 (R178). -/
theorem State.Sound.clearBuffers {s : State} (h : s.Sound) : (clearBuffers s).Sound where
  cfg_wf := h.cfg_wf
  decoder := .of_outside (by simp) (.inl rfl)
  memory := ⟨h.memory.rx_wf, h.memory.rx_below, h.memory.xfer_wf, h.memory.xfer_below, h.memory.backend_wf⟩
  xfer_mult := rfl
  retry_le := Nat.zero_le _
  txq_le := h.txq_le

/-- An image or a block written inside `xfer_buf` (R63). -/
theorem State.Sound.xferWrite {s : State} (h : s.Sound) (a : Nat) (bs : List Byte) (ha : a + bs.length ≤ xferBufSize) :
    (xferWrite a bs s).Sound where
  cfg_wf := h.cfg_wf
  decoder := h.decoder.of_same rfl rfl
  memory :=
    { rx_wf := h.memory.rx_wf
      rx_below := h.memory.rx_below
      xfer_wf := Memory.writeBytes_wf _ a bs h.memory.xfer_wf
      xfer_below := Memory.writeBytes_below _ a bs _ h.memory.xfer_below ha
      backend_wf := h.memory.backend_wf }
  xfer_mult := h.xfer_mult
  retry_le := h.retry_le
  txq_le := h.txq_le

/-- Another backend, in canonical form if it is the ideal one (R68). -/
theorem State.Sound.setBackend {s : State} (h : s.Sound) (b : Backend) (hb : ∀ cells, b = .ideal cells → cells.wf) :
    ({ s with backend := b } : State).Sound :=
  ⟨h.cfg_wf, h.decoder.of_same rfl rfl,
    ⟨h.memory.rx_wf, h.memory.rx_below, h.memory.xfer_wf, h.memory.xfer_below, hb⟩, h.xfer_mult, h.retry_le, h.txq_le⟩

/-- A `MemRead` keeps the canonical form of an ideal backend. -/
theorem State.Sound.backend_memRead {s t : State} (h : s.Sound) {a n : Nat} {r : Option (List Byte)}
    (hr : memRead a n s = (r, t)) : ∃ b, t = { s with backend := b } ∧ ∀ cells, b = .ideal cells → cells.wf := by
  obtain ⟨b, ht, hb⟩ := memRead_cases hr
  exact ⟨b, ht, fun cells hc => h.memory.backend_wf cells ((hb cells (.inl hc)).symm.trans hc)⟩

/-- A `MemWrite` keeps the canonical form of an ideal backend. -/
theorem State.Sound.backend_memWrite {s t : State} (h : s.Sound) {a : Nat} {v : List Byte} {r : Bool}
    (hw : memWrite a v s = (r, t)) : ∃ b, t = { s with backend := b } ∧ ∀ cells, b = .ideal cells → cells.wf := by
  obtain ⟨b, ht, hb⟩ := memWrite_cases hw
  refine ⟨b, ht, fun cells hc => ?_⟩
  obtain ⟨old, hold, rfl⟩ := hb cells hc
  exact Memory.writeBytes_wf old a v (h.memory.backend_wf old hold)

/-- A received byte keeps `Sound` (R136). -/
theorem State.Sound.decodeStep {s : State} (h : s.Sound) (b : Byte) :
    ({ s with dec := (decodeStep s.decCtx s.dec b).1 } : State).Sound where
  cfg_wf := h.cfg_wf
  decoder := decodeStep_decInv b h.decoder h.cfg_wf.1 h.xfer_mult
  memory :=
    { rx_wf := by
        rw [decodeStep_rxBuf]
        split
        · exact Memory.writeBytes_wf _ _ _ h.memory.rx_wf
        · exact h.memory.rx_wf
      rx_below := by
        rw [decodeStep_rxBuf]
        split
        · next hs =>
          have hlt := h.decoder.data_cnt hs
          have hle := h.decoder.len_le
          exact Memory.writeBytes_below _ _ _ _ h.memory.rx_below (by simp [rxBufSize]; omega)
        · exact h.memory.rx_below
      xfer_wf := h.memory.xfer_wf
      xfer_below := h.memory.xfer_below
      backend_wf := h.memory.backend_wf }
  xfer_mult := h.xfer_mult
  retry_le := h.retry_le
  txq_le := h.txq_le

end Sys2Proof.Machine
end

