-- ==== Sys2Proof/Proofs/InvariantHost.lean ====
section
/-! PROOFS. The procedures of a HOST keep the invariant (spec/10_state.md R51): each is said for the weakest state it is called in, since a rule writes registers before it calls one. -/

namespace Sys2Proof.Machine

/-- The image that a write operation sends stands in `xfer_buf` (R44, R185). -/
def State.imageWritten (s : State) : Prop := ∀ i < memTypeSize s.cfg.hostTarget, (s.xferBuf.lookup i).isSome

/-- What a HOST keeps whatever becomes of its session: `Sound`, and the image of a deferred write. -/
structure State.HostBase (s : State) : Prop where
  sound : s.Sound
  image : s.pendOp = some .write → s.imageWritten

/-- What a HOST keeps from the handshake on until its session ends (R35, R51). -/
structure State.HostSession (s : State) : Prop extends State.HostBase s where
  memtype_eq : s.memtype = memCode s.cfg.hostTarget
  enabled : s.linkEn = true
  connected_eq : s.connected = true
  xfer_le : s.xferCnt.toNat ≤ memTypeSize s.cfg.hostTarget

theorem State.imageWritten.of_same {s t : State} (h : s.imageWritten) (hsame : t.cfg = s.cfg ∧ t.xferBuf = s.xferBuf) :
    t.imageWritten := by
  unfold State.imageWritten; rw [hsame.1, hsame.2]; exact h

theorem State.HostBase.update {s t : State} (h : s.HostBase) (ht : t.Sound)
    (hsame : t.cfg = s.cfg ∧ t.xferBuf = s.xferBuf ∧ (t.pendOp = some .write → s.pendOp = some .write)) : t.HostBase := by
  obtain ⟨hcfg, hbuf, hp⟩ := hsame
  exact ⟨ht, fun hw => (h.image (hp hw)).of_same ⟨hcfg, hbuf⟩⟩

/-- A `SEND`, `ARM`, `CANCEL` or `EMIT`, or a write of the registers of an operation, keeps the session, if each counter that it writes keeps its bound. -/
theorem State.HostSession.write {s t : State} (h : s.HostSession)
    (hsame : (t.cfg = s.cfg ∧ t.dec = s.dec ∧ t.xferBuf = s.xferBuf ∧ t.backend = s.backend) ∧
      (t.pendOp = some .write → s.pendOp = some .write) ∧ t.memtype = s.memtype ∧ t.linkEn = s.linkEn ∧
      t.connected = s.connected)
    (hcnt : (s.xferCnt.toNat % 256 = 0 → t.xferCnt.toNat % 256 = 0) ∧
      (s.xferCnt.toNat ≤ memTypeSize s.cfg.hostTarget → t.xferCnt.toNat ≤ memTypeSize s.cfg.hostTarget) ∧
      (s.retryCnt.toNat ≤ s.cfg.maxRetry → t.retryCnt.toNat ≤ s.cfg.maxRetry) ∧
      (s.txq.length ≤ s.cfg.txqBytes → t.txq.length ≤ s.cfg.txqBytes)) : t.HostSession := by
  obtain ⟨hdata, hpend, hm, hen, hcon⟩ := hsame
  obtain ⟨hmult, hx, hr, hq⟩ := hcnt
  exact {
    toHostBase := h.toHostBase.update (h.sound.update hdata ⟨hmult, hr, hq⟩) ⟨hdata.1, hdata.2.2.1, hpend⟩
    memtype_eq := by rw [hm, hdata.1, h.memtype_eq]
    enabled := hen.trans h.enabled
    connected_eq := hcon.trans h.connected_eq
    xfer_le := hdata.1 ▸ hx h.xfer_le }

/-! From the invariant to these, and back. -/

theorem State.Inv.hostInv {s : State} {h : HostState} (hi : s.Inv) (hl : s.link = .host h) : s.HostInv h := by
  have := hi.dispatcher
  rwa [State.LinkInv, hl] at this

theorem State.Inv.hostBase {s : State} {h : HostState} (hi : s.Inv) (hl : s.link = .host h) : s.HostBase :=
  ⟨hi.sound, fun hw => (hi.hostInv hl).write_written (.inr hw)⟩

theorem State.Inv.hostSession {s : State} {h : HostState} (hi : s.Inv) (hl : s.link = .host h)
    (hs : h.sessionless = false) : s.HostSession where
  toHostBase := hi.hostBase hl
  memtype_eq := by simpa [hs] using (hi.hostInv hl).memtype_eq
  enabled := by have := (hi.hostInv hl).enabled; cases h <;> simp_all [HostState.sessionless]
  connected_eq := by have := (hi.hostInv hl).connected_eq; cases h <;> simp_all [HostState.sessionless]
  xfer_le := by
    have hx := hi.counters.xfer_le
    have hm := (hi.hostInv hl).memtype_eq
    simpa [hm, hs] using hx

/-- In a session the memory of the invariant is that of `HOST_TARGET`. -/
theorem State.HostSession.memsize_eq {s : State} (h : s.HostSession) : memsize s.memtype = memTypeSize s.cfg.hostTarget := by
  rw [h.memtype_eq, memsize_memCode]

/-- A state of a session meets the invariant if it holds what its link state asks of the operation, the timer, the transfer and the image buffer (R51). -/
theorem State.HostSession.inv {t : State} {h : HostState} (hs : t.HostSession) (hl : t.link = .host h)
    (hses : h.sessionless = false) (hst : h.mayHold t.curOp ∧ t.timerArmed = !h.resting ∧ h.progress t)
    (hpend : h = .idle → t.pendOp = none)
    (hbuf : (t.curOp = some .read → ∀ i < t.xferCnt.toNat, (t.xferBuf.lookup i).isSome) ∧
      (t.curOp = some .write → t.imageWritten)) : t.Inv := by
  obtain ⟨hop, htimer, hprog⟩ := hst
  obtain ⟨hread, hwrite⟩ := hbuf
  refine hs.sound.inv (by rw [hs.memsize_eq]; exact hs.xfer_le) ?_
  rw [State.LinkInv, hl]
  exact {
    memtype_eq := by rw [hses]; exact hs.memtype_eq
    enabled := by rw [hs.enabled]; cases h <;> simp_all [HostState.sessionless]
    connected_eq := by rw [hs.connected_eq]; cases h <;> simp_all [HostState.sessionless]
    cur_op := hop
    pend_op := by rintro (rfl | rfl); exacts [hpend rfl, by simp [HostState.sessionless] at hses]
    timer := htimer
    progress := hprog
    read_written := hread
    write_written := fun h => h.elim hwrite hs.image }

/-- A state without a session meets the invariant if no operation is in flight and the registers are those of its link state (R51). -/
theorem State.HostBase.inv {t : State} {h : HostState} (hb : t.HostBase) (hl : t.link = .host h)
    (hses : h.sessionless = true) (hrest : t.memtype = mtNone ∧ t.curOp = none ∧ t.xferCnt = 0)
    (hst : t.timerArmed = (!h.resting) ∧ t.linkEn = (!(h == .disconnected || h == .halted)) ∧
      t.connected = !(h == .disconnected || h == .init || h == .halted))
    (hpend : h = .halted → t.pendOp = none) : t.Inv := by
  obtain ⟨hm, hop, hx⟩ := hrest
  obtain ⟨htimer, hen, hcon⟩ := hst
  refine hb.sound.inv (by simp [hx]) ?_
  rw [State.LinkInv, hl]
  exact {
    memtype_eq := by rw [hses]; exact hm
    enabled := hen
    connected_eq := hcon
    cur_op := by cases h <;> simp_all [HostState.sessionless, HostState.mayHold]
    pend_op := by rintro (rfl | rfl); exacts [by simp [HostState.sessionless] at hses, hpend rfl]
    timer := htimer
    progress := by cases h <;> simp_all [HostState.sessionless, HostState.progress]
    read_written := by simp [hop]
    write_written := fun h => h.elim (by simp [hop]) hb.image }

/-! The procedures (spec/43_dispatch_core.md section 3, spec/60_exceptions.md). -/

/-- `host_start(op)` from a session enters the state that awaits the reply (R184). -/
theorem hostStart_inv {s : State} (op : OpKind) (h : s.HostSession) (hw : op = .write → s.imageWritten) :
    (hostStart op s).Inv := by
  have hstart : (hostStart op s).HostSession := by
    cases op <;> exact h.write (by simp [hostStart]) (by simp [hostStart])
  cases op with
  | read =>
    exact hstart.inv rfl rfl (by simp [hostStart, HostState.mayHold, HostState.resting, HostState.progress]) (by simp)
      (by simp [hostStart])
  | write =>
    exact hstart.inv rfl rfl (by simp [hostStart, HostState.mayHold, HostState.resting, HostState.progress]) (by simp)
      ⟨by simp [hostStart], fun _ => (hw rfl).of_same (by simp [hostStart])⟩
  | ping =>
    exact hstart.inv rfl rfl (by simp [hostStart, HostState.mayHold, HostState.resting, HostState.progress]) (by simp)
      (by simp [hostStart])

/-- `host_to_idle()` from a session without an operation in flight (R180, R183). -/
theorem hostToIdle_inv {s : State} (h : s.HostSession) (hop : s.curOp = none) : (hostToIdle s).Inv := by
  have hidle : ({ cancel s with link := .host .idle } : State).HostSession :=
    h.write (by simp) (by simp)
  rw [hostToIdle]
  rcases hostService_cases { cancel s with link := .host .idle } with ⟨hp, he⟩ | ⟨op, hp, he⟩ <;> rw [he]
  · exact hidle.inv rfl rfl (by simp [HostState.mayHold, HostState.resting, HostState.progress, hop]) (fun _ => hp)
      (by simp [hop])
  · refine hostStart_inv op (hidle.write (by simp) (by simp)) ?_
    rintro rfl
    exact (hidle.image hp).of_same (by simp)

/-- `host_send_block()` sends a block that begins inside the memory (R190). -/
theorem hostSendBlock_inv {s : State} (h : s.HostSession) (hop : s.curOp = some .write) (hw : s.imageWritten)
    (hx : s.xferCnt.toNat < memTypeSize s.cfg.hostTarget) : answers (hostSendBlock s) State.Inv := by
  have hlen := memdataLen_of_mult s.decCtx h.sound.xfer_mult
  unfold hostSendBlock; dsimp only
  split
  · exact answers_fault _ _
  · rw [answers_next]
    refine (h.write (by simp) (by simp)).inv rfl rfl ?_ (by simp)
      ⟨by simp [hop], fun _ => hw.of_same (by simp)⟩
    simp [HostState.mayHold, HostState.resting, HostState.progress, hop, hlen, h.memsize_eq, hx]

/-- `host_enter_disconnected()` begins a handshake or rests (R179). -/
theorem hostEnterDisconnected_inv {s : State} (h : s.HostBase) (hop : s.curOp = none) (hx : s.xferCnt = 0)
    (ht : s.linkEn = false → s.timerArmed = false) : (hostEnterDisconnected s).Inv := by
  unfold hostEnterDisconnected; dsimp only
  split
  · next he =>
    exact (h.update (h.sound.update (by simp) (by simp)) (by simp)).inv (h := .init) rfl rfl (by simp [hop, hx])
      (by simp [HostState.resting, he]) (by simp)
  · next he =>
    have he : s.linkEn = false := by simpa using he
    exact (h.update (h.sound.update (by simp) (by simp)) (by simp)).inv (h := .disconnected) rfl rfl (by simp [hop, hx])
      (by simp [HostState.resting, he, ht he]) (by simp)

/-- `host_reconnect(kind)` keeps the invariant from any state of a HOST (R264). -/
theorem hostReconnect_inv {s : State} (kind : Byte) (h : s.HostBase) : (hostReconnect kind s).Inv := by
  have habort : (hostAbort (.err kind) (cancel s)).Sound := by
    rw [hostAbort_eq]; exact h.sound.update (by simp) (by simp)
  have hcleared := habort.clearBuffers
  exact hostEnterDisconnected_inv (h.update (hcleared.update (by simp) (by simp)) (by simp [hostAbort_eq]))
    (by simp [hostAbort_eq]) (by simp) (by simp [hostAbort_eq])

/-- `host_halt(kind)` is the effect that the statements write out (R266). -/
theorem hostHalt_eq (kind : Byte) (s : State) : hostHalt kind s = s.haltedBy kind := by
  simp [hostHalt, State.haltedBy, hostAbort_eq, hostAbortPending_eq, cancel_eq, clearBuffers, emit, Decoder.cleared, mtNone]

/-- `host_halt(kind)` keeps the invariant from any sound state (R266). -/
theorem hostHalt_inv {s : State} (kind : Byte) (h : s.Sound) : (hostHalt kind s).Inv := by
  rw [hostHalt_eq]
  have hsound : (s.haltedBy kind).Sound :=
    h.clearBuffers.update ⟨rfl, rfl, rfl, rfl⟩ ⟨fun _ => rfl, fun _ => Nat.zero_le _, id⟩
  exact State.HostBase.inv ⟨hsound, by simp [State.haltedBy]⟩ rfl rfl ⟨rfl, rfl, rfl⟩ ⟨rfl, rfl, rfl⟩ fun _ => rfl

/-- `host_op_fail(code)` from a session (R265). -/
theorem hostOpFail_inv {s : State} (code : Byte) (h : s.HostSession) : (hostOpFail code s).Inv := by
  unfold hostOpFail
  rw [hostAbort_eq]
  exact hostToIdle_inv (h.write (by simp) (by simp)) rfl

end Sys2Proof.Machine
end

