-- ==== Sys2Proof/Proofs/InvariantDevice.lean ====
section
/-! PROOFS. The procedures of a DEVICE keep the invariant (spec/10_state.md R51), each from the weakest state it is called in. -/

namespace Sys2Proof.Machine

/-- What a DEVICE keeps in every state: `Sound`, and the registers of a HOST at their reset values (R20). -/
structure State.DevBase (s : State) : Prop where
  sound : s.Sound
  host_registers : s.linkEn = false ∧ s.curOp = none ∧ s.pendOp = none ∧ s.blkLen = 0 ∧ s.retryCnt = 0
  host_buffer : s.xferBuf = [] ∧ s.appEv = []

/-- What a DEVICE keeps from an accepted `MEMID` on until its session ends (R35, R51). -/
structure State.DevSession (s : State) : Prop extends State.DevBase s where
  memtype_valid : (memOfCode s.memtype).isSome
  connected_eq : s.connected = true

theorem State.DevBase.update {s t : State} (h : s.DevBase) (ht : t.Sound)
    (hsame : t.linkEn = s.linkEn ∧ t.curOp = s.curOp ∧ t.pendOp = s.pendOp ∧ t.xferBuf = s.xferBuf ∧ t.appEv = s.appEv)
    (hcnt : (s.blkLen = 0 → t.blkLen = 0) ∧ (s.retryCnt = 0 → t.retryCnt = 0)) : t.DevBase := by
  obtain ⟨hen, hcur, hpend, hblk, hretry⟩ := h.host_registers
  obtain ⟨hen', hcur', hpend', hbuf, hev⟩ := hsame
  refine ⟨ht, ⟨hen'.trans hen, hcur'.trans hcur, hpend'.trans hpend, hcnt.1 hblk, hcnt.2 hretry⟩, ?_⟩
  rw [hbuf, hev]
  exact h.host_buffer

theorem State.DevSession.update {s t : State} (h : s.DevSession) (ht : t.DevBase)
    (hsame : t.memtype = s.memtype ∧ t.connected = s.connected) : t.DevSession :=
  ⟨ht, hsame.1 ▸ h.memtype_valid, hsame.2.trans h.connected_eq⟩

theorem State.DevBase.setBackend {s : State} (h : s.DevBase) (b : Backend) (hb : ∀ cells, b = .ideal cells → cells.wf) :
    ({ s with backend := b } : State).DevBase :=
  h.update (h.sound.setBackend b hb) (by simp) (by simp)

theorem State.DevSession.setBackend {s : State} (h : s.DevSession) (b : Backend)
    (hb : ∀ cells, b = .ideal cells → cells.wf) : ({ s with backend := b } : State).DevSession :=
  h.update (h.toDevBase.setBackend b hb) (by simp)

/-! From the invariant to these, and back. -/

theorem State.Inv.devInv {s : State} {d : DevState} (hi : s.Inv) (hl : s.link = .device d) : s.DevInv d := by
  have := hi.dispatcher
  rwa [State.LinkInv, hl] at this

theorem State.Inv.devBase {s : State} {d : DevState} (hi : s.Inv) (hl : s.link = .device d) : s.DevBase :=
  ⟨hi.sound, (hi.devInv hl).host_registers, (hi.devInv hl).host_buffer⟩

theorem State.Inv.devSession {s : State} {d : DevState} (hi : s.Inv) (hl : s.link = .device d)
    (hs : d.inSession = true) : s.DevSession where
  toDevBase := hi.devBase hl
  memtype_valid := by simpa [hs] using (hi.devInv hl).memtype_eq
  connected_eq := by have := (hi.devInv hl).connected_eq; cases d <;> simp_all [DevState.inSession]

/-- A valid code names a memory of at least one byte (R103). -/
theorem memsize_pos {t : Byte} (h : (memOfCode t).isSome) : 0 < memsize t := by
  obtain ⟨m, hm⟩ := Option.isSome_iff_exists.1 h
  cases m <;> simp [memsize, hm, memTypeSize]

/-- A state of a session meets the invariant if the timer and the offset are those of its link state (R51). -/
theorem State.DevSession.inv {t : State} {d : DevState} (hs : t.DevSession) (hl : t.link = .device d)
    (hd : d.inSession = true) (hp : d ≠ .ping) (htimer : t.timerArmed = (d == .read || d == .write))
    (hx : t.xferCnt.toNat ≤ memsize t.memtype) (hrest : d = .idle → t.xferCnt = 0)
    (hw : d = .write → t.xferCnt.toNat < memsize t.memtype) : t.Inv := by
  refine hs.sound.inv hx ?_
  rw [State.LinkInv, hl]
  exact {
    not_ping := hp
    memtype_eq := by rw [if_pos hd]; exact hs.memtype_valid
    connected_eq := by rw [hs.connected_eq]; revert hd; cases d <;> decide
    timer := by rw [htimer]; revert hd; cases d <;> decide
    resting := by cases d <;> simp_all [DevState.inSession]
    writing := hw
    host_registers := hs.host_registers
    host_buffer := hs.host_buffer }

/-- An idle device with a session rests at offset 0 (R51). -/
theorem State.DevSession.idle_inv {t : State} (hs : t.DevSession) (hl : t.link = .device .idle)
    (hrest : t.timerArmed = false ∧ t.xferCnt = 0) : t.Inv :=
  hs.inv hl rfl (by simp) hrest.1 (by simp [hrest.2]) (fun _ => hrest.2) (by simp)

/-- A state without a session meets the invariant at offset 0 with no memory (R51). -/
theorem State.DevBase.inv {t : State} {d : DevState} (hb : t.DevBase) (hl : t.link = .device d)
    (hd : d.inSession = false) (hrest : t.memtype = mtNone ∧ t.xferCnt = 0)
    (hst : t.connected = (!(d == .disconnected)) ∧ t.timerArmed = (d == .waitMemid)) : t.Inv := by
  obtain ⟨hm, hx⟩ := hrest
  obtain ⟨hc, htimer⟩ := hst
  refine hb.sound.inv (by simp [hx]) ?_
  rw [State.LinkInv, hl]
  exact {
    not_ping := by rintro rfl; cases hd
    memtype_eq := by rw [hd]; exact hm
    connected_eq := hc
    timer := by rw [htimer]; revert hd; cases d <;> decide
    resting := fun _ _ => hx
    writing := by rintro rfl; cases hd
    host_registers := hb.host_registers
    host_buffer := hb.host_buffer }

/-! The procedures (spec/43_dispatch_core.md section 3, spec/60_exceptions.md). -/

/-- A DEVICE, in its link state, of which no more is asked than that a session state has a session: where `dev_to_safe()` may start. -/
structure State.DevAnywhere (d : DevState) (s : State) : Prop extends State.DevBase s where
  link_eq : s.link = .device d
  session : d.inSession = true → s.DevSession

theorem State.Inv.devAnywhere {s : State} {d : DevState} (hi : s.Inv) (hl : s.link = .device d) : s.DevAnywhere d :=
  ⟨hi.devBase hl, hl, hi.devSession hl⟩

theorem State.DevAnywhere.update {s t : State} {d : DevState} (h : s.DevAnywhere d) (ht : t.DevBase)
    (hsame : t.link = s.link ∧ t.memtype = s.memtype ∧ t.connected = s.connected) : t.DevAnywhere d :=
  ⟨ht, hsame.1.trans h.link_eq, fun hd => (h.session hd).update ht hsame.2⟩

/-- A `SEND`, `ARM` or `CANCEL`, or a write of the registers that a DEVICE uses itself, keeps what a DEVICE keeps everywhere. -/
theorem State.DevBase.write {s t : State} (h : s.DevBase)
    (hsame : (t.cfg = s.cfg ∧ t.dec = s.dec ∧ t.xferBuf = s.xferBuf ∧ t.backend = s.backend) ∧ t.linkEn = s.linkEn ∧
      t.curOp = s.curOp ∧ t.pendOp = s.pendOp ∧ t.appEv = s.appEv ∧ t.blkLen = s.blkLen ∧ t.retryCnt = s.retryCnt)
    (hcnt : (s.xferCnt.toNat % 256 = 0 → t.xferCnt.toNat % 256 = 0) ∧
      (s.txq.length ≤ s.cfg.txqBytes → t.txq.length ≤ s.cfg.txqBytes)) : t.DevBase := by
  obtain ⟨hdata, hen, hcur, hpend, hev, hblk, hretry⟩ := hsame
  refine h.update (h.sound.update hdata ⟨hcnt.1, ?_, hcnt.2⟩) ⟨hen, hcur, hpend, hdata.2.2.1, hev⟩ ?_
  · rw [hretry]; exact id
  · rw [hblk, hretry]; exact ⟨id, id⟩

/-- The same within a session. -/
theorem State.DevSession.write {s t : State} (h : s.DevSession)
    (hsame : (t.cfg = s.cfg ∧ t.dec = s.dec ∧ t.xferBuf = s.xferBuf ∧ t.backend = s.backend) ∧ t.linkEn = s.linkEn ∧
      t.curOp = s.curOp ∧ t.pendOp = s.pendOp ∧ t.appEv = s.appEv ∧ t.blkLen = s.blkLen ∧ t.retryCnt = s.retryCnt)
    (hsession : t.memtype = s.memtype ∧ t.connected = s.connected)
    (hcnt : (s.xferCnt.toNat % 256 = 0 → t.xferCnt.toNat % 256 = 0) ∧
      (s.txq.length ≤ s.cfg.txqBytes → t.txq.length ≤ s.cfg.txqBytes)) : t.DevSession :=
  h.update (h.toDevBase.write hsame hcnt) hsession

/-- `dev_to_safe()` is the effect that the statements write out (R270). -/
theorem devToSafe_eq {s : State} {d : DevState} (hl : s.link = .device d) : devToSafe s = s.madeSafe d := by
  cases d <;> simp [devToSafe, State.madeSafe, DevState.inSession, cancel_eq, hl, mtNone]

/-- `dev_to_safe()` rests in `D_IDLE` with a session and in `D_DISCONNECTED` without (R270). -/
theorem devToSafe_inv {s : State} {d : DevState} (h : s.DevAnywhere d) : (devToSafe s).Inv := by
  rw [devToSafe_eq h.link_eq]
  unfold State.madeSafe; dsimp only
  split
  · next hd =>
    exact ((h.session hd).write (by simp) (by simp) (by simp)).idle_inv rfl (by simp)
  · exact (h.toDevBase.write (by simp) (by simp)).inv (d := .disconnected) rfl rfl ⟨rfl, rfl⟩ (by simp)

/-- The handler of `DeviceError` (R269). -/
theorem deviceError_inv {s : State} {d : DevState} (code : ErrorCode) (h : s.DevAnywhere d) :
    (deviceError code s).Inv := by
  have hb : (send cmdErr [code.byte] (cancel s)).DevBase := h.toDevBase.write (by simp) (by simp)
  exact devToSafe_inv (h.update hb (by simp))

/-- `DeviceError` raised by a rule of a session (R262, R269). -/
theorem raise_deviceError_inv {s : State} {d : DevState} (code : ErrorCode) (h : s.DevAnywhere d) :
    (raise (.deviceError code) s).Inv := by
  have hl := h.link_eq
  unfold raise
  rw [hl]
  exact deviceError_inv code h

/-- The next offset of a transfer: one block of 256 bytes further, inside the memory and inside 16 bits (R38, R64). -/
theorem nextOffset {t : Byte} {n : U16} (hm : n.toNat % 256 = 0) (hlt : n.toNat < memsize t) :
    (BitVec.ofNat 16 (n.toNat + 256)).toNat = n.toNat + 256 ∧ (BitVec.ofNat 16 (n.toNat + 256)).toNat % 256 = 0 ∧
      (BitVec.ofNat 16 (n.toNat + 256)).toNat ≤ memsize t := by
  have hs := memsize_mod t
  have hle := memsize_le t
  simp only [xferBufSize] at hle
  rw [BitVec.toNat_ofNat]
  omega

/-- `dev_send_block()` sends the next block or reports an error (R191). -/
theorem devSendBlock_inv {s : State} (h : s.DevSession) (hl : s.link = .device .read) :
    answers (devSendBlock s) State.Inv := by
  have hany : s.DevAnywhere .read := ⟨h.toDevBase, hl, fun _ => h⟩
  have hlen := memdataLen_of_mult s.decCtx h.sound.xfer_mult
  unfold devSendBlock; dsimp only
  split
  · rw [answers_raising]
    exact raise_deviceError_inv _ hany
  · next hlt =>
    obtain ⟨-, hmult, hfit⟩ := nextOffset h.sound.xfer_mult (Nat.lt_of_not_le hlt)
    split
    · next u hr =>
      obtain ⟨b, rfl, hb⟩ := h.sound.backend_memRead hr
      rw [answers_raising]
      exact raise_deviceError_inv _ (hany.update (h.toDevBase.setBackend b hb) (by simp))
    · next r u hr =>
      obtain ⟨b, rfl, hb⟩ := h.sound.backend_memRead hr
      have hu := h.setBackend b hb
      rw [answers_next, hlen]
      refine (hu.write (by simp) (by simp) ⟨fun _ => ?_, by simp⟩).inv (d := .read)
        (by simpa using hl) rfl (by simp) (by simp) ?_ (by simp) (by simp)
      · simpa only [arm_xferCnt, send_xferCnt] using hmult
      · simpa only [arm_memtype, send_memtype, arm_xferCnt, send_xferCnt] using hfit

/-- An accepted `READMEM` or `WRITEMEM` begins a transfer at offset 0 (R240, R243). -/
theorem devBegin_inv {s : State} (t : Byte) (d : DevState) (hd : d = .read ∨ d = .write) (h : s.DevSession)
    (hl : s.link = .device .idle) : answers (devBegin t d s) State.Inv := by
  unfold devBegin
  split
  · rw [answers_next]
    have hs := h.write (t := { arm tChunk (send cmdOk [] { s with xferCnt := 0 }) with link := .device d })
      (by simp) (by simp) (by simp)
    have hpos := memsize_pos h.memtype_valid
    rcases hd with rfl | rfl
    · exact hs.inv rfl rfl (by simp) (by simp) (by simp) (by simp) (by simp)
    · exact hs.inv rfl rfl (by simp) (by simp) (by simp) (by simp) fun _ => by simpa using hpos
  · rw [answers_raising]
    exact raise_deviceError_inv .memid ⟨h.toDevBase, hl, fun _ => h⟩

/-- The acknowledgment of a block that lies inside the memory (R242). -/
theorem devBlockDone_inv {s : State} (h : s.DevSession) (hl : s.link = .device .write)
    (ht : s.timerArmed = false) (hlt : s.xferCnt.toNat < memsize s.memtype) :
    answers (devBlockDone 256 s) State.Inv := by
  obtain ⟨-, hmult, hfit⟩ := nextOffset h.sound.xfer_mult hlt
  unfold devBlockDone; dsimp only
  split
  · next hmore =>
    rw [answers_next]
    refine (h.write (by simp) (by simp) ⟨fun _ => ?_, by simp⟩).inv (d := .write)
      (by simpa using hl) rfl (by simp) (by simp) ?_ (by simp) fun _ => by simpa using hmore
    · simpa only [arm_xferCnt, send_xferCnt] using hmult
    · simpa only [arm_memtype, send_memtype, arm_xferCnt, send_xferCnt] using hfit
  · rw [answers_next]
    exact (h.write (by simp) (by simp) (by simp)).idle_inv rfl (by simp [ht])

/-- A block on a DEVICE that writes: written, read back, acknowledged, or reported (R242). -/
theorem devTakeBlock_inv {s : State} (P : List Byte) (hP : P.length = 256) (h : s.DevSession)
    (hl : s.link = .device .write) : answers (devTakeBlock P s) State.Inv := by
  have hc : (cancel s).DevSession := h.write (by simp) (by simp) (by simp)
  have hany : (cancel s).DevAnywhere .write := ⟨hc.toDevBase, by simpa using hl, fun _ => hc⟩
  have herr : ∀ (b : Backend) (code : ErrorCode), (∀ cells, b = .ideal cells → cells.wf) →
      (raise (.deviceError code) { cancel s with backend := b }).Inv := fun b code hb =>
    raise_deviceError_inv code (hany.update (hc.toDevBase.setBackend b hb) (by simp))
  unfold devTakeBlock; dsimp only
  split
  · rw [answers_raising]
    exact raise_deviceError_inv _ hany
  · next hlt =>
    split
    · split
      · next u hw =>
        obtain ⟨b, rfl, hb⟩ := hc.sound.backend_memWrite hw
        rw [answers_raising]
        exact herr b _ hb
      · next u hw =>
        obtain ⟨b, rfl, hb⟩ := hc.sound.backend_memWrite hw
        split
        · next v hr =>
          obtain ⟨b', rfl, hb'⟩ := (hc.sound.setBackend b hb).backend_memRead hr
          rw [answers_raising]
          exact herr b' _ hb'
        · next r v hr =>
          obtain ⟨b', rfl, hb'⟩ := (hc.sound.setBackend b hb).backend_memRead hr
          split
          · rw [hP]
            exact devBlockDone_inv (hc.setBackend b' hb') (by simpa using hl) (by simp) (by simpa using hlt)
          · rw [answers_raising]
            exact herr b' _ hb'
    · exact answers_fault _ _

end Sys2Proof.Machine
end

