-- ==== Sys2Proof/Proofs/InvariantRules.lean ====
section
/-! PROOFS. Exceptions and the rules of the 18 commands keep the invariant (spec/10_state.md R51): each rule is split along the link states in which the command is accepted (R195, R196). -/

namespace Sys2Proof.Machine

/-! What the invariant says of a HOST in the single link states, as its rules use it. -/

/-- Without a session a HOST has no memory, no operation in flight and the offset 0 (R51). -/
theorem State.Inv.sessionless {s : State} {h : HostState} (hi : s.Inv) (hl : s.link = .host h)
    (hs : h.sessionless = true) : s.memtype = mtNone ∧ s.curOp = none ∧ s.xferCnt = 0 := by
  have hm : s.memtype = mtNone := by simpa [hs] using (hi.hostInv hl).memtype_eq
  have hx := hi.counters.xfer_le
  have hop := (hi.hostInv hl).cur_op
  rw [hm, memsize_mtNone] at hx
  refine ⟨hm, ?_, BitVec.eq_of_toNat_eq (by simpa using hx)⟩
  cases h <;> simp_all [HostState.sessionless, HostState.mayHold]

/-- Where a HOST awaits the acknowledgment of a block: a write is in flight, its image stands in `xfer_buf`, and the block of 256 bytes lies inside the memory (R190). -/
theorem State.Inv.awaitsAck {s : State} (hi : s.Inv) (hl : s.link = .host .waitWritememAck) :
    s.curOp = some .write ∧ s.imageWritten ∧ s.xferCnt.toNat < memTypeSize s.cfg.hostTarget ∧ s.blkLen.toNat = 256 := by
  have hop : s.curOp = some .write := (hi.hostInv hl).cur_op
  obtain ⟨hx, hb⟩ := (hi.hostInv hl).progress
  rw [(hi.hostSession hl rfl).memsize_eq] at hx
  exact ⟨hop, (hi.hostInv hl).write_written (.inl hop), hx, hb⟩

/-! Exceptions (R262). -/

/-- A DEVICE that writes asks for the block again and stays in its link state (R268). -/
theorem devChecksumFailure_inv {s : State} {d : DevState} (hi : s.Inv) (hl : s.link = .device d) :
    (devChecksumFailure d s).Inv := by
  have hany := hi.devAnywhere hl
  unfold devChecksumFailure
  cases d with
  | write =>
    have hs := hi.devSession hl rfl
    have hw := (hi.devInv hl).writing rfl
    exact (hs.write (by simp) (by simp) (by simp)).inv (d := .write) (by simpa using hl) rfl (by simp)
      (by simp) (by simpa using hw.le) (by simp) fun _ => by simpa using hw
  | disconnected => exact deviceError_inv _ hany
  | idle => exact deviceError_inv _ hany
  | waitMemid => exact deviceError_inv _ hany
  | read => exact deviceError_inv _ hany
  | ping => exact deviceError_inv _ hany

/-- Every exception but `Timeout` keeps the invariant, in either role. -/
theorem raise_inv {s : State} (x : Exn) (hx : x ≠ .timeout) (hi : s.Inv) : (raise x s).Inv := by
  unfold raise
  cases hl : s.link with
  | host h =>
    have hb := hi.hostBase hl
    cases x with
    | timeout => exact absurd rfl hx
    | deviceError code => exact hi
    | protocolViolation => exact hostReconnect_inv _ hb
    | checksumFailure => exact hostReconnect_inv _ hb
    | retryExceeded => exact hostReconnect_inv _ hb
  | device d =>
    have hany := hi.devAnywhere hl
    cases x with
    | timeout => exact absurd rfl hx
    | deviceError code => exact deviceError_inv code hany
    | protocolViolation => exact deviceError_inv _ hany
    | retryExceeded => exact hi
    | checksumFailure => exact devChecksumFailure_inv hi hl

/-- A command that is unexpected where it comes keeps the invariant (R173). -/
theorem violation_inv {s : State} (hi : s.Inv) : answers (raising .protocolViolation s) State.Inv :=
  (answers_raising _ _ _).2 (raise_inv _ (by simp) hi)

/-! The session commands (spec/44_cmd_session.md). -/

theorem initRule_inv {s : State} (hi : s.Inv) : answers (initRule s) State.Inv := by
  unfold initRule emit; dsimp only
  split
  · next hl =>
    obtain ⟨hm, hop, hx⟩ := hi.sessionless hl rfl
    have hen : s.linkEn = true := (hi.hostInv hl).enabled
    have hb := hi.hostBase hl
    rw [answers_next]
    exact (hb.update (hb.sound.update (by simp) (by simp)) (by simp)).inv (h := .memid) rfl rfl (by simp [hm, hop, hx])
      (by simp [HostState.resting, hen]) (by simp)
  · exact violation_inv hi
  · next d hl =>
    have hb := hi.devBase hl
    rw [answers_next]
    have hc : (clearBuffers (cancel s)).Sound := State.Sound.clearBuffers (hb.sound.update (by simp) (by simp))
    exact (hb.update (hc.update (by simp) (by simp)) (by simp) (by simp)).inv (d := .waitMemid) rfl rfl (by simp)
      (by simp)

theorem pingRule_inv {s : State} (hi : s.Inv) : answers (pingRule s) State.Inv := by
  unfold pingRule
  split
  · next hl =>
    have hs := hi.devSession hl rfl
    have ht : s.timerArmed = false := (hi.devInv hl).timer
    have hx := (hi.devInv hl).resting (by simp) (by simp)
    rw [answers_next]
    exact (hs.write (by simp) (by simp) (by simp)).idle_inv rfl (by simp [ht, hx])
  · exact violation_inv hi
  · exact violation_inv hi

theorem memidRule_inv {s : State} (t : Byte) (hi : s.Inv) : answers (memidRule t s) State.Inv := by
  unfold memidRule; dsimp only
  split
  · next hl =>
    have hb := hi.devBase hl
    have hx := (hi.devInv hl).resting (by simp) (by simp)
    have hc : s.connected = true := (hi.devInv hl).connected_eq
    split
    · next hsup =>
      have hvalid : (memOfCode t).isSome := by unfold devSupports at hsup; split at hsup <;> simp_all
      rw [answers_next]
      exact State.DevSession.idle_inv ⟨hb.write (by simp) (by simp), by simpa using hvalid, by simpa using hc⟩ rfl
        (by simp [hx])
    · rw [answers_raising]
      exact raise_deviceError_inv .memid ((hi.devAnywhere hl).update (hb.write (by simp) (by simp)) (by simp))
  · exact violation_inv hi
  · exact violation_inv hi

theorem disconnectRule_inv {s : State} (hi : s.Inv) : answers (disconnectRule s) State.Inv := by
  unfold disconnectRule
  split
  · next d hl =>
    have hb := hi.devBase hl
    have hc : (clearBuffers (cancel s)).Sound := State.Sound.clearBuffers (hb.sound.update (by simp) (by simp))
    rw [answers_next]
    exact (hb.update (hc.update (by simp) (by simp)) (by simp) (by simp)).inv (d := .disconnected) rfl rfl (by simp)
      (by simp)
  · exact violation_inv hi

/-! The reply commands (spec/45_cmd_replies.md). -/

theorem okRule_inv {s : State} (hi : s.Inv) : answers (okRule s) State.Inv := by
  unfold okRule
  split
  · next hl =>
    obtain ⟨-, hop, hx⟩ := hi.sessionless hl rfl
    have hb := hi.hostBase hl
    have hen : s.linkEn = true := (hi.hostInv hl).enabled
    have hcon : s.connected = true := (hi.hostInv hl).connected_eq
    rw [answers_next]
    exact hostToIdle_inv ⟨hb.update (hb.sound.update (by simp) (by simp)) (by simp), rfl, hen, hcon, by simp [hx]⟩ hop
  · next hl =>
    have hs := hi.hostSession hl rfl
    have hop : s.curOp = some .read := (hi.hostInv hl).cur_op
    have hx : s.xferCnt = 0 := (hi.hostInv hl).progress
    have hpos : 0 < memsize s.memtype := by rw [hs.memtype_eq]; exact memsize_pos (by rw [memOfCode_memCode]; rfl)
    rw [answers_next]
    exact (hs.write (by simp) (by simp)).inv rfl rfl
      (by simp [HostState.mayHold, HostState.resting, HostState.progress, hop, hx, hpos]) (by simp) (by simp [hx, hop])
  · next hl =>
    have hs := hi.hostSession hl rfl
    have hop : s.curOp = some .write := (hi.hostInv hl).cur_op
    have hx : s.xferCnt = 0 := (hi.hostInv hl).progress
    have hpos := hs.memsize_eq ▸ memsize_pos (by rw [hs.memtype_eq, memOfCode_memCode]; rfl)
    have himg : s.imageWritten := (hi.hostInv hl).write_written (.inl hop)
    exact hostSendBlock_inv (hs.write (by simp) (by simp)) (by simpa using hop)
      (himg.of_same (by simp)) (by simpa [hx] using hpos)
  · exact violation_inv hi
  · exact violation_inv hi

theorem txrxAckRule_inv {s : State} (hi : s.Inv) : answers (txrxAckRule s) State.Inv := by
  unfold txrxAckRule; dsimp only
  split
  · next hl =>
    have hs := hi.hostSession hl rfl
    have hop : s.curOp = none ∨ s.curOp = some .ping := (hi.hostInv hl).cur_op
    rw [answers_next]
    split
    · rw [hostAbort_eq]
      exact hostToIdle_inv (hs.write (by simp) (by simp)) rfl
    · next hn => exact hostToIdle_inv (hs.write (by simp) (by simp)) (hop.resolve_right hn)
  · next hl =>
    have hs := hi.hostSession hl rfl
    obtain ⟨hop, himg, hx, hblk⟩ := hi.awaitsAck hl
    split
    · next hmore =>
      obtain ⟨hnext, hmult, -⟩ := nextOffset hs.sound.xfer_mult (hs.memsize_eq ▸ hx)
      have hend : blockEnd s = s.xferCnt.toNat + 256 := by rw [blockEnd, hblk]
      rw [hs.memsize_eq, hend] at hmore
      have hlt := hnext ▸ hmore
      rw [show blockEnd (cancel s) = s.xferCnt.toNat + 256 by rw [← hend]; simp [blockEnd]]
      exact hostSendBlock_inv
        (hs.write (by simp) ⟨fun _ => hmult, fun _ => hlt.le, by simp, by simp⟩)
        (by simpa using hop) (himg.of_same (by simp)) (by simpa only [cancel_cfg] using hlt)
    · exact violation_inv hi
  · next hl =>
    have hs := hi.devSession hl rfl
    exact devSendBlock_inv (hs.write (by simp) (by simp) (by simp)) (by simpa using hl)
  · exact violation_inv hi
  · exact violation_inv hi

theorem txrxDoneRule_inv {s : State} (hi : s.Inv) : answers (txrxDoneRule s) State.Inv := by
  unfold txrxDoneRule; dsimp only
  split
  · next hl =>
    have hs := hi.hostSession hl rfl
    obtain ⟨-, -, hx, hblk⟩ := hi.awaitsAck hl
    split
    · obtain ⟨-, hmult, hfit⟩ := nextOffset hs.sound.xfer_mult (hs.memsize_eq ▸ hx)
      rw [hs.memsize_eq] at hfit
      rw [answers_next, blockEnd, hblk]
      exact hostToIdle_inv
        (hs.write (by simp) ⟨fun _ => hmult, fun _ => hfit, by simp, by simp⟩) rfl
    · exact violation_inv hi
  · next hl =>
    have hs := hi.devSession hl rfl
    split
    · rw [answers_next]
      exact (hs.write (by simp) (by simp) (by simp)).idle_inv rfl (by simp)
    · exact violation_inv hi
  · exact violation_inv hi
  · exact violation_inv hi

theorem errRule_inv {s : State} (e : Byte) (hi : s.Inv) : answers (errRule e s) State.Inv := by
  unfold errRule
  split
  case h_1 => exact (answers_next _ _).2 (hostHalt_inv e hi.sound)
  case h_2 hl =>
    have hs := hi.hostSession hl rfl
    have ht := (hi.hostInv hl).timer
    have hp := (hi.hostInv hl).pend_op (.inl rfl)
    have hop : s.curOp = none := (hi.hostInv hl).cur_op
    rw [answers_next]
    exact (hs.write (by simp) (by simp)).inv (h := .idle) hl rfl ⟨hop, ht, trivial⟩
      (fun _ => hp) (by simp [hop])
  case h_3 hl | h_4 hl | h_5 hl | h_6 hl => exact (answers_next _ _).2 (hostOpFail_inv e (hi.hostSession hl rfl))
  case h_7 => exact violation_inv hi
  case h_8 d hl => exact (answers_next _ _).2 (devToSafe_inv (hi.devAnywhere hl))

theorem txrxErrRule_inv {s : State} (hi : s.Inv) : answers (txrxErrRule s) State.Inv := by
  unfold txrxErrRule
  split
  · next hl =>
    have hs := hi.hostSession hl rfl
    obtain ⟨hop, himg, hx, -⟩ := hi.awaitsAck hl
    split
    · next hlt =>
      obtain ⟨-, ⟨-, hmax⟩, -⟩ := hi.cfg_wf
      have hr : (s.retryCnt + 1).toNat ≤ s.cfg.maxRetry := by
        rw [BitVec.toNat_add, show (1 : U16).toNat = 1 from rfl]; omega
      exact hostSendBlock_inv
        (hs.write (by simp) ⟨by simp, by simp, fun _ => by simpa using hr, by simp⟩)
        (by simpa using hop) (himg.of_same (by simp)) (by simpa using hx)
    · exact (answers_raising _ _ _).2 (raise_inv _ (by simp) hi)
  · exact violation_inv hi
  · exact violation_inv hi

/-! The transfer commands (spec/46_cmd_transfer.md). -/

theorem readmemRule_inv {s : State} (t : Byte) (hi : s.Inv) : answers (readmemRule t s) State.Inv := by
  unfold readmemRule
  split
  · next hl => exact devBegin_inv t .read (.inl rfl) (hi.devSession hl rfl) hl
  · exact violation_inv hi
  · exact violation_inv hi

theorem writememRule_inv {s : State} (t : Byte) (hi : s.Inv) : answers (writememRule t s) State.Inv := by
  unfold writememRule
  split
  · next hl => exact devBegin_inv t .write (.inr rfl) (hi.devSession hl rfl) hl
  · exact violation_inv hi
  · exact violation_inv hi

theorem readnextRule_inv {s : State} (hi : s.Inv) : answers (readnextRule s) State.Inv := by
  unfold readnextRule
  split
  · next hl =>
    have hs := hi.devSession hl rfl
    exact devSendBlock_inv (hs.write (by simp) (by simp) (by simp)) (by simpa using hl)
  · exact violation_inv hi
  · exact violation_inv hi

/-- A block on a HOST that reads is appended to `xfer_buf`; the last one ends the operation (R242). -/
theorem hostTakeBlock_inv {s : State} (P : List Byte) (hP : P.length = 256) (hi : s.Inv)
    (hl : s.link = .host .waitReadmemData) : answers (hostTakeBlock P s) State.Inv := by
  have hs := hi.hostSession hl rfl
  have hop : s.curOp = some .read := (hi.hostInv hl).cur_op
  have hlt : s.xferCnt.toNat < memsize s.memtype := (hi.hostInv hl).progress
  obtain ⟨hnext, hmult, hfit⟩ := nextOffset hs.sound.xfer_mult hlt
  rw [hs.memsize_eq] at hfit
  have hbuf : ∀ i < s.xferCnt.toNat + 256, ((s.xferBuf.writeBytes s.xferCnt.toNat P).lookup i).isSome := by
    intro i hi'
    by_cases hold : i < s.xferCnt.toNat
    · exact Memory.writeBytes_written _ _ _ _ ((hi.hostInv hl).read_written hop i hold)
    · rw [Memory.lookup_writeBytes, if_pos (by omega)]
      simp; omega
  unfold hostTakeBlock; dsimp only
  rw [hP]
  split
  · exact answers_fault _ _
  · next hin =>
    have hw : (xferWrite s.xferCnt.toNat P (cancel s)).Sound :=
      State.Sound.xferWrite (hs.sound.update (by simp) (by simp)) _ P (by simp at hin; omega)
    have hsess : ({ xferWrite s.xferCnt.toNat P (cancel s) with
        xferCnt := BitVec.ofNat 16 (s.xferCnt.toNat + 256) } : State).HostSession :=
      { sound := hw.update (by simp) ⟨fun _ => hmult, by simp, by simp⟩
        image := fun hp i hi' => by
          simpa using Memory.writeBytes_written _ s.xferCnt.toNat P _ (hs.image (by simpa using hp) i (by simpa using hi'))
        memtype_eq := by simpa using hs.memtype_eq
        enabled := by simpa using hs.enabled
        connected_eq := by simpa using hs.connected_eq
        xfer_le := by simpa using hfit }
    simp only [cancel_xferCnt] at *
    split
    · next hmore =>
      rw [answers_next]
      exact (hsess.write (by simp) (by simp)).inv (h := .waitReadmemData)
        (by simpa using hl) rfl ⟨by simpa [HostState.mayHold] using hop, by simp [HostState.resting],
          by simpa [HostState.progress] using hmore⟩ (by simp) ⟨fun _ => by simpa [hnext] using hbuf, by simp [hop]⟩
    · rw [answers_next]
      exact hostToIdle_inv (hsess.write (by simp) (by simp)) rfl

theorem memdataRule_inv {s : State} (P : List Byte) (hP : P.length = 256) (hi : s.Inv) :
    answers (memdataRule P s) State.Inv := by
  unfold memdataRule
  split
  · next hl => exact hostTakeBlock_inv P hP hi hl
  · next hl => exact devTakeBlock_inv P hP (hi.devSession hl rfl) hl
  · exact violation_inv hi
  · exact violation_inv hi

end Sys2Proof.Machine
end

