-- ==== Sys2Proof/Proofs/Invariant.lean ====
section
/-! PROOFS. The invariant of R51 holds after reset, every step keeps it, and it gives the bounds that R51 lists. Settles O55, O56 and O58. -/

namespace Sys2Proof.Machine

/-- A step that leaves all that the dispatcher's part speaks of keeps the invariant. The events of the application port are of no account on a HOST. -/
theorem State.Inv.update {s t : State} (hi : s.Inv) (ht : t.Sound)
    (hsame : t.link = s.link ∧ t.cfg = s.cfg ∧ t.memtype = s.memtype ∧ t.linkEn = s.linkEn ∧ t.connected = s.connected ∧
      t.curOp = s.curOp ∧ t.pendOp = s.pendOp ∧ t.timerArmed = s.timerArmed ∧ t.xferBuf = s.xferBuf)
    (hcnt : t.xferCnt = s.xferCnt ∧ t.blkLen = s.blkLen ∧ t.retryCnt = s.retryCnt)
    (hev : ∀ d, s.link = .device d → t.appEv = s.appEv) : t.Inv := by
  obtain ⟨hlink, hcfg, hmem, hen, hcon, hcur, hpend, htimer, hbuf⟩ := hsame
  obtain ⟨hx, hblk, hretry⟩ := hcnt
  refine ht.inv (by rw [hx, hmem]; exact hi.counters.xfer_le) ?_
  cases hl : s.link with
  | host h =>
    obtain ⟨h1, h2, h3, h4, h5, h6, h7, h8, h9⟩ := hi.hostInv hl
    have hprog : h.progress t ↔ h.progress s := by cases h <;> simp [HostState.progress, hx, hmem, hblk]
    rw [State.LinkInv, hlink, hl]
    constructor <;> simp only [hcfg, hmem, hen, hcon, hcur, hpend, htimer, hx, hbuf, hprog] <;> assumption
  | device d =>
    obtain ⟨h1, h2, h3, h4, h5, h6, h7, h8⟩ := hi.devInv hl
    rw [State.LinkInv, hlink, hl]
    constructor
    case not_ping => exact h1
    all_goals simp only [hmem, hen, hcon, hcur, hpend, htimer, hx, hblk, hretry, hbuf, hev d hl]; assumption

/-! Delivery (R171). -/

/-- Every command's own rule keeps the invariant, that of a block if it has the 256 bytes of every frame of `MEMDATA` (R100). -/
theorem rule_inv {s : State} (i : Instr) (hi : s.Inv) (hP : ∀ P cs, i = .memdata P cs → P.length = 256) :
    answers (Instr.rule i s) State.Inv := by
  cases i with
  | noneCmd cs => exact violation_inv hi
  | init cs => exact initRule_inv hi
  | ping cs => exact pingRule_inv hi
  | memid t cs => exact memidRule_inv t hi
  | startxfer cs => exact violation_inv hi
  | endxfer cs => exact violation_inv hi
  | disconnect cs => exact disconnectRule_inv hi
  | ok cs => exact okRule_inv hi
  | txrxAck cs => exact txrxAckRule_inv hi
  | txrxDone cs => exact txrxDoneRule_inv hi
  | err e cs => exact errRule_inv e hi
  | txrxErr cs => exact txrxErrRule_inv hi
  | readmem t cs => exact readmemRule_inv t hi
  | readnext cs => exact readnextRule_inv hi
  | memdata P cs => exact memdataRule_inv P (hP P cs rfl) hi
  | data x cs => exact violation_inv hi
  | info P cs => exact violation_inv hi
  | writemem t cs => exact writememRule_inv t hi

/-- Every command keeps the invariant, whether its frame is ignored, broken or ruled on. -/
theorem exec_inv {s : State} (i : Instr) (hi : s.Inv) (hP : ∀ P cs, i = .memdata P cs → P.length = 256) :
    answers (exec i s) State.Inv := by
  have hi' : ({ s with lastRxCmd := i.opcode } : State).Inv :=
    hi.update (hi.sound.update (by simp) (by simp)) (by simp) (by simp) (by simp)
  exact exec_answers (fun _ => hi') (fun _ => raise_inv _ (by simp) hi') (rule_inv i hi' hP)

/-- A frame of `MEMDATA` that comes out of the decoder has 256 payload bytes (R98, R100). -/
theorem State.Inv.frame_memdata {s : State} (hi : s.Inv) {b : Byte} {f : Frame} {P : List Byte} {cs : U16}
    (hf : (decodeStep s.decCtx s.dec b).2 = some f) (hinstr : f.instr = some (.memdata P cs)) : P.length = 256 := by
  obtain ⟨hend, -, -, rfl⟩ := decodeStep_frame _ _ _ _ hf
  have hframe := Frame.instr_eq_some _ _ hinstr
  have hcmd : s.dec.rxCmd = cmdMemdata := congrArg Frame.cmd hframe
  have hpay : rxPayload s.decCtx s.dec = P := congrArg Frame.payload hframe
  have hlen : s.dec.rxLen.toNat = frameLen s.cfg s.dec.rxCmd := hi.decoder.len_cmd (.inr (.inr hend))
  rw [← hpay, rxPayload, Memory.readBytes_length, hlen, hcmd]
  rfl

/-! Events (R14). -/

theorem rxByte_inv {s : State} (b : Byte) (hi : s.Inv) : answers (rxByte b s) State.Inv := by
  have hd : ({ s with dec := (decodeStep s.decCtx s.dec b).1 } : State).Inv :=
    hi.update (hi.sound.decodeStep b) (by simp) (by simp) (by simp)
  exact rxByte_answers hd fun f i hf hinstr =>
    exec_inv i hd fun P cs hP => hi.frame_memdata hf (hinstr.trans (congrArg some hP))

theorem txByte_inv {s : State} (hi : s.Inv) : (txByte s).Inv := by
  unfold txByte
  split
  · exact hi
  · next b rest hq =>
    have hsound : ({ s with txq := rest, wireOut := s.wireOut ++ [b] } : State).Sound := by
      refine hi.sound.update (by simp) ⟨by simp, by simp, ?_⟩
      rw [hq, List.length_cons]
      exact Nat.le_of_succ_le
    exact hi.update hsound (by simp) (by simp) (by simp)

/-- The expiry of the reply timer: it is armed only where `Timeout` has a handler that ends the wait (R282 to R284). -/
theorem timerFired_inv {s : State} (hi : s.Inv) : (timerFired s).Inv := by
  unfold timerFired
  split
  · next harmed =>
    unfold raise
    rw [disarm_link]
    cases hl : s.link with
    | host h =>
      have hb : (disarm s).HostBase := (hi.hostBase hl).update (hi.sound.update (by simp) (by simp)) (by simp)
      have hrest : h.resting = false := by simpa [harmed] using (hi.hostInv hl).timer
      cases h with
      | disconnected => cases hrest
      | idle => cases hrest
      | halted => cases hrest
      | memid => exact hostHalt_inv _ hb.sound
      | init => exact hostReconnect_inv _ hb
      | waitPing => exact hostReconnect_inv _ hb
      | waitReadmemOk => exact hostReconnect_inv _ hb
      | waitReadmemData => exact hostReconnect_inv _ hb
      | waitWritememOk => exact hostReconnect_inv _ hb
      | waitWritememAck => exact hostReconnect_inv _ hb
    | device d =>
      have hany : (disarm s).DevAnywhere d :=
        (hi.devAnywhere hl).update ((hi.devBase hl).write (by simp) (by simp)) (by simp)
      have htimer := harmed.symm.trans (hi.devInv hl).timer
      cases d with
      | disconnected => cases htimer
      | idle => cases htimer
      | ping => cases htimer
      | waitMemid => exact deviceError_inv _ hany
      | read => exact deviceError_inv _ hany
      | write => exact deviceError_inv _ hany
  · exact hi

theorem liveTick_inv {s : State} (hi : s.Inv) : (liveTick s).Inv := by
  unfold liveTick
  split
  · next hl =>
    have hs := hi.hostSession hl rfl
    split
    · next hop =>
      exact (hs.write (by simp) (by simp)).inv rfl rfl
        (by simp [HostState.mayHold, HostState.resting, HostState.progress, hop]) (by simp) (by simp [hop])
    · exact hi
  · exact hi
  · exact hi

/-- The image of a write request replaces what `xfer_buf` holds; nothing that was written is forgotten (R44, R185). -/
theorem loadImage_inv {s : State} {h : HostState} (r : Request) (hi : s.Inv) (hl : s.link = .host h)
    (hsize : sizeMismatch s.cfg r = false) :
    (loadImage r s).Inv ∧ (r.op = .write → (loadImage r s).imageWritten) := by
  cases r with
  | read => exact ⟨hi, by simp [Request.op]⟩
  | ping => exact ⟨hi, by simp [Request.op]⟩
  | write img =>
    have hlen : img.length = memTypeSize s.cfg.hostTarget := by simpa [sizeMismatch] using hsize
    have hfit : 0 + img.length ≤ xferBufSize := by
      rw [hlen]; cases s.cfg.hostTarget <;> simp [memTypeSize, xferBufSize]
    have himg : (xferWrite 0 img s).imageWritten := by
      intro i hlt
      have hlt : i < img.length := by rw [hlen]; exact hlt
      rw [xferWrite_xferBuf, Memory.lookup_writeBytes, if_pos ⟨Nat.zero_le i, by omega⟩]
      simp [hlt]
    have hv := hi.hostInv hl
    refine ⟨(State.Sound.xferWrite hi.sound 0 img hfit).inv hi.counters.xfer_le ?_, fun _ => himg⟩
    show State.LinkInv (xferWrite 0 img s)
    rw [State.LinkInv, xferWrite_link, hl]
    exact {
      memtype_eq := hv.memtype_eq
      enabled := hv.enabled
      connected_eq := hv.connected_eq
      cur_op := hv.cur_op
      pend_op := hv.pend_op
      timer := hv.timer
      progress := by have := hv.progress; cases h <;> exact this
      read_written := fun hop i hx => Memory.writeBytes_written _ _ _ _ (hv.read_written hop i hx)
      write_written := fun _ => himg }

/-- A request is refused, started at once, or deferred (R185). -/
theorem hostReq_inv {s : State} {h : HostState} (r : Request) (hi : s.Inv) (hl : s.link = .host h) :
    (hostReq h r s).Inv := by
  have hemit : ∀ ev, (emit ev s).Inv := fun ev =>
    hi.update (hi.sound.update (by simp) (by simp)) (by simp) (by simp) (by simp [hl])
  unfold hostReq; dsimp only
  split
  · exact hemit _
  · next hhalt =>
    split
    · exact hemit _
    · next hsize =>
      split
      · exact hemit _
      · obtain ⟨hload, himg⟩ := loadImage_inv r hi hl (by simpa using hsize)
        have hl' : (loadImage r s).link = .host h := by simpa using hl
        split
        · next hidle =>
          subst hidle
          exact hostStart_inv r.op (hload.hostSession hl' rfl) himg
        · next hidle =>
          have hv := hload.hostInv hl'
          refine State.Sound.inv (hload.sound.update (by simp) (by simp)) hload.counters.xfer_le ?_
          rw [State.LinkInv, show State.link { loadImage r s with pendOp := some r.op } = .host h from hl']
          exact {
            memtype_eq := hv.memtype_eq
            enabled := hv.enabled
            connected_eq := hv.connected_eq
            cur_op := hv.cur_op
            pend_op := fun hn => absurd hn (not_or.2 ⟨hidle, hhalt⟩)
            timer := hv.timer
            progress := by have := hv.progress; cases h <;> exact this
            read_written := hv.read_written
            write_written := fun hop =>
              hop.elim (fun hc => hv.write_written (.inl hc)) fun hp => himg (Option.some.inj hp) }

theorem req_inv {s : State} (r : Request) (hi : s.Inv) : (req r s).Inv := by
  unfold req
  split
  · next h hl => exact hostReq_inv r hi hl
  · exact hi

theorem reqConnect_inv {s : State} (hi : s.Inv) : (reqConnect s).Inv := by
  unfold reqConnect
  split
  · next hl =>
    obtain ⟨-, hop, hx⟩ := hi.sessionless hl rfl
    exact hostEnterDisconnected_inv ((hi.hostBase hl).update (hi.sound.update (by simp) (by simp)) (by simp)) hop hx
      (by simp)
  · exact hi
  · exact hi

/-- The teardown of a disconnect request, from a HOST whose timer is at rest (R187). -/
theorem teardown_inv {s : State} (hs : s.Sound) (ht : s.timerArmed = false) :
    (hostEnterDisconnected (clearBuffers (hostAbortPending .disconnected (hostAbort .disconnected s)))).Inv := by
  rw [hostAbort_eq, hostAbortPending_eq]
  exact hostEnterDisconnected_inv ⟨(hs.update (by simp) (by simp)).clearBuffers, by simp⟩ rfl rfl fun _ => ht

theorem hostDisconnect_inv {s : State} {h : HostState} (hi : s.Inv) (hl : s.link = .host h) :
    (hostDisconnect h s).Inv := by
  unfold hostDisconnect; dsimp only
  split
  · next hdis =>
    subst hdis
    exact teardown_inv (hi.sound.update (by simp) (by simp)) (hi.hostInv hl).timer
  · exact teardown_inv (hi.sound.update (by simp) (by simp)) (by simp)

theorem reqDisconnect_inv {s : State} (hi : s.Inv) : (reqDisconnect s).Inv := by
  unfold reqDisconnect
  split
  · exact hi
  · next h _ hl => exact hostDisconnect_inv hi hl
  · exact hi

/-! Reset (R50, R300). -/

/-- The state right after reset: nothing received, nothing queued, no link (R50). -/
theorem resetOf_inv (c : Cfg) (r : Role) (hc : c.wf) : (State.resetOf c r).Inv := by
  have hs : (State.resetOf c r).Sound :=
    { cfg_wf := hc
      decoder := .of_outside (Nat.zero_le _) (.inl rfl)
      memory := ⟨.nil, by simp [State.resetOf, Decoder.reset], .nil, by simp [State.resetOf], by simp [State.resetOf]⟩
      xfer_mult := rfl
      retry_le := Nat.zero_le _
      txq_le := Nat.zero_le _ }
  cases r with
  | host => exact State.HostBase.inv ⟨hs, by simp [State.resetOf]⟩ rfl rfl ⟨rfl, rfl, rfl⟩ ⟨rfl, rfl, rfl⟩ (by simp)
  | device => exact State.DevBase.inv ⟨hs, ⟨rfl, rfl, rfl, rfl, rfl⟩, rfl, rfl⟩ rfl rfl ⟨rfl, rfl⟩ ⟨rfl, rfl⟩

theorem resetEvent_inv {s : State} (hi : s.Inv) : (resetEvent s).Inv := by
  have hr := resetOf_inv s.cfg s.role hi.cfg_wf
  have hs : ({ State.resetOf s.cfg s.role with backend := s.backend } : State).Sound :=
    hr.sound.setBackend s.backend hi.memory.backend_wf
  unfold resetEvent
  exact hr.update (hs.update (by simp) (by simp)) (by simp) (by simp) (by simp)

/-! Steps. -/

theorem handle_inv {s : State} (e : Event) (hi : s.Inv) : answers (handle e s) State.Inv := by
  cases e with
  | rxByte b => exact rxByte_inv b hi
  | txByte => exact (answers_next _ _).2 (txByte_inv hi)
  | timerFired => exact (answers_next _ _).2 (timerFired_inv hi)
  | liveTick => exact (answers_next _ _).2 (liveTick_inv hi)
  | req r => exact (answers_next _ _).2 (req_inv r hi)
  | reqConnect => exact (answers_next _ _).2 (reqConnect_inv hi)
  | reqDisconnect => exact (answers_next _ _).2 (reqDisconnect_inv hi)
  | reset => exact (answers_next _ _).2 (resetEvent_inv hi)

theorem step_inv {s : State} (hi : s.Inv) : answers (step s) State.Inv := by
  cases he : s.events with
  | nil => rw [step_idle s he]; exact (answers_next _ _).2 hi
  | cons e rest =>
    rw [step_event s e rest he]
    exact handle_inv e (hi.update (hi.sound.update (by simp) (by simp)) (by simp) (by simp) (by simp))

/-- Settles O55: `resetOf_inv`. -/
theorem resetStatesMeetTheInvariant : Obligations.ResetStatesMeetTheInvariant := by
  intro c r hc
  exact resetOf_inv c r hc

/-- Settles O56: `step_inv`, by the event taken, the command delivered and the link state. -/
theorem stepsKeepTheInvariant : Obligations.StepsKeepTheInvariant := by
  intro s s' hi h
  exact step_inv hi s' h

/-! What the invariant gives. -/

/-- In the link states without a transfer in flight or a reply awaited the dispatcher's registers are at rest (R51). -/
theorem State.Inv.registers {s : State} (hi : s.Inv) :
    (∀ h, s.link = .host h → h ∈ ([.disconnected, .init, .memid, .idle, .halted] : List HostState) → s.curOp = none) ∧
    (s.link ∈ ([.host .disconnected, .host .idle, .host .halted, .device .disconnected, .device .idle] :
      List LinkState) → s.timerArmed = false) ∧
    (s.link ∈ ([.host .disconnected, .host .init, .host .memid, .host .halted, .device .disconnected,
      .device .waitMemid] : List LinkState) → s.memtype = 0x00) := by
  cases hl : s.link with
  | host h =>
    have hop := (hi.hostInv hl).cur_op
    have ht := (hi.hostInv hl).timer
    have hm := (hi.hostInv hl).memtype_eq
    cases h <;> simp_all [HostState.mayHold, HostState.resting, HostState.sessionless, mtNone]
  | device d =>
    have ht := (hi.devInv hl).timer
    have hm := (hi.devInv hl).memtype_eq
    cases d <;> simp_all [DevState.inSession, mtNone]

/-- Settles O58: the decoder's part and the counters' give the bounds, `registers` the link states' values, and a multiple of 256 a block of 256 bytes. -/
theorem invariantGivesTheBoundsOfR51 : Obligations.InvariantGivesTheBoundsOfR51 := by
  intro s hi
  exact ⟨fun hs => ⟨(hi.decoder.data_cnt hs).le, hi.decoder.len_le⟩, hi.decoder.csum_cnt, hi.counters.xfer_le,
    hi.counters.xfer_mult, memdataLen_of_mult s.decCtx hi.counters.xfer_mult, hi.registers⟩

end Sys2Proof.Machine
end

