-- ==== Sys2Proof/Proofs/SessionMemory.lean ====
section
/-! PROOFS. `memtype` is fixed for a session (spec/10_state.md R35): what writes it starts or ends outside every session. Settles O50. -/

namespace Sys2Proof.Machine

/-- A link state of a session, in either role. -/
def LinkState.inSession : LinkState → Bool
  | .host h => !h.sessionless
  | .device d => d.inSession

/-- From a state of a session to a state of a session, `memtype` stays. -/
def State.keepsMemtype (s t : State) : Prop :=
  s.link.inSession = true → t.link.inSession = true → t.memtype = s.memtype

theorem keepsMemtype_of_eq {s t : State} (h : t.memtype = s.memtype) : s.keepsMemtype t := fun _ _ => h

/-- Before the session there is nothing to keep. -/
theorem keepsMemtype_of_before {s t : State} (h : s.link.inSession = false) : s.keepsMemtype t :=
  fun hs => absurd hs (by simp [h])

/-- After the session there is nothing left to keep. -/
theorem keepsMemtype_of_after {s t : State} (h : t.link.inSession = false) : s.keepsMemtype t :=
  fun _ ht => absurd ht (by simp [h])

theorem State.keepsMemtype.of_same {s u t : State} (h : u.keepsMemtype t) (hl : u.link = s.link)
    (hm : u.memtype = s.memtype) : s.keepsMemtype t := by
  unfold State.keepsMemtype at *
  rwa [hl, hm] at h

theorem keepsMemtype_answers_of_same {s u : State} {r : Result} (h : answers r u.keepsMemtype)
    (hl : u.link = s.link) (hm : u.memtype = s.memtype) : answers r s.keepsMemtype :=
  fun t ht => (h t ht).of_same hl hm

/-! The procedures: those of an operation leave `memtype`, those that end the session leave it. -/

@[simp] theorem hostStart_memtype (op : OpKind) (s : State) : (hostStart op s).memtype = s.memtype := by
  cases op <;> simp [hostStart]
@[simp] theorem hostService_memtype (s : State) : (hostService s).memtype = s.memtype := by
  rcases hostService_cases s with ⟨-, h⟩ | ⟨op, -, h⟩ <;> simp [h]
@[simp] theorem hostToIdle_memtype (s : State) : (hostToIdle s).memtype = s.memtype := by simp [hostToIdle]
@[simp] theorem hostOpFail_memtype (code : Byte) (s : State) : (hostOpFail code s).memtype = s.memtype := by
  simp [hostOpFail, hostAbort_eq]

@[simp] theorem hostEnterDisconnected_inSession (s : State) : (hostEnterDisconnected s).link.inSession = false := by
  unfold hostEnterDisconnected; dsimp only; split <;> rfl
@[simp] theorem hostReconnect_inSession (kind : Byte) (s : State) : (hostReconnect kind s).link.inSession = false :=
  hostEnterDisconnected_inSession _
@[simp] theorem hostHalt_inSession (kind : Byte) (s : State) : (hostHalt kind s).link.inSession = false := rfl

theorem devToSafe_keepsMemtype (s : State) : s.keepsMemtype (devToSafe s) := by
  cases hl : s.link with
  | host h => exact keepsMemtype_of_eq (by simp [devToSafe, hl])
  | device d =>
    rw [devToSafe_eq hl]
    unfold State.madeSafe; dsimp only
    split
    · exact keepsMemtype_of_eq rfl
    · exact keepsMemtype_of_after rfl

theorem deviceError_keepsMemtype (code : ErrorCode) (s : State) : s.keepsMemtype (deviceError code s) :=
  (devToSafe_keepsMemtype _).of_same (by simp) (by simp)

theorem hostTimeout_keepsMemtype (h : HostState) (s : State) : s.keepsMemtype (hostTimeout h s) := by
  cases h with
  | disconnected => exact keepsMemtype_of_eq rfl
  | idle => exact keepsMemtype_of_eq rfl
  | halted => exact keepsMemtype_of_eq rfl
  | memid => exact keepsMemtype_of_after rfl
  | init => exact keepsMemtype_of_after (hostReconnect_inSession _ s)
  | waitPing => exact keepsMemtype_of_after (hostReconnect_inSession _ s)
  | waitReadmemOk => exact keepsMemtype_of_after (hostReconnect_inSession _ s)
  | waitReadmemData => exact keepsMemtype_of_after (hostReconnect_inSession _ s)
  | waitWritememOk => exact keepsMemtype_of_after (hostReconnect_inSession _ s)
  | waitWritememAck => exact keepsMemtype_of_after (hostReconnect_inSession _ s)

theorem devTimeout_keepsMemtype (d : DevState) (s : State) : s.keepsMemtype (devTimeout d s) := by
  unfold devTimeout
  split
  case h_1 | h_2 | h_3 => exact deviceError_keepsMemtype _ s
  all_goals exact keepsMemtype_of_eq rfl

theorem devChecksumFailure_keepsMemtype (d : DevState) (s : State) : s.keepsMemtype (devChecksumFailure d s) := by
  unfold devChecksumFailure
  split
  case h_1 => exact keepsMemtype_of_eq (by simp)
  all_goals exact deviceError_keepsMemtype _ s

/-- Every handler keeps `memtype` or ends the session (R262). -/
theorem raise_keepsMemtype (x : Exn) (s : State) : s.keepsMemtype (raise x s) := by
  unfold raise
  split
  case h_1 | h_2 | h_4 => exact keepsMemtype_of_after (hostReconnect_inSession _ s)
  case h_3 h _ => exact hostTimeout_keepsMemtype h s
  case h_5 | h_9 => exact keepsMemtype_of_eq rfl
  case h_6 | h_10 => exact deviceError_keepsMemtype _ s
  case h_7 d _ => exact devChecksumFailure_keepsMemtype d s
  case h_8 d _ => exact devTimeout_keepsMemtype d s

theorem violation_keepsMemtype (s : State) : answers (raising .protocolViolation s) s.keepsMemtype :=
  (answers_raising _ _ _).2 (raise_keepsMemtype _ s)

/-- A procedure or a rule that leaves `memtype` wherever it ends. -/
theorem keepsMemtype_next {s t : State} (h : t.memtype = s.memtype) : answers (.next t) s.keepsMemtype :=
  (answers_next _ _).2 (keepsMemtype_of_eq h)

theorem hostSendBlock_keepsMemtype (s : State) : answers (hostSendBlock s) s.keepsMemtype := by
  unfold hostSendBlock; dsimp only
  split
  · exact answers_fault _ _
  · exact keepsMemtype_next (by simp)

theorem devSendBlock_keepsMemtype (s : State) : answers (devSendBlock s) s.keepsMemtype := by
  have hraise : ∀ x t, t.link = s.link → t.memtype = s.memtype → answers (raising x t) s.keepsMemtype :=
    fun x t hl hm => (answers_raising _ _ _).2 ((raise_keepsMemtype x t).of_same hl hm)
  unfold devSendBlock; dsimp only
  split
  · exact hraise _ s rfl rfl
  · split
    · next u hr =>
      obtain ⟨b, rfl, -⟩ := memRead_cases hr
      exact hraise _ _ rfl rfl
    · next r u hr =>
      obtain ⟨b, rfl, -⟩ := memRead_cases hr
      exact keepsMemtype_next (by simp)

theorem devBegin_keepsMemtype (t : Byte) (d : DevState) (s : State) : answers (devBegin t d s) s.keepsMemtype := by
  unfold devBegin
  split
  · exact keepsMemtype_next (by simp)
  · exact (answers_raising _ _ _).2 (raise_keepsMemtype _ s)

theorem hostTakeBlock_keepsMemtype (P : List Byte) (s : State) : answers (hostTakeBlock P s) s.keepsMemtype := by
  unfold hostTakeBlock; dsimp only
  split
  · exact answers_fault _ _
  · split <;> exact keepsMemtype_next (by simp)

theorem devBlockDone_keepsMemtype (n : Nat) (s : State) : answers (devBlockDone n s) s.keepsMemtype := by
  unfold devBlockDone; dsimp only
  split <;> exact keepsMemtype_next (by simp)

theorem devTakeBlock_keepsMemtype (P : List Byte) (s : State) : answers (devTakeBlock P s) s.keepsMemtype := by
  have hraise : ∀ x b, answers (raising x { cancel s with backend := b }) s.keepsMemtype :=
    fun x b => (answers_raising _ _ _).2 ((raise_keepsMemtype x { cancel s with backend := b }).of_same (by simp) (by simp))
  unfold devTakeBlock; dsimp only
  split
  · exact hraise _ _
  · split
    · split
      · next u hw =>
        obtain ⟨b, rfl, -⟩ := memWrite_cases hw
        exact hraise _ b
      · next u hw =>
        obtain ⟨b, rfl, -⟩ := memWrite_cases hw
        split
        · next v hr =>
          obtain ⟨b', rfl, -⟩ := memRead_cases hr
          exact hraise _ b'
        · next r v hr =>
          obtain ⟨b', rfl, -⟩ := memRead_cases hr
          split
          · exact keepsMemtype_answers_of_same (devBlockDone_keepsMemtype _ _) (by simp) (by simp)
          · exact hraise _ b'
    · exact answers_fault _ _

/-! The rules that write `memtype`: at the handshake, and where the session ends. -/

theorem initRule_keepsMemtype (s : State) : answers (initRule s) s.keepsMemtype := by
  unfold initRule; dsimp only
  split
  · exact keepsMemtype_next (by simp)
  · exact violation_keepsMemtype s
  · exact (answers_next _ _).2 (keepsMemtype_of_after rfl)

theorem memidRule_keepsMemtype (t : Byte) (s : State) : answers (memidRule t s) s.keepsMemtype := by
  unfold memidRule; dsimp only
  split
  · next hl =>
    have hbefore : s.link.inSession = false := by rw [hl]; rfl
    exact fun _ _ => keepsMemtype_of_before hbefore
  · exact violation_keepsMemtype s
  · exact violation_keepsMemtype s

theorem disconnectRule_keepsMemtype (s : State) : answers (disconnectRule s) s.keepsMemtype := by
  unfold disconnectRule
  split
  · exact (answers_next _ _).2 (keepsMemtype_of_after rfl)
  · exact violation_keepsMemtype s

theorem okRule_keepsMemtype (s : State) : answers (okRule s) s.keepsMemtype := by
  unfold okRule
  split
  · next hl =>
    have hbefore : s.link.inSession = false := by rw [hl]; rfl
    exact fun _ _ => keepsMemtype_of_before hbefore
  · exact keepsMemtype_next (by simp)
  · exact keepsMemtype_answers_of_same (hostSendBlock_keepsMemtype _) (by simp) (by simp)
  · exact violation_keepsMemtype s
  · exact violation_keepsMemtype s

/-! The rules that leave it. -/

theorem pingRule_keepsMemtype (s : State) : answers (pingRule s) s.keepsMemtype := by
  unfold pingRule; dsimp only
  split
  · exact keepsMemtype_next (by simp)
  · exact violation_keepsMemtype s
  · exact violation_keepsMemtype s

theorem txrxAckRule_keepsMemtype (s : State) : answers (txrxAckRule s) s.keepsMemtype := by
  unfold txrxAckRule; dsimp only
  split
  · split
    · rw [hostAbort_eq]; exact keepsMemtype_next (by simp)
    · exact keepsMemtype_next (by simp)
  · split
    · exact keepsMemtype_answers_of_same (hostSendBlock_keepsMemtype _) (by simp) (by simp)
    · exact violation_keepsMemtype s
  · exact keepsMemtype_answers_of_same (devSendBlock_keepsMemtype _) (by simp) (by simp)
  · exact violation_keepsMemtype s
  · exact violation_keepsMemtype s

theorem txrxDoneRule_keepsMemtype (s : State) : answers (txrxDoneRule s) s.keepsMemtype := by
  unfold txrxDoneRule; dsimp only
  split
  · split
    · exact keepsMemtype_next (by simp)
    · exact violation_keepsMemtype s
  · split
    · exact keepsMemtype_next (by simp)
    · exact violation_keepsMemtype s
  · exact violation_keepsMemtype s
  · exact violation_keepsMemtype s

theorem errRule_keepsMemtype (e : Byte) (s : State) : answers (errRule e s) s.keepsMemtype := by
  unfold errRule
  split
  case h_1 => exact (answers_next _ _).2 (keepsMemtype_of_after rfl)
  case h_7 => exact violation_keepsMemtype s
  case h_8 => exact (answers_next _ _).2 (devToSafe_keepsMemtype s)
  all_goals exact keepsMemtype_next (by simp)

theorem txrxErrRule_keepsMemtype (s : State) : answers (txrxErrRule s) s.keepsMemtype := by
  unfold txrxErrRule
  split
  · split
    · exact keepsMemtype_answers_of_same (hostSendBlock_keepsMemtype _) (by simp) (by simp)
    · exact (answers_raising _ _ _).2 (raise_keepsMemtype _ s)
  · exact violation_keepsMemtype s
  · exact violation_keepsMemtype s

theorem readmemRule_keepsMemtype (t : Byte) (s : State) : answers (readmemRule t s) s.keepsMemtype := by
  unfold readmemRule
  split
  · exact devBegin_keepsMemtype t .read s
  · exact violation_keepsMemtype s
  · exact violation_keepsMemtype s

theorem writememRule_keepsMemtype (t : Byte) (s : State) : answers (writememRule t s) s.keepsMemtype := by
  unfold writememRule
  split
  · exact devBegin_keepsMemtype t .write s
  · exact violation_keepsMemtype s
  · exact violation_keepsMemtype s

theorem readnextRule_keepsMemtype (s : State) : answers (readnextRule s) s.keepsMemtype := by
  unfold readnextRule
  split
  · exact keepsMemtype_answers_of_same (devSendBlock_keepsMemtype _) (by simp) (by simp)
  · exact violation_keepsMemtype s
  · exact violation_keepsMemtype s

theorem memdataRule_keepsMemtype (P : List Byte) (s : State) : answers (memdataRule P s) s.keepsMemtype := by
  unfold memdataRule
  split
  · exact hostTakeBlock_keepsMemtype P s
  · exact devTakeBlock_keepsMemtype P s
  · exact violation_keepsMemtype s
  · exact violation_keepsMemtype s

/-! Commands, events, steps. -/

theorem rule_keepsMemtype (i : Instr) (s : State) : answers (Instr.rule i s) s.keepsMemtype := by
  cases i with
  | init cs => exact initRule_keepsMemtype s
  | ping cs => exact pingRule_keepsMemtype s
  | memid t cs => exact memidRule_keepsMemtype t s
  | disconnect cs => exact disconnectRule_keepsMemtype s
  | ok cs => exact okRule_keepsMemtype s
  | txrxAck cs => exact txrxAckRule_keepsMemtype s
  | txrxDone cs => exact txrxDoneRule_keepsMemtype s
  | err e cs => exact errRule_keepsMemtype e s
  | txrxErr cs => exact txrxErrRule_keepsMemtype s
  | readmem t cs => exact readmemRule_keepsMemtype t s
  | readnext cs => exact readnextRule_keepsMemtype s
  | memdata P cs => exact memdataRule_keepsMemtype P s
  | writemem t cs => exact writememRule_keepsMemtype t s
  | noneCmd | startxfer | endxfer | data | info => exact violation_keepsMemtype s

theorem exec_keepsMemtype (i : Instr) (s : State) : answers (exec i s) s.keepsMemtype :=
  exec_answers (fun _ => keepsMemtype_of_eq rfl) (fun _ => (raise_keepsMemtype _ _).of_same rfl rfl)
    (keepsMemtype_answers_of_same (rule_keepsMemtype i _) rfl rfl)

theorem liveTick_memtype (s : State) : (liveTick s).memtype = s.memtype := by
  unfold liveTick
  split
  · split <;> simp
  · rfl
  · rfl

@[simp] theorem loadImage_memtype (r : Request) (s : State) : (loadImage r s).memtype = s.memtype := by cases r <;> rfl

theorem hostReq_memtype (h : HostState) (r : Request) (s : State) : (hostReq h r s).memtype = s.memtype := by
  unfold hostReq; dsimp only
  split
  · rfl
  · split
    · rfl
    · split
      · rfl
      · split <;> simp

theorem handle_keepsMemtype (e : Event) (s : State) : answers (handle e s) s.keepsMemtype := by
  cases e with
  | rxByte b =>
    exact rxByte_answers (keepsMemtype_of_eq rfl) fun _ i _ _ => keepsMemtype_answers_of_same (exec_keepsMemtype i _) rfl rfl
  | txByte => exact keepsMemtype_next (by unfold txByte; split <;> rfl)
  | timerFired =>
    refine (answers_next _ _).2 ?_
    unfold timerFired
    split
    · exact (raise_keepsMemtype _ _).of_same (by simp) (by simp)
    · exact keepsMemtype_of_eq rfl
  | liveTick => exact keepsMemtype_next (liveTick_memtype s)
  | req r => exact keepsMemtype_next (by unfold req; split <;> simp [hostReq_memtype])
  | reqConnect =>
    refine (answers_next _ _).2 ?_
    unfold reqConnect
    split
    · exact keepsMemtype_of_after (hostEnterDisconnected_inSession _)
    · exact keepsMemtype_of_eq rfl
    · exact keepsMemtype_of_eq rfl
  | reqDisconnect =>
    refine (answers_next _ _).2 ?_
    unfold reqDisconnect
    split
    · exact keepsMemtype_of_eq rfl
    · exact keepsMemtype_of_after (hostEnterDisconnected_inSession _)
    · exact keepsMemtype_of_eq rfl
  | reset =>
    refine (answers_next _ _).2 (keepsMemtype_of_after ?_)
    show s.role.disconnected.inSession = false
    cases s.role <;> rfl

theorem step_keepsMemtype (s : State) : answers (step s) s.keepsMemtype := by
  cases he : s.events with
  | nil => rw [step_idle s he]; exact keepsMemtype_next rfl
  | cons e rest =>
    rw [step_event s e rest he]
    exact keepsMemtype_answers_of_same (handle_keepsMemtype e { s with events := rest }) rfl rfl

/-- Settles O50: `step_keepsMemtype`, read for each role. -/
theorem memoryTypeIsFixedForTheSession : Obligations.MemoryTypeIsFixedForTheSession := by
  intro s s' h
  have hkeeps := step_keepsMemtype s s' h
  refine ⟨fun a b hl hl' ha hb => hkeeps ?_ ?_, fun a b hl hl' ha hb => hkeeps ?_ ?_⟩
  · rw [hl, LinkState.inSession, ha]; rfl
  · rw [hl', LinkState.inSession, hb]; rfl
  · rw [hl]; exact ha
  · rw [hl']; exact hb

end Sys2Proof.Machine
end

