-- ==== Sys2Proof/Proofs/CommandFrame.lean ====
section
/-! PROOFS. The frame of the 18 commands: what no command writes, what no command of a role writes, and what `MEMDATA` alone writes (spec/10_state.md R20, R33, R44; spec/20_memory.md R63, R64). Settles O54. -/

namespace Sys2Proof.Machine

/-! The frames, from the widest to the narrowest. -/

/-- `t` has what no rule writes as it is in `s`. -/
structure State.Kept (s t : State) : Prop where
  cfg : t.cfg = s.cfg
  events : t.events = s.events
  resets : t.resets = s.resets
  wireOut : t.wireOut = s.wireOut
  fltTxLen : t.fltTxLen = s.fltTxLen
  rxCmd : t.dec.rxCmd = s.dec.rxCmd
  rxBuf : t.dec.rxBuf = s.dec.rxBuf
  rxCsum : t.dec.rxCsum = s.dec.rxCsum
  lastRxCmd : t.lastRxCmd = s.lastRxCmd

/-- What no rule writes on a HOST, which has no backend (R64). -/
structure State.HostKept (s t : State) : Prop extends State.Kept s t where
  backend : t.backend = s.backend

/-- What no rule but `MEMDATA`'s writes on a HOST. -/
structure State.HostQuiet (s t : State) : Prop extends State.HostKept s t where
  xferBuf : t.xferBuf = s.xferBuf

/-- What no rule writes on a DEVICE: the registers that only a HOST has (R20). -/
structure State.DevKept (s t : State) : Prop extends State.Kept s t where
  xferBuf : t.xferBuf = s.xferBuf
  appEv : t.appEv = s.appEv
  linkEn : t.linkEn = s.linkEn
  curOp : t.curOp = s.curOp
  pendOp : t.pendOp = s.pendOp

/-- What no rule but `MEMDATA`'s writes on a DEVICE: an ideal backend is only read (R68). -/
structure State.DevQuiet (s t : State) : Prop extends State.DevKept s t where
  ideal : ∀ cells, s.backend = .ideal cells → t.backend = .ideal cells

theorem State.Kept.trans {s u t : State} (h : s.Kept u) (k : u.Kept t) : s.Kept t where
  cfg := k.cfg.trans h.cfg
  events := k.events.trans h.events
  resets := k.resets.trans h.resets
  wireOut := k.wireOut.trans h.wireOut
  fltTxLen := k.fltTxLen.trans h.fltTxLen
  rxCmd := k.rxCmd.trans h.rxCmd
  rxBuf := k.rxBuf.trans h.rxBuf
  rxCsum := k.rxCsum.trans h.rxCsum
  lastRxCmd := k.lastRxCmd.trans h.lastRxCmd

theorem State.HostKept.trans {s u t : State} (h : s.HostKept u) (k : u.HostKept t) : s.HostKept t :=
  ⟨h.toKept.trans k.toKept, k.backend.trans h.backend⟩

theorem State.HostQuiet.trans {s u t : State} (h : s.HostQuiet u) (k : u.HostQuiet t) : s.HostQuiet t :=
  ⟨h.toHostKept.trans k.toHostKept, k.xferBuf.trans h.xferBuf⟩

theorem State.DevKept.trans {s u t : State} (h : s.DevKept u) (k : u.DevKept t) : s.DevKept t :=
  ⟨h.toKept.trans k.toKept, k.xferBuf.trans h.xferBuf, k.appEv.trans h.appEv, k.linkEn.trans h.linkEn,
    k.curOp.trans h.curOp, k.pendOp.trans h.pendOp⟩

theorem State.DevQuiet.trans {s u t : State} (h : s.DevQuiet u) (k : u.DevQuiet t) : s.DevQuiet t :=
  ⟨h.toDevKept.trans k.toDevKept, fun cells hc => k.ideal cells (h.ideal cells hc)⟩

@[simp] theorem kept_iff (s t : State) : s.Kept t ↔
    t.cfg = s.cfg ∧ t.events = s.events ∧ t.resets = s.resets ∧ t.wireOut = s.wireOut ∧ t.fltTxLen = s.fltTxLen ∧
      t.dec.rxCmd = s.dec.rxCmd ∧ t.dec.rxBuf = s.dec.rxBuf ∧ t.dec.rxCsum = s.dec.rxCsum ∧
      t.lastRxCmd = s.lastRxCmd :=
  ⟨fun ⟨h1, h2, h3, h4, h5, h6, h7, h8, h9⟩ => ⟨h1, h2, h3, h4, h5, h6, h7, h8, h9⟩,
    fun ⟨h1, h2, h3, h4, h5, h6, h7, h8, h9⟩ => ⟨h1, h2, h3, h4, h5, h6, h7, h8, h9⟩⟩

@[simp] theorem hostKept_iff (s t : State) : s.HostKept t ↔ s.Kept t ∧ t.backend = s.backend :=
  ⟨fun ⟨h, k⟩ => ⟨h, k⟩, fun ⟨h, k⟩ => ⟨h, k⟩⟩

@[simp] theorem hostQuiet_iff (s t : State) : s.HostQuiet t ↔ s.HostKept t ∧ t.xferBuf = s.xferBuf :=
  ⟨fun ⟨h, k⟩ => ⟨h, k⟩, fun ⟨h, k⟩ => ⟨h, k⟩⟩

@[simp] theorem devKept_iff (s t : State) : s.DevKept t ↔
    s.Kept t ∧ t.xferBuf = s.xferBuf ∧ t.appEv = s.appEv ∧ t.linkEn = s.linkEn ∧ t.curOp = s.curOp ∧
      t.pendOp = s.pendOp :=
  ⟨fun ⟨h, h1, h2, h3, h4, h5⟩ => ⟨h, h1, h2, h3, h4, h5⟩, fun ⟨h, h1, h2, h3, h4, h5⟩ => ⟨h, h1, h2, h3, h4, h5⟩⟩

@[simp] theorem devQuiet_iff (s t : State) : s.DevQuiet t ↔
    s.DevKept t ∧ ∀ cells, s.backend = .ideal cells → t.backend = .ideal cells :=
  ⟨fun ⟨h, k⟩ => ⟨h, k⟩, fun ⟨h, k⟩ => ⟨h, k⟩⟩

/-- A `SEND` of a payload of the table's length sets no length fault (R121). -/
@[simp] theorem send_fltTxLen (c : Byte) (P : List Byte) (s : State) (h : P.length = plen s.decCtx c) :
    (send c P s).fltTxLen = s.fltTxLen := by
  rw [send_eq_sent c P s h, sent_fltTxLen]

/-! The procedures of a HOST. -/

theorem hostStart_quiet (op : OpKind) (s : State) : s.HostQuiet (hostStart op s) := by
  unfold hostStart
  cases op with
  | read => simp
  | write => simp
  | ping => simp

theorem hostToIdle_quiet (s : State) : s.HostQuiet (hostToIdle s) := by
  have hidle : s.HostQuiet { cancel s with link := .host .idle } := by simp
  unfold hostToIdle
  rcases hostService_cases { cancel s with link := .host .idle } with ⟨-, h⟩ | ⟨op, -, h⟩ <;> rw [h]
  · exact hidle
  · exact State.HostQuiet.trans (by simp) (hostStart_quiet op _)

theorem hostEnterDisconnected_quiet (s : State) : s.HostQuiet (hostEnterDisconnected s) := by
  unfold hostEnterDisconnected; dsimp only
  split <;> simp

theorem hostReconnect_quiet (kind : Byte) (s : State) : s.HostQuiet (hostReconnect kind s) := by
  unfold hostReconnect
  rw [hostAbort_eq]
  exact State.HostQuiet.trans (by simp) (hostEnterDisconnected_quiet _)

theorem hostHalt_quiet (kind : Byte) (s : State) : s.HostQuiet (hostHalt kind s) := by
  rw [hostHalt_eq]
  exact ⟨⟨⟨rfl, rfl, rfl, rfl, rfl, rfl, rfl, rfl, rfl⟩, rfl⟩, rfl⟩

theorem hostOpFail_quiet (code : Byte) (s : State) : s.HostQuiet (hostOpFail code s) := by
  unfold hostOpFail
  rw [hostAbort_eq]
  exact State.HostQuiet.trans (by simp) (hostToIdle_quiet _)

theorem hostSendBlock_quiet (s : State) : answers (hostSendBlock s) s.HostQuiet := by
  unfold hostSendBlock; dsimp only
  split
  · exact answers_fault _ _
  · exact (answers_next _ _).2 (by simp [State.decCtx])

theorem hostTimeout_quiet (h : HostState) (s : State) : s.HostQuiet (hostTimeout h s) := by
  unfold hostTimeout
  split
  case h_2 => exact hostHalt_quiet _ s
  case h_8 | h_9 | h_10 => simp
  all_goals exact hostReconnect_quiet _ s

/-- Every handler of a HOST (R262). -/
theorem raise_hostQuiet {s : State} {h : HostState} (x : Exn) (hl : s.link = .host h) : s.HostQuiet (raise x s) := by
  unfold raise
  rw [hl]
  cases x with
  | protocolViolation => exact hostReconnect_quiet _ s
  | checksumFailure => exact hostReconnect_quiet _ s
  | timeout => exact hostTimeout_quiet h s
  | retryExceeded => exact hostReconnect_quiet _ s
  | deviceError code => simp

/-! The procedures of a DEVICE. -/

theorem devToSafe_quiet {s : State} {d : DevState} (hl : s.link = .device d) : s.DevQuiet (devToSafe s) := by
  rw [devToSafe_eq hl]
  unfold State.madeSafe; dsimp only
  split <;> simp

theorem deviceError_quiet {s : State} {d : DevState} (code : ErrorCode) (hl : s.link = .device d) :
    s.DevQuiet (deviceError code s) :=
  State.DevQuiet.trans (by simp) (devToSafe_quiet (by simpa using hl))

theorem devTimeout_quiet {s : State} {d : DevState} (hl : s.link = .device d) : s.DevQuiet (devTimeout d s) := by
  unfold devTimeout
  split
  case h_1 | h_2 | h_3 => exact deviceError_quiet _ hl
  all_goals simp

theorem devChecksumFailure_quiet {s : State} {d : DevState} (hl : s.link = .device d) :
    s.DevQuiet (devChecksumFailure d s) := by
  unfold devChecksumFailure
  split
  case h_1 => simp
  all_goals exact deviceError_quiet _ hl

/-- Every handler of a DEVICE (R262). -/
theorem raise_devQuiet {s : State} {d : DevState} (x : Exn) (hl : s.link = .device d) : s.DevQuiet (raise x s) := by
  unfold raise
  rw [hl]
  cases x with
  | protocolViolation => exact deviceError_quiet _ hl
  | checksumFailure => exact devChecksumFailure_quiet hl
  | timeout => exact devTimeout_quiet hl
  | retryExceeded => simp
  | deviceError code => exact deviceError_quiet code hl

/-- A `MemRead` leaves an ideal backend as it is (R68). -/
theorem memRead_quiet {a n : Nat} {s t : State} {r : Option (List Byte)} (h : memRead a n s = (r, t)) :
    s.DevQuiet t ∧ t.link = s.link ∧ t.decCtx = s.decCtx := by
  obtain ⟨b, rfl, hb⟩ := memRead_cases h
  exact ⟨⟨by simp, fun cells hc => (hb cells (.inr hc)).trans hc⟩, rfl, rfl⟩

theorem memWrite_kept {a : Nat} {v : List Byte} {s t : State} {r : Bool} (h : memWrite a v s = (r, t)) :
    s.DevKept t ∧ t.link = s.link := by
  obtain ⟨b, rfl, -⟩ := memWrite_cases h
  exact ⟨by simp, rfl⟩

theorem devSendBlock_quiet {s : State} {d : DevState} (hl : s.link = .device d) :
    answers (devSendBlock s) s.DevQuiet := by
  unfold devSendBlock; dsimp only
  split
  · exact (answers_raising _ _ _).2 (raise_devQuiet _ hl)
  · split
    · next u hr =>
      obtain ⟨hu, hlu, -⟩ := memRead_quiet hr
      exact (answers_raising _ _ _).2 (hu.trans (raise_devQuiet _ (hlu.trans hl)))
    · next r u hr =>
      obtain ⟨hu, -, hctx⟩ := memRead_quiet hr
      have hlen : r.length = plen u.decCtx cmdMemdata := by
        rw [plen_memdata, hctx]; exact memRead_length _ _ s r (by rw [hr])
      exact (answers_next _ _).2 (hu.trans (by simp [hlen]))

theorem devBegin_quiet {s : State} {d' : DevState} (t : Byte) (d : DevState) (hl : s.link = .device d') :
    answers (devBegin t d s) s.DevQuiet := by
  unfold devBegin
  split
  · exact (answers_next _ _).2 (by simp)
  · exact (answers_raising _ _ _).2 (raise_devQuiet _ hl)

theorem devBlockDone_quiet (n : Nat) (s : State) : answers (devBlockDone n s) s.DevQuiet := by
  unfold devBlockDone; dsimp only
  split <;> exact (answers_next _ _).2 (by simp)

/-! The rules: each by the role and the link state in which it is accepted. -/

/-- What no rule writes, by the role of `s`. -/
def State.kept (s t : State) : Prop :=
  (∀ h, s.link = .host h → s.HostKept t) ∧ ∀ d, s.link = .device d → s.DevKept t

/-- What no rule but `MEMDATA`'s writes, by the role of `s`. -/
def State.quiet (s t : State) : Prop :=
  (∀ h, s.link = .host h → s.HostQuiet t) ∧ ∀ d, s.link = .device d → s.DevQuiet t

theorem State.quiet.kept {s t : State} (h : s.quiet t) : s.kept t :=
  ⟨fun a ha => (h.1 a ha).toHostKept, fun a ha => (h.2 a ha).toDevKept⟩

/-- On a HOST the outcome of a rule is quiet if it is so for a HOST, from the rule's state or from one it quietly passes through. -/
theorem quiet_of_host {s u : State} {h : HostState} {r : Result} (hl : s.link = .host h) (hr : answers r u.HostQuiet)
    (hu : s.HostQuiet u) : answers r s.quiet :=
  fun t ht => ⟨fun _ _ => hu.trans (hr t ht), fun d hd => by rw [hl] at hd; cases hd⟩

theorem quiet_of_device {s u : State} {d : DevState} {r : Result} (hl : s.link = .device d)
    (hr : answers r u.DevQuiet) (hu : s.DevQuiet u) : answers r s.quiet :=
  fun t ht => ⟨fun h hh => (by rw [hl] at hh; cases hh), fun _ _ => hu.trans (hr t ht)⟩

theorem quiet_next_host {s t : State} {h : HostState} (hl : s.link = .host h) (ht : s.HostQuiet t) :
    answers (.next t) s.quiet :=
  quiet_of_host hl ((answers_next _ _).2 ht) (by simp)

theorem quiet_next_device {s t : State} {d : DevState} (hl : s.link = .device d) (ht : s.DevQuiet t) :
    answers (.next t) s.quiet :=
  quiet_of_device hl ((answers_next _ _).2 ht) (by simp)

theorem raise_quiet (x : Exn) (s : State) : s.quiet (raise x s) :=
  ⟨fun _ => raise_hostQuiet x, fun _ => raise_devQuiet x⟩

theorem raising_quiet (x : Exn) (s : State) : answers (raising x s) s.quiet :=
  (answers_raising _ _ _).2 (raise_quiet x s)

theorem initRule_quiet (s : State) : answers (initRule s) s.quiet := by
  unfold initRule; dsimp only
  split
  · next hl => exact quiet_next_host hl (by simp)
  · exact raising_quiet _ s
  · next hl => exact quiet_next_device hl (by simp)

theorem pingRule_quiet (s : State) : answers (pingRule s) s.quiet := by
  unfold pingRule; dsimp only
  split
  · next hl => exact quiet_next_device hl (by simp)
  · exact raising_quiet _ s
  · exact raising_quiet _ s

theorem memidRule_quiet (t : Byte) (s : State) : answers (memidRule t s) s.quiet := by
  unfold memidRule; dsimp only
  split
  · next hl =>
    split
    · exact quiet_next_device hl (by simp)
    · exact quiet_of_device hl ((answers_raising _ _ _).2 (raise_devQuiet _ (by simpa using hl))) (by simp)
  · exact raising_quiet _ s
  · exact raising_quiet _ s

theorem disconnectRule_quiet (s : State) : answers (disconnectRule s) s.quiet := by
  unfold disconnectRule
  split
  · next hl => exact quiet_next_device hl (by simp)
  · exact raising_quiet _ s

theorem okRule_quiet (s : State) : answers (okRule s) s.quiet := by
  unfold okRule
  split
  · next hl => exact quiet_next_host hl (.trans (by simp) (hostToIdle_quiet _))
  · next hl => exact quiet_next_host hl (by simp)
  · next hl => exact quiet_of_host hl (hostSendBlock_quiet _) (by simp)
  · exact raising_quiet _ s
  · exact raising_quiet _ s

theorem txrxAckRule_quiet (s : State) : answers (txrxAckRule s) s.quiet := by
  unfold txrxAckRule; dsimp only
  split
  · next hl =>
    split
    · rw [hostAbort_eq]
      exact quiet_next_host hl (.trans (by simp) (hostToIdle_quiet _))
    · exact quiet_next_host hl (.trans (by simp) (hostToIdle_quiet _))
  · next hl =>
    split
    · exact quiet_of_host hl (hostSendBlock_quiet _) (by simp)
    · exact raising_quiet _ s
  · next hl => exact quiet_of_device hl (devSendBlock_quiet (d := .read) (by simpa using hl)) (by simp)
  · exact raising_quiet _ s
  · exact raising_quiet _ s

theorem txrxDoneRule_quiet (s : State) : answers (txrxDoneRule s) s.quiet := by
  unfold txrxDoneRule; dsimp only
  split
  · next hl =>
    split
    · exact quiet_next_host hl (.trans (by simp) (hostToIdle_quiet _))
    · exact raising_quiet _ s
  · next hl =>
    split
    · exact quiet_next_device hl (by simp)
    · exact raising_quiet _ s
  · exact raising_quiet _ s
  · exact raising_quiet _ s

theorem errRule_quiet (e : Byte) (s : State) : answers (errRule e s) s.quiet := by
  unfold errRule
  split
  case h_1 hl => exact quiet_next_host hl (hostHalt_quiet e s)
  case h_2 hl => exact quiet_next_host hl (by simp)
  case h_3 hl | h_4 hl | h_5 hl | h_6 hl => exact quiet_next_host hl (hostOpFail_quiet e s)
  case h_7 => exact raising_quiet _ s
  case h_8 hl => exact quiet_next_device hl (devToSafe_quiet hl)

theorem txrxErrRule_quiet (s : State) : answers (txrxErrRule s) s.quiet := by
  unfold txrxErrRule
  split
  · next hl =>
    split
    · exact quiet_of_host hl (hostSendBlock_quiet _) (by simp)
    · exact raising_quiet _ s
  · exact raising_quiet _ s
  · exact raising_quiet _ s

theorem readmemRule_quiet (t : Byte) (s : State) : answers (readmemRule t s) s.quiet := by
  unfold readmemRule
  split
  · next hl => exact quiet_of_device hl (devBegin_quiet t .read hl) (by simp)
  · exact raising_quiet _ s
  · exact raising_quiet _ s

theorem writememRule_quiet (t : Byte) (s : State) : answers (writememRule t s) s.quiet := by
  unfold writememRule
  split
  · next hl => exact quiet_of_device hl (devBegin_quiet t .write hl) (by simp)
  · exact raising_quiet _ s
  · exact raising_quiet _ s

theorem readnextRule_quiet (s : State) : answers (readnextRule s) s.quiet := by
  unfold readnextRule
  split
  · next hl => exact quiet_of_device hl (devSendBlock_quiet (d := .read) (by simpa using hl)) (by simp)
  · exact raising_quiet _ s
  · exact raising_quiet _ s

/-- A block on a HOST writes `xfer_buf`; all else stays (R242). -/
theorem hostTakeBlock_kept (P : List Byte) (s : State) : answers (hostTakeBlock P s) s.HostKept := by
  unfold hostTakeBlock; dsimp only
  split
  · exact answers_fault _ _
  · split
    · exact (answers_next _ _).2 (by simp)
    · exact (answers_next _ _).2 (.trans (by simp) (hostToIdle_quiet _).toHostKept)

/-- A block on a DEVICE writes the backend; all else stays (R242). -/
theorem devTakeBlock_kept {s : State} {d : DevState} (P : List Byte) (hl : s.link = .device d) :
    answers (devTakeBlock P s) s.DevKept := by
  have hc : s.DevKept (cancel s) := by simp
  have hlc : (cancel s).link = .device d := by simpa using hl
  have hraise : ∀ x u, s.DevKept u → u.link = .device d → answers (raising x u) s.DevKept := fun x u hu hlu =>
    (answers_raising _ _ _).2 (hu.trans (raise_devQuiet x hlu).toDevKept)
  unfold devTakeBlock; dsimp only
  split
  · exact hraise _ _ hc hlc
  · split
    · split
      · next u hw =>
        obtain ⟨hu, hlu⟩ := memWrite_kept hw
        exact hraise _ u (hc.trans hu) (hlu.trans hlc)
      · next u hw =>
        obtain ⟨hu, hlu⟩ := memWrite_kept hw
        split
        · next v hr =>
          obtain ⟨hv, hlv, -⟩ := memRead_quiet hr
          exact hraise _ v (hc.trans (hu.trans hv.toDevKept)) (hlv.trans (hlu.trans hlc))
        · next r v hr =>
          obtain ⟨hv, hlv, -⟩ := memRead_quiet hr
          have hsv := hc.trans (hu.trans hv.toDevKept)
          split
          · exact fun t ht => hsv.trans (devBlockDone_quiet _ v t ht).toDevKept
          · exact hraise _ v hsv (hlv.trans (hlu.trans hlc))
    · exact answers_fault _ _

theorem memdataRule_kept (P : List Byte) (s : State) : answers (memdataRule P s) s.kept := by
  unfold memdataRule
  split
  · next hl => exact fun t ht => ⟨fun _ _ => hostTakeBlock_kept P s t ht, fun d hd => by rw [hl] at hd; cases hd⟩
  · next hl => exact fun t ht => ⟨fun h hh => (by rw [hl] at hh; cases hh), fun _ _ => devTakeBlock_kept P hl t ht⟩
  · exact fun t ht => (raising_quiet _ s t ht).kept
  · exact fun t ht => (raising_quiet _ s t ht).kept

/-! The commands. -/

theorem rule_quiet (i : Instr) (s : State) (hi : i.opcode ≠ cmdMemdata) : answers (Instr.rule i s) s.quiet := by
  cases i with
  | init cs => exact initRule_quiet s
  | ping cs => exact pingRule_quiet s
  | memid t cs => exact memidRule_quiet t s
  | disconnect cs => exact disconnectRule_quiet s
  | ok cs => exact okRule_quiet s
  | txrxAck cs => exact txrxAckRule_quiet s
  | txrxDone cs => exact txrxDoneRule_quiet s
  | err e cs => exact errRule_quiet e s
  | txrxErr cs => exact txrxErrRule_quiet s
  | readmem t cs => exact readmemRule_quiet t s
  | readnext cs => exact readnextRule_quiet s
  | memdata P cs => exact absurd rfl hi
  | writemem t cs => exact writememRule_quiet t s
  | noneCmd | startxfer | endxfer | data | info => exact raising_quiet _ s

theorem rule_kept (i : Instr) (s : State) : answers (Instr.rule i s) s.kept := by
  by_cases hi : i.opcode = cmdMemdata
  · cases i with
    | memdata P cs => exact memdataRule_kept P s
    | _ => exact absurd hi (by simp [Instr.opcode]; decide)
  · exact fun t ht => (rule_quiet i s hi t ht).kept

/-- A delivery writes `last_rx_cmd`, and then no more than the command's rule (R171). -/
theorem exec_kept (i : Instr) (s : State) : answers (exec i s) ({ s with lastRxCmd := i.opcode } : State).kept :=
  exec_answers (fun _ => ⟨fun _ _ => by simp, fun _ _ => by simp⟩) (fun _ => (raise_quiet _ _).kept) (rule_kept i _)

theorem exec_quiet (i : Instr) (s : State) (hi : i.opcode ≠ cmdMemdata) :
    answers (exec i s) ({ s with lastRxCmd := i.opcode } : State).quiet :=
  exec_answers (fun _ => ⟨fun _ _ => by simp, fun _ _ => by simp⟩) (fun _ => raise_quiet _ _) (rule_quiet i _ hi)

/-- In either role what no rule writes includes what no rule of any role writes. -/
theorem State.kept.toKept {s t : State} (h : s.kept t) : s.Kept t := by
  cases hl : s.link with
  | host a => exact (h.1 a hl).toKept
  | device d => exact (h.2 d hl).toKept

/-- In either role a quiet rule leaves the image buffer and an ideal backend. -/
theorem State.quiet.data {s t : State} (h : s.quiet t) :
    t.xferBuf = s.xferBuf ∧ ∀ cells, s.backend = .ideal cells → t.backend = .ideal cells := by
  cases hl : s.link with
  | host a => exact ⟨(h.1 a hl).xferBuf, fun cells hc => (h.1 a hl).backend.trans hc⟩
  | device d => exact ⟨(h.2 d hl).xferBuf, (h.2 d hl).ideal⟩

/-- Settles O54: `exec_kept` gives the frame of every command, `exec_quiet` that of every command but `MEMDATA`. -/
theorem commandsKeepWhatTheyDoNotWrite : Obligations.CommandsKeepWhatTheyDoNotWrite := by
  intro i s t h
  have hkept := exec_kept i s t h
  obtain ⟨hcfg, hevents, hresets, hwire, hflt, hcmd, hbuf, hcsum, hlast⟩ := hkept.toKept
  refine ⟨⟨hcfg, hevents, hresets, hwire, hflt, hcmd, hbuf, hcsum, hlast⟩, fun a hl => (hkept.1 a hl).backend,
    fun d hl => ?_, fun hi => ?_⟩
  · obtain ⟨-, hxfer, hev, hen, hcur, hpend⟩ := hkept.2 d hl
    exact ⟨hxfer, hev, hen, hcur, hpend⟩
  · obtain ⟨hxfer, hideal⟩ := (exec_quiet i s hi t h).data
    exact ⟨fun a => by rw [hxfer, hresets], fun cells hc => ⟨cells, hideal cells hc, fun _ => rfl⟩⟩

end Sys2Proof.Machine
end

