-- ==== Sys2Proof/Proofs/BufferBounds.lean ====
section
/-! PROOFS. The ideal backend as an array, and the stops at the ends of the address spaces (spec/20_memory.md R62 to R68). Settles O21 and O42. -/

namespace Sys2Proof.Machine

/-- The ideal backend answers a `MemRead` with its contents and stays as it is (R68). -/
theorem memRead_ideal {s : State} {cells : Memory} (hb : s.backend = .ideal cells) (a n : Nat) :
    memRead a n s = (some ((List.range' a n).map (cells.readByte Config.backendCell)), s) := by
  unfold memRead
  rw [hb]
  simp [Memory.readBytes_eq_map]

/-- The ideal backend answers a `MemWrite` with `ok` and stores the bytes (R68). -/
theorem memWrite_ideal {s : State} {cells : Memory} (hb : s.backend = .ideal cells) (a : Nat) (v : List Byte) :
    memWrite a v s = (true, { s with backend := .ideal (cells.writeBytes a v) }) := by
  unfold memWrite
  rw [hb]

/-- Settles O21: the ideal backend by `memRead_ideal`, `memWrite_ideal` and the law of read after write, any backend by the laws of the two calls. -/
theorem idealBackendIsAnArray : Obligations.IdealBackendIsAnArray := by
  refine ⟨fun s cells a n v hb => ⟨memRead_ideal hb a n, cells.writeBytes a v, memWrite_ideal hb a v, ?_⟩,
    fun s a n v => ⟨memRead_length a n s, memRead_state a n s, memWrite_state a v s⟩⟩
  exact Memory.lookup_writeBytes cells a v

/-- A received block that passes the end of `xfer_buf` stops a HOST (R63). -/
theorem hostTakeBlock_outside {P : List Byte} {s : State} (h : xferBufSize < s.xferCnt.toNat + P.length) :
    hostTakeBlock P s = .fault .xferBufIndex := by
  unfold hostTakeBlock
  exact if_pos (by simpa using h)

/-- A block to be sent that passes the end of `xfer_buf` stops a HOST (R63). -/
theorem hostSendBlock_outside {s : State} (h : xferBufSize < s.xferCnt.toNat + memdataLen s.decCtx) :
    hostSendBlock s = .fault .xferBufIndex := by
  rcases hostSendBlock_cases s with ⟨-, hstop⟩ | ⟨hfits, -⟩
  · exact hstop
  · omega

/-- The backend is called with 1 to 256 bytes inside the memory (R66). -/
theorem backendInRange_eq_false_iff (addr n size : Nat) :
    backendInRange addr n size = false ↔ n = 0 ∨ 256 < n ∨ size < addr + n := by
  simp only [backendInRange, Bool.and_eq_false_iff, decide_eq_false_iff_not]
  omega

/-- A received block with which the backend may not be called stops a DEVICE (R66). -/
theorem devTakeBlock_outside {P : List Byte} {s : State} (hx : s.xferCnt.toNat < memsize s.memtype)
    (hr : backendInRange s.xferCnt.toNat P.length (memsize s.memtype) = false) :
    devTakeBlock P s = .fault .backendRange := by
  unfold devTakeBlock
  simp [hr, Nat.not_le.2 hx]

/-- Settles O42: a delivered frame runs its rule, the rule its block procedure, and the block lies outside. -/
theorem blocksOutsideABufferStop : Obligations.BlocksOutsideABufferStop := by
  intro P cs s
  have hdeliver : ∀ (i : Instr), validate s.cfg i.opcode i.payload i.csum = true → s.link ≠ .host .disconnected →
      s.link ≠ .host .halted → exec i s = Instr.rule i { s with lastRxCmd := i.opcode } := fun i hv hd hh => by
    rw [exec_eq_deliver, deliver_accepted _ _ _ _ _ hd hh hv]
  refine ⟨fun hv hl hout => ?_, fun hv hl hx hout => ?_, fun hout => ⟨fun hv hl => ?_, fun hv hl hretry => ?_⟩⟩
  · rw [hdeliver (.memdata P cs) hv (by simp [hl]) (by simp [hl])]
    simp only [Instr.rule, memdataRule, hl]
    exact hostTakeBlock_outside hout
  · rw [hdeliver (.memdata P cs) hv (by simp [hl]) (by simp [hl])]
    simp only [Instr.rule, memdataRule, hl]
    exact devTakeBlock_outside hx ((backendInRange_eq_false_iff _ _ _).2 hout)
  · rw [hdeliver (.ok cs) hv (by simp [hl]) (by simp [hl])]
    simp only [Instr.rule, okRule, hl]
    exact hostSendBlock_outside (by simpa [State.decCtx] using hout)
  · rw [hdeliver (.txrxErr cs) hv (by simp [hl]) (by simp [hl])]
    simp only [Instr.rule, txrxErrRule, hl, if_pos hretry]
    exact hostSendBlock_outside (by simpa [State.decCtx] using hout)

end Sys2Proof.Machine
end

