-- ==== Sys2Proof/Proofs/SentFrames.lean ====
section
/-! PROOFS. What an operation adds to the bytes on their way out, those handed over and then those queued (spec/20_memory.md R61; spec/40_framer_encode.md R120 to R126): nothing, or one whole frame, with the return to idle after a read as the one place where a second frame follows. -/

namespace Sys2Proof.Machine

/-- `t` has on its way out what `s` has, followed by the whole frames `fs`. -/
def State.queues (s t : State) (fs : List (Byte × List Byte)) : Prop :=
  t.cfg = s.cfg ∧ t.wireOut ++ t.txq = s.wireOut ++ s.txq ++ encodeAll s.cfg fs

/-- `t` has on its way out what `s` has. -/
def State.silent (s t : State) : Prop := t.cfg = s.cfg ∧ t.wireOut ++ t.txq = s.wireOut ++ s.txq

/-- From `s` to `t` at most one frame is sent, and it satisfies `ok`. A `SEND` may be refused (R122), so there may be none. -/
def State.sendsOne (s t : State) (ok : Byte × List Byte → Prop) : Prop :=
  s.silent t ∨ ∃ f, ok f ∧ s.queues t [f]

@[simp] theorem silent_iff (s t : State) :
    s.silent t ↔ t.cfg = s.cfg ∧ t.wireOut ++ t.txq = s.wireOut ++ s.txq := Iff.rfl

theorem queues_nil_iff (s t : State) : s.queues t [] ↔ s.silent t := by simp [State.queues]

theorem State.queues.trans {s u t : State} {fs gs : List (Byte × List Byte)} (h : s.queues u fs)
    (k : u.queues t gs) : s.queues t (fs ++ gs) := by
  obtain ⟨hcfg, hout⟩ := h
  obtain ⟨kcfg, kout⟩ := k
  exact ⟨kcfg.trans hcfg, by rw [kout, hout, hcfg, encodeAll_append, List.append_assoc]⟩

theorem State.queues.after_silent {s u t : State} {fs : List (Byte × List Byte)} (k : u.queues t fs)
    (h : s.silent u) : s.queues t fs :=
  ((queues_nil_iff s u).2 h).trans k

theorem State.silent.trans {s u t : State} (h : s.silent u) (k : u.silent t) : s.silent t :=
  ⟨k.1.trans h.1, k.2.trans h.2⟩

theorem sendsOne_of_silent {s t : State} {ok : Byte × List Byte → Prop} (h : s.silent t) : s.sendsOne t ok := .inl h

theorem State.sendsOne.mono {s t : State} {ok ok' : Byte × List Byte → Prop} (h : s.sendsOne t ok)
    (hok : ∀ f, ok f → ok' f) : s.sendsOne t ok' :=
  h.imp_right fun ⟨f, hf, hq⟩ => ⟨f, hok f hf, hq⟩

theorem State.sendsOne.after_silent {s u t : State} {ok : Byte × List Byte → Prop} (k : u.sendsOne t ok)
    (h : s.silent u) : s.sendsOne t ok :=
  k.imp h.trans fun ⟨f, hf, hq⟩ => ⟨f, hf, hq.after_silent h⟩

/-- What stands around a `SEND` and writes neither the queue nor the wire does not change what is sent. -/
theorem State.sendsOne.between {s u v t : State} {ok : Byte × List Byte → Prop} (h : u.sendsOne v ok)
    (hbefore : s.silent u) (hafter : v.silent t) : s.sendsOne t ok := by
  refine State.sendsOne.after_silent ?_ hbefore
  rcases h with h | ⟨f, hf, hq⟩
  · exact .inl (h.trans hafter)
  · exact .inr ⟨f, hf, by simpa using hq.trans ((queues_nil_iff v t).2 hafter)⟩

/-! The frames that are sent. -/

/-- A frame of a known command with the payload length that the table gives it in a context (R98). -/
def inTable (ctx : DecCtx) (f : Byte × List Byte) : Prop := known f.1 = true ∧ f.2.length = plen ctx f.1

/-- A frame whose length is the table's in every context: that of any command but `MEMDATA` and `INFO` (R98). -/
def fixedFrame (f : Byte × List Byte) : Prop := ∀ ctx, inTable ctx f

/-- A frame with which a HOST begins an operation (R184). -/
def requestFrame (f : Byte × List Byte) : Prop := fixedFrame f ∧ f.1 ∈ [cmdReadmem, cmdWritemem, cmdPing]

/-- A frame with which a DEVICE refuses or asks for a repetition (R268, R269). -/
def refusalFrame (f : Byte × List Byte) : Prop := fixedFrame f ∧ f.1 ∈ [cmdErr, cmdTxrxErr]

theorem ofTable_iff (s t : State) (f : Byte × List Byte) :
    ofTable s t f ↔ inTable s.decCtx f ∨ inTable t.decCtx f := by
  unfold ofTable inTable
  exact and_or_left

theorem fixedFrame.ofTable {f : Byte × List Byte} (h : fixedFrame f) (s t : State) : ofTable s t f :=
  (ofTable_iff s t f).2 (.inl (h _))

/-- A `SEND` of a known command queues its frame whole if the length is the table's, else nothing (R120 to R122). -/
theorem send_sendsOne (c : Byte) (P : List Byte) (s : State) (hc : known c = true) :
    s.sendsOne (send c P s) fun f => f = (c, P) ∧ inTable s.decCtx f := by
  rcases send_cases c P s with ⟨-, h⟩ | ⟨-, -, h⟩ | ⟨hlen, -, h⟩ <;> rw [h]
  · exact .inl ⟨rfl, rfl⟩
  · exact .inl ⟨rfl, rfl⟩
  · exact .inr ⟨(c, P), ⟨rfl, hc, hlen⟩, rfl, by simp [List.append_assoc]⟩

/-- A `SEND` of a frame of fixed length sends at most that frame. -/
theorem send_fixed_as (c : Byte) (P : List Byte) (s : State) {ok : Byte × List Byte → Prop} (hf : fixedFrame (c, P))
    (hok : ok (c, P)) : s.sendsOne (send c P s) ok := by
  refine (send_sendsOne c P s (hf s.decCtx).1).mono fun f hfr => ?_
  obtain ⟨rfl, -⟩ := hfr
  exact hok

theorem send_fixed (c : Byte) (P : List Byte) (s : State) (hf : fixedFrame (c, P)) :
    s.sendsOne (send c P s) fixedFrame :=
  send_fixed_as c P s hf hf

/-- A payload of one byte has the length of every command whose frames carry one (R98). -/
theorem fixedFrame_one {c : Byte} (b : Byte) (hc : known c = true) (hlen : ∀ ctx, plen ctx c = 1) :
    fixedFrame (c, [b]) := fun ctx => ⟨hc, (hlen ctx).symm⟩

/-- The empty payload has the length of every command whose frames carry none (R98). -/
theorem fixedFrame_empty {c : Byte} (hc : known c = true) (hlen : ∀ ctx, plen ctx c = 0) :
    fixedFrame (c, []) := fun ctx => ⟨hc, (hlen ctx).symm⟩

theorem fixedFrame_txrxDone : fixedFrame (cmdTxrxDone, []) := fixedFrame_empty rfl plen_txrxDone

/-! The procedures of a HOST. -/

theorem hostEnterDisconnected_sends (s : State) : s.sendsOne (hostEnterDisconnected s) fixedFrame := by
  unfold hostEnterDisconnected; dsimp only
  split
  · exact (send_fixed cmdInit [] _ (fixedFrame_empty rfl plen_init)).between (by simp) ⟨rfl, rfl⟩
  · exact sendsOne_of_silent (by simp)

theorem hostStart_sends (op : OpKind) (s : State) : s.sendsOne (hostStart op s) requestFrame := by
  unfold hostStart
  cases op with
  | read =>
    have hf := fixedFrame_one s.memtype rfl plen_readmem
    exact (send_fixed_as cmdReadmem [s.memtype] _ hf ⟨hf, by simp⟩).between (by simp) ⟨rfl, rfl⟩
  | write =>
    have hf := fixedFrame_one s.memtype rfl plen_writemem
    exact (send_fixed_as cmdWritemem [s.memtype] _ hf ⟨hf, by simp⟩).between (by simp) ⟨rfl, rfl⟩
  | ping =>
    have hf := fixedFrame_empty rfl plen_ping
    exact (send_fixed_as cmdPing [] _ hf ⟨hf, by simp⟩).between (by simp) ⟨rfl, rfl⟩

/-- The return to idle sends a frame only where a request is deferred, and then its own (R180, R183). -/
theorem hostToIdle_sends (s : State) :
    s.sendsOne (hostToIdle s) fun f => s.pendOp ≠ none ∧ requestFrame f := by
  unfold hostToIdle
  rcases hostService_cases { cancel s with link := .host .idle } with ⟨-, h⟩ | ⟨op, hop, h⟩ <;> rw [h]
  · exact sendsOne_of_silent (by simp)
  · have hpend : s.pendOp ≠ none := by
      have hop : s.pendOp = some op := by simpa using hop
      simp [hop]
    exact ((hostStart_sends op _).after_silent (by simp)).mono fun f hf => ⟨hpend, hf⟩

theorem hostToIdle_sends_fixed (s : State) : s.sendsOne (hostToIdle s) fixedFrame :=
  (hostToIdle_sends s).mono fun _ hf => hf.2.1

theorem hostReconnect_sends (kind : Byte) (s : State) : s.sendsOne (hostReconnect kind s) fixedFrame := by
  unfold hostReconnect
  rw [hostAbort_eq]
  exact (hostEnterDisconnected_sends _).after_silent (by simp)

theorem hostOpFail_sends (code : Byte) (s : State) : s.sendsOne (hostOpFail code s) fixedFrame := by
  unfold hostOpFail
  rw [hostAbort_eq]
  exact (hostToIdle_sends_fixed _).after_silent (by simp)

theorem hostHalt_silent (kind : Byte) (s : State) : s.silent (hostHalt kind s) := by
  rw [hostHalt_eq]
  exact ⟨rfl, rfl⟩

theorem hostTimeout_sends (h : HostState) (s : State) : s.sendsOne (hostTimeout h s) fixedFrame := by
  unfold hostTimeout
  split
  case h_2 => exact sendsOne_of_silent (hostHalt_silent _ s)
  case h_8 | h_9 | h_10 => exact sendsOne_of_silent (by simp)
  all_goals exact hostReconnect_sends _ s

/-- A block goes out with the length that the table gives it where it is sent, which is where the step ends (R190). -/
theorem hostSendBlock_sends (s : State) :
    answers (hostSendBlock s) fun t => s.sendsOne t (inTable t.decCtx) := by
  unfold hostSendBlock; dsimp only
  split
  · exact answers_fault _ _
  · have hsend := send_sendsOne cmdMemdata (xferRead s s.xferCnt.toNat (memdataLen s.decCtx))
      { s with blkLen := BitVec.ofNat 9 (memdataLen s.decCtx) } rfl
    exact (answers_next _ _).2 (State.sendsOne.mono (hsend.between ⟨rfl, rfl⟩ ⟨rfl, rfl⟩) fun f hf => by
      simpa [State.decCtx] using hf.2)

/-- From `s` to `t` two frames are sent, `TXRX_DONE` and that of the deferred request: the step in which R242 and R180 go beyond R172. -/
def State.sendsDoneAndRequest (s t : State) : Prop :=
  s.pendOp ≠ none ∧ ∃ f, requestFrame f ∧ s.queues t [(cmdTxrxDone, []), f]

theorem State.sendsDoneAndRequest.after_silent {s u t : State} (k : u.sendsDoneAndRequest t) (h : s.silent u)
    (hp : u.pendOp = s.pendOp) : s.sendsDoneAndRequest t := by
  obtain ⟨hpend, f, hf, hq⟩ := k
  exact ⟨hp ▸ hpend, f, hf, hq.after_silent h⟩

/-- The return to idle after `TXRX_DONE`: two frames only where neither `SEND` is refused and a request is deferred. -/
theorem hostToIdle_after_done {s u : State} (h : s.sendsOne u (· = (cmdTxrxDone, []))) (hp : u.pendOp = s.pendOp) :
    s.sendsOne (hostToIdle u) fixedFrame ∨ s.sendsDoneAndRequest (hostToIdle u) := by
  rcases h with hsilent | ⟨_, rfl, hdone⟩
  · exact .inl ((hostToIdle_sends_fixed u).after_silent hsilent)
  · rcases hostToIdle_sends u with hsilent | ⟨f, ⟨hpend, hf⟩, hq⟩
    · exact .inl (.inr ⟨_, fixedFrame_txrxDone, hdone.trans ((queues_nil_iff _ _).2 hsilent)⟩)
    · exact .inr ⟨hp ▸ hpend, f, hf, hdone.trans hq⟩

/-- A HOST after a block has been appended to `xfer_buf`, before the answer to it (R242). -/
def State.blockTaken (s : State) (P : List Byte) : State :=
  { xferWrite s.xferCnt.toNat P s with xferCnt := BitVec.ofNat 16 (s.xferCnt.toNat + P.length) }

/-- A HOST after the image of a read has been handed to the application, before its return to idle (R242). -/
def State.imageGiven (s : State) : State :=
  { emit (.opFinished .read .ok) (emit (.memReceived (xferRead s 0 (memsize s.memtype))) s) with curOp := none }

theorem imageGiven_silent (s : State) : s.silent s.imageGiven := ⟨rfl, rfl⟩
theorem imageGiven_pendOp (s : State) : s.imageGiven.pendOp = s.pendOp := rfl

/-- A block inside `xfer_buf` is appended and answered, the last one by `TXRX_DONE` (R242). -/
theorem hostTakeBlock_eq (P : List Byte) (s : State) :
    hostTakeBlock P s =
      if xferBufSize < (cancel s).xferCnt.toNat + P.length then .fault .xferBufIndex
      else if ((cancel s).blockTaken P).xferCnt.toNat < memsize ((cancel s).blockTaken P).memtype then
        .next (arm tChunk (send cmdTxrxAck [] ((cancel s).blockTaken P)))
      else .next (hostToIdle (send cmdTxrxDone [] ((cancel s).blockTaken P)).imageGiven) := rfl

theorem hostTakeBlock_sends (P : List Byte) (s : State) :
    answers (hostTakeBlock P s) fun t => s.sendsOne t fixedFrame ∨ s.sendsDoneAndRequest t := by
  have hbefore : s.silent ((cancel s).blockTaken P) := by simp [State.blockTaken]
  have hpend : ((cancel s).blockTaken P).pendOp = s.pendOp := cancel_pendOp s
  rw [hostTakeBlock_eq]
  split
  · exact answers_fault _ _
  · split
    · exact (answers_next _ _).2 (.inl
        ((send_fixed cmdTxrxAck [] _ (fixedFrame_empty rfl plen_txrxAck)).between hbefore ⟨rfl, rfl⟩))
    · exact (answers_next _ _).2 (hostToIdle_after_done
        ((send_fixed_as cmdTxrxDone [] _ (ok := (· = (cmdTxrxDone, []))) fixedFrame_txrxDone rfl).between hbefore
          (imageGiven_silent _))
        ((imageGiven_pendOp _).trans ((send_pendOp _ _ _).trans hpend)))

/-! The procedures of a DEVICE. -/

theorem devToSafe_silent (s : State) : s.silent (devToSafe s) := by
  cases hl : s.link with
  | host h => simp [devToSafe, hl]
  | device d =>
    rw [devToSafe_eq hl]
    unfold State.madeSafe; dsimp only
    split <;> exact ⟨rfl, rfl⟩

theorem deviceError_sends (code : ErrorCode) (s : State) : s.sendsOne (deviceError code s) refusalFrame := by
  have hf := fixedFrame_one code.byte rfl plen_err
  exact (send_fixed_as cmdErr [code.byte] _ hf ⟨hf, by simp⟩).between (by simp) (devToSafe_silent _)

theorem devTimeout_sends (d : DevState) (s : State) : s.sendsOne (devTimeout d s) refusalFrame := by
  unfold devTimeout
  split
  case h_1 | h_2 | h_3 => exact deviceError_sends _ s
  all_goals exact sendsOne_of_silent (by simp)

theorem devChecksumFailure_sends (d : DevState) (s : State) : s.sendsOne (devChecksumFailure d s) refusalFrame := by
  unfold devChecksumFailure
  split
  case h_1 =>
    have hf := fixedFrame_empty rfl plen_txrxErr
    exact (send_fixed_as cmdTxrxErr [] _ hf ⟨hf, by simp⟩).between (by simp) ⟨rfl, rfl⟩
  all_goals exact deviceError_sends _ s

/-- Every handler of a DEVICE refuses, asks for a repetition or is silent (R262). -/
theorem raise_device_sends {s : State} {d : DevState} (x : Exn) (hl : s.link = .device d) :
    s.sendsOne (raise x s) refusalFrame := by
  unfold raise
  rw [hl]
  cases x with
  | protocolViolation => exact deviceError_sends _ s
  | checksumFailure => exact devChecksumFailure_sends d s
  | timeout => exact devTimeout_sends d s
  | retryExceeded => exact sendsOne_of_silent (by simp)
  | deviceError code => exact deviceError_sends code s

/-- Every handler of either role sends at most one frame, and no block (R262). -/
theorem raise_sends (x : Exn) (s : State) : s.sendsOne (raise x s) fixedFrame := by
  cases hl : s.link with
  | device d => exact (raise_device_sends x hl).mono fun _ hf => hf.1
  | host h =>
    unfold raise
    rw [hl]
    cases x with
    | protocolViolation => exact hostReconnect_sends _ s
    | checksumFailure => exact hostReconnect_sends _ s
    | timeout => exact hostTimeout_sends h s
    | retryExceeded => exact hostReconnect_sends _ s
    | deviceError code => exact sendsOne_of_silent (by simp)

/-- A block goes out with the length that the table gives it where the rule begins (R191). -/
theorem devSendBlock_sends (s : State) : answers (devSendBlock s) fun t => s.sendsOne t (inTable s.decCtx) := by
  have hraise : ∀ x b, s.sendsOne (raise x { s with backend := b }) (inTable s.decCtx) := fun x b =>
    ((raise_sends x { s with backend := b }).after_silent ⟨rfl, rfl⟩).mono fun _ hf => hf _
  unfold devSendBlock; dsimp only
  split
  · exact (answers_raising _ _ _).2 (hraise _ s.backend)
  · split
    · next u hr =>
      obtain ⟨b, rfl, -⟩ := memRead_cases hr
      exact (answers_raising _ _ _).2 (hraise _ b)
    · next r u hr =>
      obtain ⟨b, rfl, -⟩ := memRead_cases hr
      have hsend := send_sendsOne cmdMemdata r { s with backend := b } rfl
      exact (answers_next _ _).2 (State.sendsOne.mono (hsend.between ⟨rfl, rfl⟩ ⟨rfl, rfl⟩) fun f hf => hf.2)

theorem devBegin_sends (t : Byte) (d : DevState) (s : State) :
    answers (devBegin t d s) fun u => s.sendsOne u fixedFrame := by
  unfold devBegin
  split
  · exact (answers_next _ _).2
      ((send_fixed cmdOk [] _ (fixedFrame_empty rfl plen_ok)).between (by simp) ⟨rfl, rfl⟩)
  · exact (answers_raising _ _ _).2 (raise_sends _ s)

theorem devBlockDone_sends (n : Nat) (s : State) : answers (devBlockDone n s) fun t => s.sendsOne t fixedFrame := by
  unfold devBlockDone; dsimp only
  split
  · exact (answers_next _ _).2
      ((send_fixed cmdTxrxAck [] _ (fixedFrame_empty rfl plen_txrxAck)).between (by simp) ⟨rfl, rfl⟩)
  · exact (answers_next _ _).2
      ((send_fixed cmdTxrxDone [] _ (fixedFrame_empty rfl plen_txrxDone)).between (by simp) ⟨rfl, rfl⟩)

/-! A block on a DEVICE (R242). -/

/-- The backend answers `ok` to the write of `P` at `xfer_cnt` and exactly `P` to the read that follows (R78). -/
def State.verifies (s : State) (P : List Byte) : Prop :=
  ∃ w, memWrite s.xferCnt.toNat P s = (true, w) ∧ (memRead s.xferCnt.toNat P.length w).1 = some P

/-- Whether a block is verified depends on the offset and the backend alone. -/
theorem State.verifies.of_same {s u : State} {P : List Byte} (h : u.verifies P) (hx : u.xferCnt = s.xferCnt)
    (hb : u.backend = s.backend) : s.verifies P := by
  obtain ⟨w, hw, hr⟩ := h
  rw [hx] at hw hr
  obtain ⟨hok, hback⟩ := memWrite_congr s.xferCnt.toNat P u s hb
  rw [hw] at hok hback
  exact ⟨(memWrite s.xferCnt.toNat P s).2, Prod.ext hok.symm rfl,
    (memRead_congr s.xferCnt.toNat P.length w _ hback).1 ▸ hr⟩

/-- All that a block can lead to on a DEVICE: an exception, or the acknowledgment of a block that was verified; before either, only the timer is cancelled and the backend called (R242). -/
theorem devTakeBlock_answers {P : List Byte} {s : State} {p : State → Prop}
    (hraise : ∀ x b, p (raise x { cancel s with backend := b }))
    (hdone : s.verifies P → ∀ b, answers (devBlockDone P.length { cancel s with backend := b }) p) :
    answers (devTakeBlock P s) p := by
  have hraising : ∀ x b, answers (raising x { cancel s with backend := b }) p := fun x b =>
    (answers_raising _ _ _).2 (hraise x b)
  unfold devTakeBlock; dsimp only
  split
  · exact hraising _ (cancel s).backend
  · split
    · split
      · next u hw =>
        obtain ⟨b, rfl, -⟩ := memWrite_cases hw
        exact hraising _ b
      · next u hw =>
        obtain ⟨b, rfl, -⟩ := memWrite_cases hw
        split
        · next v hr =>
          obtain ⟨b', rfl, -⟩ := memRead_cases hr
          exact hraising _ b'
        · next r v hr =>
          have hread := congrArg Prod.fst hr
          obtain ⟨b', rfl, -⟩ := memRead_cases hr
          split
          · next hrP =>
            subst hrP
            have hverified : (cancel s).verifies r := ⟨_, hw, hread⟩
            exact hdone (hverified.of_same (by simp) (by simp)) b'
          · exact hraising _ b'
    · exact answers_fault _ _

theorem devTakeBlock_sends (P : List Byte) (s : State) :
    answers (devTakeBlock P s) fun t => s.sendsOne t fixedFrame :=
  devTakeBlock_answers (fun x _ => (raise_sends x _).after_silent (by simp))
    fun _ _ t ht => (devBlockDone_sends _ _ t ht).after_silent (by simp)

end Sys2Proof.Machine
end

