-- ==== Sys2Proof/Proofs/VerifiedBlocks.lean ====
section
/-! PROOFS. A DEVICE acknowledges no block that it has not read back (spec/20_memory.md R78, spec/46_cmd_transfer.md R242). Settles O52. -/

namespace Sys2Proof.Machine

/-- A frame says its command in its second byte (R123). -/
theorem encodeFrame_command {cfg cfg' : Cfg} {c c' : Byte} {P P' : List Byte}
    (h : encodeFrame cfg c P = encodeFrame cfg' c' P') : c = c' := by
  unfold encodeFrame frameBytes at h
  exact (List.cons.inj (List.cons.inj h).2).1

/-- Where only a refusal may be sent and no byte is handed over, the queue does not grow by the frame of another command. -/
theorem refusal_not_queued {s t : State} {c : Byte} {P : List Byte} (h : s.sendsOne t refusalFrame)
    (hwire : t.wireOut = s.wireOut) (hc : c ∉ [cmdErr, cmdTxrxErr]) : t.txq ≠ s.txq ++ encodeFrame s.cfg c P := by
  intro hq
  rcases h with ⟨-, hout⟩ | ⟨f, ⟨-, hf⟩, -, hout⟩
  · simp [hwire, hq, encodeFrame, frameBytes] at hout
  · have hframe : encodeFrame s.cfg c P = encodeFrame s.cfg f.1 f.2 := by simpa [hwire, hq] using hout
    exact hc (encodeFrame_command hframe ▸ hf)

/-- `MEMDATA` on a DEVICE that writes sends a refusal, unless the block was verified (R242, R268, R269). -/
theorem memdata_refused_or_verified {P : List Byte} (cs : U16) {s : State} (hl : s.link = .device .write) :
    answers (exec (.memdata P cs) s) fun t => s.sendsOne t refusalFrame ∨ s.verifies P := by
  have hraise : ∀ x u, s.silent u → u.link = s.link → s.sendsOne (raise x u) refusalFrame := fun x u hu hlu =>
    (raise_device_sends x (hlu.trans hl)).after_silent hu
  refine exec_answers (fun _ => .inl (sendsOne_of_silent ⟨rfl, rfl⟩)) (fun _ => .inl (hraise _ _ ⟨rfl, rfl⟩ rfl)) ?_
  simp only [Instr.rule, memdataRule, hl]
  refine devTakeBlock_answers (fun x b => .inl (hraise x _ (by simp) (by simp [hl]))) fun hv b t _ => .inr ?_
  exact hv.of_same rfl rfl

/-- Settles O52: neither acknowledgment is a refusal, so the block was verified. -/
theorem acknowledgedBlocksAreVerified : Obligations.AcknowledgedBlocksAreVerified := by
  intro P cs s t hl h hq
  have hwire : t.wireOut = s.wireOut := (exec_kept _ s t h).toKept.wireOut
  rcases memdata_refused_or_verified cs hl t h with hrefused | hverified
  · rcases hq with hq | hq
    · exact absurd hq (refusal_not_queued hrefused hwire (by decide))
    · exact absurd hq (refusal_not_queued hrefused hwire (by decide))
  · exact hverified

end Sys2Proof.Machine
end

