-- ==== Sys2Proof/Proofs/WholeFrames.lean ====
section
/-! PROOFS. What a step sends (spec/40_framer_encode.md R121 to R126, spec/43_dispatch_core.md R172): at most one frame of the length table, or two at the end of a read, and nothing where a reply is awaited and no byte, deadline or disconnect request comes. Settles O18. -/

namespace Sys2Proof.Machine

/-- From `s` to `t` at most one frame of the length table is sent, or the two at the end of a read with a request deferred. -/
def State.sendsWhole (s t : State) : Prop :=
  s.sendsOne t (ofTable s t) ∨ s.link = .host .waitReadmemData ∧ s.sendsDoneAndRequest t

theorem sendsWhole_of_fixed {s t : State} (h : s.sendsOne t fixedFrame) : s.sendsWhole t :=
  .inl (h.mono fun _ hf => hf.ofTable s t)

theorem sendsWhole_of_silent {s t : State} (h : s.silent t) : s.sendsWhole t := .inl (sendsOne_of_silent h)

/-- A frame of the table where the step begins. -/
theorem sendsWhole_of_before {s t : State} (h : s.sendsOne t (inTable s.decCtx)) : s.sendsWhole t :=
  .inl (h.mono fun f hf => (ofTable_iff s t f).2 (.inl hf))

/-- A frame of the table where the step ends. -/
theorem sendsWhole_of_after {s t : State} (h : s.sendsOne t (inTable t.decCtx)) : s.sendsWhole t :=
  .inl (h.mono fun f hf => (ofTable_iff s t f).2 (.inr hf))

/-- What is written before the first `SEND` of a step does not count, if it leaves the link state, the deferred request and what the length table reads. -/
theorem State.sendsWhole.after_silent {s u t : State} (k : u.sendsWhole t) (h : s.silent u)
    (hsame : u.link = s.link ∧ u.pendOp = s.pendOp ∧ u.decCtx = s.decCtx) : s.sendsWhole t := by
  obtain ⟨hl, hp, hctx⟩ := hsame
  rcases k with k | ⟨kl, k⟩
  · exact .inl ((k.after_silent h).mono fun f hf => by unfold ofTable at hf ⊢; rwa [← hctx])
  · exact .inr ⟨hl ▸ kl, k.after_silent h hp⟩

/-- A rule that writes no more than such registers and calls a procedure. -/
theorem sendsWhole_answers_of_same {s u : State} {r : Result} (k : answers r u.sendsWhole) (h : s.silent u)
    (hsame : u.link = s.link ∧ u.pendOp = s.pendOp ∧ u.decCtx = s.decCtx) : answers r s.sendsWhole :=
  fun t ht => (k t ht).after_silent h hsame

theorem sendsWhole_next {s t : State} (h : s.sendsOne t fixedFrame) : answers (.next t) s.sendsWhole :=
  (answers_next _ _).2 (sendsWhole_of_fixed h)

theorem sendsWhole_raising (x : Exn) (s : State) : answers (raising x s) s.sendsWhole :=
  (answers_raising _ _ _).2 (sendsWhole_of_fixed (raise_sends x s))

/-! The rules. -/

/-- A HOST's block goes out from whatever offset the rule has moved to (R190, R231). -/
theorem hostSendBlock_sendsWhole {s u : State} (h : s.silent u) : answers (hostSendBlock u) s.sendsWhole :=
  fun t ht => sendsWhole_of_after ((hostSendBlock_sends u t ht).after_silent h)

/-- A DEVICE's block goes out after the timer has been cancelled (R191). -/
theorem devSendBlock_sendsWhole (s : State) : answers (devSendBlock (cancel s)) s.sendsWhole :=
  sendsWhole_answers_of_same (fun t ht => sendsWhole_of_before (devSendBlock_sends _ t ht)) (by simp) (by simp)

theorem devBegin_sendsWhole (t : Byte) (d : DevState) (s : State) : answers (devBegin t d s) s.sendsWhole :=
  fun u hu => sendsWhole_of_fixed (devBegin_sends t d s u hu)

theorem initRule_sends (s : State) : answers (initRule s) s.sendsWhole := by
  unfold initRule; dsimp only
  split
  · exact sendsWhole_next ((send_fixed cmdMemid _ _ (fixedFrame_one _ rfl plen_memid)).between (by simp) ⟨rfl, rfl⟩)
  · exact sendsWhole_raising _ s
  · exact sendsWhole_next ((send_fixed cmdInit [] _ (fixedFrame_empty rfl plen_init)).between (by simp) ⟨rfl, rfl⟩)

theorem pingRule_sends (s : State) : answers (pingRule s) s.sendsWhole := by
  unfold pingRule; dsimp only
  split
  · exact sendsWhole_next
      ((send_fixed cmdTxrxAck [] _ (fixedFrame_empty rfl plen_txrxAck)).between (by simp) ⟨rfl, rfl⟩)
  · exact sendsWhole_raising _ s
  · exact sendsWhole_raising _ s

theorem memidRule_sends (t : Byte) (s : State) : answers (memidRule t s) s.sendsWhole := by
  unfold memidRule; dsimp only
  split
  · split
    · exact sendsWhole_next ((send_fixed cmdOk [] _ (fixedFrame_empty rfl plen_ok)).between (by simp) ⟨rfl, rfl⟩)
    · exact sendsWhole_answers_of_same (sendsWhole_raising _ _) (by simp) (by simp)
  · exact sendsWhole_raising _ s
  · exact sendsWhole_raising _ s

theorem disconnectRule_sends (s : State) : answers (disconnectRule s) s.sendsWhole := by
  unfold disconnectRule
  split
  · exact sendsWhole_next (sendsOne_of_silent (by simp))
  · exact sendsWhole_raising _ s

theorem okRule_sends (s : State) : answers (okRule s) s.sendsWhole := by
  unfold okRule
  split
  · exact sendsWhole_next ((hostToIdle_sends_fixed _).after_silent (by simp))
  · exact sendsWhole_next
      ((send_fixed cmdReadnext [] _ (fixedFrame_empty rfl plen_readnext)).between (by simp) ⟨rfl, rfl⟩)
  · exact hostSendBlock_sendsWhole (by simp)
  · exact sendsWhole_raising _ s
  · exact sendsWhole_raising _ s

theorem txrxAckRule_sends (s : State) : answers (txrxAckRule s) s.sendsWhole := by
  unfold txrxAckRule; dsimp only
  split
  · refine sendsWhole_next ((hostToIdle_sends_fixed _).after_silent ?_)
    split
    · rw [hostAbort_eq]; exact ⟨rfl, rfl⟩
    · exact ⟨rfl, rfl⟩
  · split
    · exact hostSendBlock_sendsWhole (by simp)
    · exact sendsWhole_raising _ s
  · exact devSendBlock_sendsWhole s
  · exact sendsWhole_raising _ s
  · exact sendsWhole_raising _ s

theorem txrxDoneRule_sends (s : State) : answers (txrxDoneRule s) s.sendsWhole := by
  unfold txrxDoneRule; dsimp only
  split
  · split
    · exact sendsWhole_next ((hostToIdle_sends_fixed _).after_silent ⟨rfl, rfl⟩)
    · exact sendsWhole_raising _ s
  · split
    · exact sendsWhole_next (sendsOne_of_silent (by simp))
    · exact sendsWhole_raising _ s
  · exact sendsWhole_raising _ s
  · exact sendsWhole_raising _ s

theorem errRule_sends (e : Byte) (s : State) : answers (errRule e s) s.sendsWhole := by
  unfold errRule
  split
  case h_1 => exact sendsWhole_next (sendsOne_of_silent (hostHalt_silent e s))
  case h_2 => exact sendsWhole_next (sendsOne_of_silent ⟨rfl, rfl⟩)
  case h_7 => exact sendsWhole_raising _ s
  case h_8 => exact sendsWhole_next (sendsOne_of_silent (devToSafe_silent s))
  all_goals exact sendsWhole_next (hostOpFail_sends e s)

theorem txrxErrRule_sends (s : State) : answers (txrxErrRule s) s.sendsWhole := by
  unfold txrxErrRule
  split
  · split
    · exact hostSendBlock_sendsWhole (by simp)
    · exact sendsWhole_raising _ s
  · exact sendsWhole_raising _ s
  · exact sendsWhole_raising _ s

theorem readmemRule_sends (t : Byte) (s : State) : answers (readmemRule t s) s.sendsWhole := by
  unfold readmemRule
  split
  · exact devBegin_sendsWhole t .read s
  · exact sendsWhole_raising _ s
  · exact sendsWhole_raising _ s

theorem writememRule_sends (t : Byte) (s : State) : answers (writememRule t s) s.sendsWhole := by
  unfold writememRule
  split
  · exact devBegin_sendsWhole t .write s
  · exact sendsWhole_raising _ s
  · exact sendsWhole_raising _ s

theorem readnextRule_sends (s : State) : answers (readnextRule s) s.sendsWhole := by
  unfold readnextRule
  split
  · exact devSendBlock_sendsWhole s
  · exact sendsWhole_raising _ s
  · exact sendsWhole_raising _ s

/-- The one rule that may send two frames. -/
theorem memdataRule_sends (P : List Byte) (s : State) : answers (memdataRule P s) s.sendsWhole := by
  unfold memdataRule
  split
  · next hl => exact fun t ht => (hostTakeBlock_sends P s t ht).elim sendsWhole_of_fixed fun h => .inr ⟨hl, h⟩
  · exact fun t ht => sendsWhole_of_fixed (devTakeBlock_sends P s t ht)
  · exact sendsWhole_raising _ s
  · exact sendsWhole_raising _ s

theorem rule_sends (i : Instr) (s : State) : answers (Instr.rule i s) s.sendsWhole := by
  cases i with
  | init cs => exact initRule_sends s
  | ping cs => exact pingRule_sends s
  | memid t cs => exact memidRule_sends t s
  | disconnect cs => exact disconnectRule_sends s
  | ok cs => exact okRule_sends s
  | txrxAck cs => exact txrxAckRule_sends s
  | txrxDone cs => exact txrxDoneRule_sends s
  | err e cs => exact errRule_sends e s
  | txrxErr cs => exact txrxErrRule_sends s
  | readmem t cs => exact readmemRule_sends t s
  | readnext cs => exact readnextRule_sends s
  | memdata P cs => exact memdataRule_sends P s
  | writemem t cs => exact writememRule_sends t s
  | noneCmd | startxfer | endxfer | data | info => exact sendsWhole_raising _ s

theorem exec_sends (i : Instr) (s : State) : answers (exec i s) s.sendsWhole :=
  exec_answers (fun _ => sendsWhole_of_silent ⟨rfl, rfl⟩)
    (fun _ => sendsWhole_of_fixed ((raise_sends _ _).after_silent ⟨rfl, rfl⟩))
    (sendsWhole_answers_of_same (rule_sends i _) ⟨rfl, rfl⟩ ⟨rfl, rfl, rfl⟩)

/-! The events. -/

/-- A byte that is handed over leaves the queue and reaches the wire (R124). -/
theorem txByte_silent (s : State) : s.silent (txByte s) := by
  unfold txByte
  split
  · exact ⟨rfl, rfl⟩
  · next b rest hq => simp [hq]

theorem timerFired_sends (s : State) : s.sendsOne (timerFired s) fixedFrame := by
  unfold timerFired
  split
  · exact (raise_sends _ _).after_silent ⟨rfl, rfl⟩
  · exact sendsOne_of_silent ⟨rfl, rfl⟩

theorem liveTick_sends (s : State) : s.sendsOne (liveTick s) fixedFrame := by
  unfold liveTick
  split
  · split
    · exact (send_fixed cmdPing [] _ (fixedFrame_empty rfl plen_ping)).between (by simp) ⟨rfl, rfl⟩
    · exact sendsOne_of_silent ⟨rfl, rfl⟩
  · exact sendsOne_of_silent ⟨rfl, rfl⟩
  · exact sendsOne_of_silent ⟨rfl, rfl⟩

theorem liveTick_silent {s : State} (hl : s.link ≠ .host .idle) : s.silent (liveTick s) := by
  unfold liveTick
  split
  · next h => exact absurd h hl
  · exact ⟨rfl, rfl⟩
  · exact ⟨rfl, rfl⟩

theorem loadImage_silent (r : Request) (s : State) : s.silent (loadImage r s) := by cases r <;> exact ⟨rfl, rfl⟩

/-- A request sends its frame only where it begins at once (R185). -/
theorem hostReq_sends (h : HostState) (r : Request) (s : State) :
    s.silent (hostReq h r s) ∨ h = .idle ∧ s.sendsOne (hostReq h r s) fixedFrame := by
  unfold hostReq; dsimp only
  split
  · exact .inl ⟨rfl, rfl⟩
  · split
    · exact .inl ⟨rfl, rfl⟩
    · split
      · exact .inl ⟨rfl, rfl⟩
      · split
        · next hidle =>
          exact .inr ⟨hidle, ((hostStart_sends r.op _).after_silent (loadImage_silent r s)).mono fun _ hf => hf.1⟩
        · exact .inl ((loadImage_silent r s).trans ⟨rfl, rfl⟩)

theorem req_sends (r : Request) (s : State) : s.sendsOne (req r s) fixedFrame := by
  unfold req
  split
  · exact (hostReq_sends _ r s).elim sendsOne_of_silent And.right
  · exact sendsOne_of_silent ⟨rfl, rfl⟩

theorem req_silent {s : State} (r : Request) (hl : s.link ≠ .host .idle) : s.silent (req r s) := by
  unfold req
  split
  · next h hh => exact (hostReq_sends h r s).elim id fun hidle => absurd (hidle.1 ▸ hh) hl
  · exact ⟨rfl, rfl⟩

theorem reqConnect_sends (s : State) : s.sendsOne (reqConnect s) fixedFrame := by
  unfold reqConnect
  split
  · exact (hostEnterDisconnected_sends _).after_silent ⟨rfl, rfl⟩
  · exact sendsOne_of_silent ⟨rfl, rfl⟩
  · exact sendsOne_of_silent ⟨rfl, rfl⟩

theorem reqConnect_silent {s : State} (hl : s.link ≠ .host .disconnected) : s.silent (reqConnect s) := by
  unfold reqConnect
  split
  · next h => exact absurd h hl
  · exact ⟨rfl, rfl⟩
  · exact ⟨rfl, rfl⟩

/-- A disconnect request sends `DISCONNECT` from a link that is up; the teardown after it sends nothing, since the link is disabled (R187, R179). -/
theorem hostDisconnect_sends (h : HostState) (s : State) : s.sendsOne (hostDisconnect h s) fixedFrame := by
  have hdown : ∀ u : State, u.linkEn = false →
      u.silent (hostEnterDisconnected (clearBuffers (hostAbortPending .disconnected (hostAbort .disconnected u)))) :=
    fun u hu => by simp [hostEnterDisconnected, hostAbort_eq, hostAbortPending_eq, hu]
  unfold hostDisconnect; dsimp only
  split
  · exact sendsOne_of_silent (hdown { s with linkEn := false } rfl)
  · exact (send_fixed cmdDisconnect [] _ (fixedFrame_empty rfl plen_disconnect)).between
      (by simp) (hdown _ (by simp))

theorem reqDisconnect_sends (s : State) : s.sendsOne (reqDisconnect s) fixedFrame := by
  unfold reqDisconnect
  split
  · exact sendsOne_of_silent ⟨rfl, rfl⟩
  · exact hostDisconnect_sends _ s
  · exact sendsOne_of_silent ⟨rfl, rfl⟩

theorem handle_sends {e : Event} (s : State) (he : e ≠ .reset) : answers (handle e s) s.sendsWhole := by
  cases e with
  | rxByte b =>
    exact rxByte_answers (sendsWhole_of_silent ⟨rfl, rfl⟩) fun _ i _ _ =>
      sendsWhole_answers_of_same (exec_sends i _) ⟨rfl, rfl⟩ ⟨rfl, rfl, rfl⟩
  | txByte => exact sendsWhole_next (sendsOne_of_silent (txByte_silent s))
  | timerFired => exact sendsWhole_next (timerFired_sends s)
  | liveTick => exact sendsWhole_next (liveTick_sends s)
  | req r => exact sendsWhole_next (req_sends r s)
  | reqConnect => exact sendsWhole_next (reqConnect_sends s)
  | reqDisconnect => exact sendsWhole_next (reqDisconnect_sends s)
  | reset => exact absurd rfl he

/-- What can make a link core send where it awaits a reply or has halted: a received byte, the deadline, a disconnect request (R172). -/
def Event.mayPrompt : Event → Bool
  | .rxByte _ => true
  | .timerFired => true
  | .reqDisconnect => true
  | .reset => true
  | .txByte => false
  | .liveTick => false
  | .req _ => false
  | .reqConnect => false

theorem handle_silent {e : Event} {s : State} (hidle : s.link ≠ .host .idle) (hdown : s.link ≠ .host .disconnected)
    (he : e.mayPrompt = false) : answers (handle e s) s.silent := by
  cases e with
  | txByte => exact (answers_next _ _).2 (txByte_silent s)
  | liveTick => exact (answers_next _ _).2 (liveTick_silent hidle)
  | req r => exact (answers_next _ _).2 (req_silent r hidle)
  | reqConnect => exact (answers_next _ _).2 (reqConnect_silent hdown)
  | rxByte | timerFired | reqDisconnect | reset => cases he

/-! The steps. -/

theorem step_sends (s : State) (hr : s.events.head? ≠ some .reset) : answers (step s) s.sendsWhole := by
  cases he : s.events with
  | nil => rw [step_idle s he]; exact sendsWhole_next (sendsOne_of_silent ⟨rfl, rfl⟩)
  | cons e rest =>
    rw [step_event s e rest he]
    have hne : e ≠ .reset := fun h => hr (by rw [he, h]; rfl)
    exact sendsWhole_answers_of_same (handle_sends { s with events := rest } hne) ⟨rfl, rfl⟩ ⟨rfl, rfl, rfl⟩

theorem step_silent {s : State} (hidle : s.link ≠ .host .idle) (hdown : s.link ≠ .host .disconnected)
    (hprompt : ∀ e, s.events.head? = some e → e.mayPrompt = false) : answers (step s) s.silent := by
  cases he : s.events with
  | nil => rw [step_idle s he]; exact (answers_next _ _).2 ⟨rfl, rfl⟩
  | cons e rest =>
    rw [step_event s e rest he]
    have hquiet : e.mayPrompt = false := hprompt e (by rw [he]; rfl)
    have hsilent := handle_silent (s := { s with events := rest }) hidle hdown hquiet
    exact fun t ht => State.silent.trans ⟨rfl, rfl⟩ (hsilent t ht)

/-- In a state that meets the invariant the table gives every command its fixed length (R98, R100). -/
theorem State.Inv.plen_eq {s : State} (hi : s.Inv) (c : Byte) : plen s.decCtx c = frameLen s.cfg c := by
  unfold frameLen
  split
  · next hc => rw [hc, plen_memdata]; exact memdataLen_of_mult s.decCtx hi.counters.xfer_mult
  · next hc => exact plen_congr _ _ c hc rfl

/-- A frame of the table before or after a step from a good state has its command's fixed length. -/
theorem ofTable_frameLen {s t : State} {f : Byte × List Byte} (hs : s.Inv) (ht : t.Inv) (hcfg : t.cfg = s.cfg)
    (hf : ofTable s t f) : f.2.length = frameLen s.cfg f.1 := by
  rcases hf with ⟨-, hlen | hlen⟩
  · rw [hlen, hs.plen_eq]
  · rw [hlen, ht.plen_eq, hcfg]

/-- The frames that a step sends, with their number. -/
theorem State.sendsWhole.frames {s t : State} (h : s.sendsWhole t) :
    ∃ fs, s.queues t fs ∧ (∀ f ∈ fs, ofTable s t f) ∧
      (fs.length ≤ 1 ∨ s.link = .host .waitReadmemData ∧ s.pendOp ≠ none ∧
        ∃ f, fs = [(cmdTxrxDone, []), f] ∧ f.1 ∈ [cmdReadmem, cmdWritemem, cmdPing]) := by
  rcases h with (hsilent | ⟨f, hf, hq⟩) | ⟨hl, hpend, f, ⟨hf, hcmd⟩, hq⟩
  · exact ⟨[], (queues_nil_iff s t).2 hsilent, by simp, .inl (by simp)⟩
  · exact ⟨[f], hq, by simpa using hf, .inl (by simp)⟩
  · refine ⟨_, hq, ?_, .inr ⟨hl, hpend, f, rfl, hcmd⟩⟩
    simpa using ⟨fixedFrame_txrxDone.ofTable s t, hf.ofTable s t⟩

/-- Settles O18: a silent step by `step_silent`, every other by `step_sends`; the lengths in good states by `ofTable_frameLen`, since the step keeps the invariant. -/
theorem framesLeaveWholeAndInOrder : Obligations.FramesLeaveWholeAndInOrder := by
  intro s s' h hr
  by_cases hquiet : s.link ≠ .host .idle ∧ s.link ≠ .host .disconnected ∧
      ∀ e, s.events.head? = some e → e.mayPrompt = false
  · obtain ⟨hidle, hdown, hprompt⟩ := hquiet
    obtain ⟨-, hout⟩ := step_silent hidle hdown hprompt s' h
    exact ⟨[], by simpa using hout, by simp, by simp, .inl (by simp), fun _ _ _ _ _ => rfl⟩
  · obtain ⟨fs, ⟨hcfg, hout⟩, htable, hcount⟩ := (step_sends s hr s' h).frames
    have hlen : s.Inv → ∀ f ∈ fs, f.2.length = frameLen s.cfg f.1 := fun hi f hf =>
      ofTable_frameLen hi (step_inv hi s' h) hcfg (htable f hf)
    refine ⟨fs, hout, htable, hlen, hcount, fun hidle hdown hrx ht hd =>
      absurd ⟨hidle, hdown, fun e he => ?_⟩ hquiet⟩
    cases e with
    | rxByte b => exact absurd he (hrx b)
    | timerFired => exact absurd he ht
    | reqDisconnect => exact absurd he hd
    | reset => exact absurd he hr
    | txByte | liveTick | req | reqConnect => rfl

end Sys2Proof.Machine
end

