-- ==== Sys2Proof/Proofs/DecodeEncode.lean ====
section
/-! PROOFS. `decode` and `encode` are inverse to each other on the well-formed instructions of a context (spec/30_encoding.md R90, R96, R98; spec/41_framer_decode.md R135 to R144). Settles O3 and O4. -/

namespace Sys2Proof.Machine

/-! Frames and instructions. -/

/-- An instruction is read off exactly one frame, the one that it stands for (R90, R96). -/
theorem frame_instr_eq_some_iff (f : Frame) (i : Instr) : f.instr = some i ↔ f = ⟨i.opcode, i.payload, i.csum⟩ := by
  refine ⟨Frame.instr_eq_some f i, ?_⟩
  rintro rfl
  obtain ⟨-, hinstr, -, -⟩ := frameShape i
  exact hinstr

/-- Well-formedness is that the payload has the length of the length table (R98, R101). -/
theorem wf_iff_payload_length (ctx : DecCtx) (i : Instr) (hi : ctx.infoLen ≤ 256) :
    i.wf ctx = true ↔ i.payload.length = plen ctx i.opcode := by
  refine ⟨fun hwf => ?_, fun hlen => ?_⟩
  · obtain ⟨-, -, -, hwf_length⟩ := frameShape i
    exact hwf_length ctx hwf
  · cases i with
    | memdata P cs => exact beq_iff_eq.2 hlen
    | info P cs =>
      have hP : P.length = ctx.infoLen := hlen
      simp [Instr.wf, pkgDataMax, hP, hi]
    | _ => rfl

/-! The bytes of a frame in `decode`. -/

/-- Bytes that do not begin with START are no instruction (R137). -/
theorem decode_noStart (ctx : DecCtx) (b : Byte) (bs : List Byte) (hb : b ≠ startByte) :
    decode ctx (b :: bs) = .error .noStart := by
  have hstep := decodeStep_seekStart ctx Decoder.reset b rfl
  have hs : Decoder.reset.rxState = .seekStart := rfl
  simp only [decode, decodeFrom, hstep, hs, if_neg hb]

/-- `decode` answers an instruction only for bytes that begin with START and a command byte (R137). -/
theorem decode_ok_starts {ctx : DecCtx} {bytes rest : List Byte} {i : Instr} (h : decode ctx bytes = .ok (i, rest)) :
    ∃ c bs, bytes = startByte :: c :: bs := by
  match bytes with
  | [] => cases h
  | b :: bs =>
    by_cases hb : b = startByte
    · subst hb
      match bs with
      | [] => cases h
      | c :: bs => exact ⟨c, bs, rfl⟩
    · rw [decode_noStart ctx b bs hb] at h
      cases h

/-- Bytes that end before the END position of their frame are no instruction (R135, R147). -/
theorem decode_truncated (ctx : DecCtx) (c : Byte) (bs : List Byte) (hi : ctx.infoLen ≤ 256)
    (hb : bs.length < plen ctx c + 3) : decode ctx (startByte :: c :: bs) = .error .truncated := by
  obtain ⟨hin, hrem⟩ := decodeReadCommand_inside ctx { Decoder.reset with rxState := .readCommand } c hi
  have hfeed := decodeFrom_inside ctx [] bs _ hin (hrem ▸ hb)
  rw [List.append_nil] at hfeed
  rw [decode_start, hfeed]
  rfl

/-- Up to the END position `decode` is the decoder's run, which holds the frame then (R123, R144). -/
theorem decode_reaches_readEnd (ctx : DecCtx) (c : Byte) (P : List Byte) (cs : U16) (hi : ctx.infoLen ≤ 256)
    (hP : P.length = plen ctx c) :
    ∃ d : Decoder, d.rxState = .readEnd ∧ d.rxKnown = known c ∧
      (⟨d.rxCmd, rxPayload ctx d, d.rxCsum⟩ : Frame) = ⟨c, P, cs⟩ ∧
      ∀ tail, decode ctx (startByte :: c :: (P ++ [hiByte cs, loByte cs] ++ tail)) = decodeFrom ctx d tail := by
  obtain ⟨d, hend, hcmd, hknown, -, -, hcs, hpay, hrun⟩ := decodeRun_frame ctx Decoder.reset c P cs hi hP rfl
  obtain ⟨hin, hrem⟩ := decodeReadCommand_inside ctx { Decoder.reset with rxState := .readCommand } c hi
  refine ⟨d, hend, hknown, by rw [hcmd, hpay, hcs], fun tail => ?_⟩
  rw [decode_start, decodeFrom_inside ctx tail _ _ hin (by rw [hrem]; simp [hP]),
    ← decodeRun_start ctx Decoder.reset c _ rfl, hrun]

/-- The END byte of a known command gives the instruction of the frame received, if the frame stands for one (R141). -/
theorem decodeFrom_endByte_eq_ok_iff (ctx : DecCtx) (d : Decoder) (tail rest : List Byte) (i : Instr)
    (hs : d.rxState = .readEnd) (hk : d.rxKnown = true) :
    decodeFrom ctx d (endByte :: tail) = .ok (i, rest) ↔
      (⟨d.rxCmd, rxPayload ctx d, d.rxCsum⟩ : Frame).instr = some i ∧ tail = rest := by
  have hframe : (decodeStep ctx d endByte).2 = some ⟨d.rxCmd, rxPayload ctx d, d.rxCsum⟩ := by
    rw [decodeStep_readEnd ctx d endByte hs]
    exact if_pos ⟨rfl, hk⟩
  simp only [decodeFrom, hframe]
  cases (⟨d.rxCmd, rxPayload ctx d, d.rxCsum⟩ : Frame).instr <;> simp

/-- At the END position no byte but END, and no byte of an unknown command, gives an instruction (R106, R108, R141). -/
theorem decodeFrom_brokenEnd (ctx : DecCtx) (d : Decoder) (b : Byte) (tail : List Byte) (hs : d.rxState = .readEnd)
    (hb : ¬ (b = endByte ∧ d.rxKnown = true)) :
    decodeFrom ctx d (b :: tail) = .error (if d.rxKnown then .badEnd else .unknownCommand) := by
  have hnone : (decodeStep ctx d b).2 = none := by
    rw [decodeStep_readEnd ctx d b hs]
    exact if_neg hb
  simp only [decodeFrom, hnone, hs]

/-- At the END position the END byte of a known command alone gives an instruction, the one of the frame received (R141). -/
theorem decodeFrom_readEnd_eq_ok_iff (ctx : DecCtx) (d : Decoder) (b : Byte) (tail rest : List Byte) (i : Instr)
    (hs : d.rxState = .readEnd) :
    decodeFrom ctx d (b :: tail) = .ok (i, rest) ↔
      b = endByte ∧ d.rxKnown = true ∧ (⟨d.rxCmd, rxPayload ctx d, d.rxCsum⟩ : Frame).instr = some i ∧ tail = rest := by
  by_cases hb : b = endByte ∧ d.rxKnown = true
  · obtain ⟨rfl, hk⟩ := hb
    rw [decodeFrom_endByte_eq_ok_iff ctx d tail rest i hs hk]
    simp [hk]
  · rw [decodeFrom_brokenEnd ctx d b tail hs hb]
    exact ⟨nofun, fun ⟨hend, hk, _⟩ => absurd ⟨hend, hk⟩ hb⟩

/-- `decode` over bytes that reach an END position answers an instruction exactly if its END byte stands there and the frame before it is the instruction's (R90, R141). -/
theorem decode_eq_ok_iff (ctx : DecCtx) (c : Byte) (P : List Byte) (cs : U16) (b : Byte) (tail rest : List Byte)
    (i : Instr) (hi : ctx.infoLen ≤ 256) (hP : P.length = plen ctx c) :
    decode ctx (startByte :: c :: (P ++ [hiByte cs, loByte cs] ++ b :: tail)) = .ok (i, rest) ↔
      b = endByte ∧ (⟨c, P, cs⟩ : Frame) = ⟨i.opcode, i.payload, i.csum⟩ ∧ tail = rest := by
  obtain ⟨d, hend, hknown, hframe, hdecode⟩ := decode_reaches_readEnd ctx c P cs hi hP
  rw [hdecode, decodeFrom_readEnd_eq_ok_iff ctx d b tail rest i hend, hknown, hframe, frame_instr_eq_some_iff]
  refine ⟨fun ⟨hb, _, hf, ht⟩ => ⟨hb, hf, ht⟩, fun ⟨hb, hf, ht⟩ => ⟨hb, ?_, hf, ht⟩⟩
  obtain ⟨hopcode, -, -, -⟩ := frameShape i
  rw [show c = i.opcode from congrArg Frame.cmd hf]
  exact hopcode

/-- `n + 3` bytes or more are a payload of `n` bytes, a checksum field, the byte at the END position and the bytes after it (R90, R105). -/
theorem exists_frame_parts (n : Nat) (bs : List Byte) (h : n + 3 ≤ bs.length) :
    ∃ (P : List Byte) (cs : U16) (b : Byte) (tail : List Byte),
      P.length = n ∧ bs = P ++ [hiByte cs, loByte cs] ++ b :: tail := by
  have hdrop : 3 ≤ (bs.drop n).length := by rw [List.length_drop]; omega
  match hbs : bs.drop n, hdrop with
  | hi :: lo :: b :: tail, _ =>
    refine ⟨bs.take n, hi ++ lo, b, tail, List.length_take_of_le (by omega), ?_⟩
    rw [hiByte_append, loByte_append, List.append_assoc]
    exact (List.take_append_drop n bs).symm.trans (congrArg (bs.take n ++ ·) hbs)

/-- Settles O3: the encoding is the frame of the instruction, and its payload has the table's length. -/
theorem decodeInvertsEncode : Obligations.DecodeInvertsEncode := by
  intro ctx i rest hi hwf
  have hP := (wf_iff_payload_length ctx i hi).1 hwf
  have hdecode := (decode_eq_ok_iff ctx i.opcode i.payload i.csum endByte rest rest i hi hP).2 ⟨rfl, rfl, rfl⟩
  simpa [encode_eq_append] using hdecode

/-- Settles O4: the bytes begin with START and a command byte, are long enough for its frame (`decode_truncated`), and the frame is the instruction's (`decode_eq_ok_iff`). -/
theorem decodedBytesAreTheEncoding : Obligations.DecodedBytesAreTheEncoding := by
  intro ctx bytes rest i hi h
  obtain ⟨c, bs, rfl⟩ := decode_ok_starts h
  have hlen : plen ctx c + 3 ≤ bs.length := by
    by_contra hshort
    rw [decode_truncated ctx c bs hi (by omega)] at h
    cases h
  obtain ⟨P, cs, b, tail, hP, rfl⟩ := exists_frame_parts _ bs hlen
  obtain ⟨rfl, hframe, rfl⟩ := (decode_eq_ok_iff ctx c P cs b tail rest i hi hP).1 h
  obtain ⟨rfl, rfl, rfl⟩ := Frame.mk.inj hframe
  exact ⟨(wf_iff_payload_length ctx i hi).2 hP, by simp [encode_eq_append]⟩

end Sys2Proof.Machine
end

