-- ==== Sys2Proof/Proofs/EncodingTables.lean ====
section
/-! PROOFS. The tables of spec/30_encoding.md: the vocabulary and the payload lengths (R97, R98), the memory sizes (R103), and frames written out from them (R127). Settles O5, O13 and O14. -/

namespace Sys2Proof.Machine

/-- The known commands are the vocabulary (R97). -/
theorem known_iff (c : Byte) : known c = true ↔ c ∈ vocabulary := by
  unfold known
  exact List.contains_iff_mem

/-- A code beside the three valid ones names no memory (R103). -/
theorem memOfCode_invalid {t : Byte} (h1 : t ≠ 0x01) (h2 : t ≠ 0x02) (h3 : t ≠ 0x03) : memOfCode t = none := by
  unfold memOfCode
  rw [if_neg h1, if_neg h2, if_neg h3]

/-- A code that names no memory has size 0 (R12, R103). -/
theorem memsize_eq_zero {t : Byte} (h : memOfCode t = none) : memsize t = 0 := by
  unfold memsize
  rw [h]
  rfl

/-- Settles O5: each frame is fed to the decoder byte by byte. -/
theorem writtenOutFramesDecode : Obligations.WrittenOutFramesDecode :=
  ⟨rfl, rfl, rfl, rfl, rfl, rfl, rfl⟩

/-- Settles O13: the list of the 18 opcodes by value is a rearrangement of the vocabulary, which `known_iff` reads; the table's rows are those of `plen`. -/
theorem vocabularyAndLengthTable : Obligations.VocabularyAndLengthTable := by
  refine ⟨fun c => ?_, by decide +kernel, fun ctx c => ?_⟩
  · rw [known_iff]
    exact List.Perm.mem_iff (by decide)
  · simp only [List.mem_cons, List.not_mem_nil, or_false]
    rfl

/-- Settles O14: the valid codes are rows of the table, every other code falls through all of them (`memOfCode_invalid`). -/
theorem memorySizesByCode : Obligations.MemorySizesByCode := by
  have hinvalid : ∀ t : Byte, t ≠ 0x01 → t ≠ 0x02 → t ≠ 0x03 → memOfCode t = none ∧ memsize t = 0 :=
    fun t h1 h2 h3 => ⟨memOfCode_invalid h1 h2 h3, memsize_eq_zero (memOfCode_invalid h1 h2 h3)⟩
  exact ⟨rfl, rfl, rfl, rfl, rfl, rfl, rfl, hinvalid, rfl, rfl, rfl⟩

end Sys2Proof.Machine
end

