-- ==== Sys2Proof/Proofs/TransmitPath.lean ====
section
/-! PROOFS. The way of a frame to the wire: the checksum unit and the frame layout (spec/42_checksum.md R160, R161; spec/40_framer_encode.md R123), `SEND` (R120 to R122) and the byte that is handed over (R124). Settles O15, O16 and O17. -/

namespace Sys2Proof.Machine

/-! The checksum field on the wire (R105). -/

theorem hiByte_toNat (w : U16) : (hiByte w).toNat = w.toNat / 256 := by
  simp only [hiByte, BitVec.extractLsb'_toNat, Nat.shiftRight_eq_div_pow]
  have := w.isLt
  omega

theorem loByte_toNat (w : U16) : (loByte w).toNat = w.toNat % 256 := by
  simp [loByte, BitVec.extractLsb'_toNat]

/-! The checksum unit. -/

theorem generate_none {cfg : Cfg} (h : cfg.checksumMode = .none) (c : Byte) (P : List Byte) :
    generate cfg c P = 0x0000 := by
  simp [generate, h]

theorem generate_strict {cfg : Cfg} (h : cfg.checksumMode = .strict) (c : Byte) (P : List Byte) :
    generate cfg c P = Config.csumFn c P := by
  simp [generate, h]

theorem validate_none {cfg : Cfg} (h : cfg.checksumMode = .none) (c : Byte) (P : List Byte) (cs : U16) :
    validate cfg c P cs = true := by
  simp [validate, h]

theorem validate_strict_iff {cfg : Cfg} (h : cfg.checksumMode = .strict) (c : Byte) (P : List Byte) (cs : U16) :
    validate cfg c P cs = true ↔ cs = Config.csumFn c P := by
  simp [validate, h]

/-- Settles O15: the layout is `frameBytes`, its two checksum bytes are the halves of the generated value, and the checksum unit is read mode by mode. -/
theorem frameLayoutAndChecksumUnit : Obligations.FrameLayoutAndChecksumUnit := by
  intro cfg c P
  exact ⟨⟨hiByte (generate cfg c P), loByte (generate cfg c P), rfl, hiByte_toNat _, loByte_toNat _⟩,
    frameBytes_length c P _, fun h => ⟨generate_none h c P, validate_none h c P⟩,
    fun h => ⟨generate_strict h c P, validate_strict_iff h c P⟩⟩

/-- Settles O16: `send_cases` case by case, then `sendAccepts_iff`; in every case that counts the free bytes the payload has the table's length. -/
theorem sendQueuesOrRefusesWhole : Obligations.SendQueuesOrRefusesWhole := by
  intro c P s
  have hfreeBytes : s.txFree = s.cfg.txqBytes - s.txq.length := rfl
  constructor
  · rw [← hfreeBytes]
    rcases send_cases c P s with ⟨hlen, h⟩ | ⟨hlen, hfull, h⟩ | ⟨hlen, hfree, h⟩
    · rw [h, if_pos hlen]
    · rw [h, if_neg (not_not_intro hlen), ← hlen, if_pos hfull]
    · rw [h, if_neg (not_not_intro hlen), ← hlen, if_neg (Nat.not_lt.2 hfree)]
  · rw [sendAccepts_iff]
    exact and_congr_right fun hlen => by rw [hlen, hfreeBytes]

/-! The byte that is handed over. -/

/-- The front byte of the queue goes to the wire (R124). -/
theorem txByte_cons {s : State} {b : Byte} {q : List Byte} (h : s.txq = b :: q) :
    txByte s = { s with txq := q, wireOut := s.wireOut ++ [b] } := by
  unfold txByte
  rw [h]

/-- Of an empty queue nothing is handed over (R124). -/
theorem txByte_nil {s : State} (h : s.txq = []) : txByte s = s := by
  unfold txByte
  rw [h]

/-- Settles O17: the step runs `txByte` on the state without the event. -/
theorem txByteMovesTheFrontByte : Obligations.TxByteMovesTheFrontByte := by
  intro s rest he
  have hstep : step s = .next (txByte { s with events := rest }) := step_event s .txByte rest he
  refine ⟨fun b q hq => ?_, fun hq => ?_⟩
  · rw [hstep, txByte_cons (s := { s with events := rest }) hq]
  · rw [hstep, txByte_nil (s := { s with events := rest }) hq]

end Sys2Proof.Machine
end

