-- ==== Sys2Proof/Proofs/LengthFault.lean ====
section
/-! PROOFS. No rule calls `SEND` with a payload of the wrong length (spec/40_framer_encode.md R121): only a reset writes `flt_tx_len`, and it clears it. Settles O19. -/

namespace Sys2Proof.Machine

/-! The operations that send outside a command's rule; a command's own frame is `exec_kept`. -/

@[simp] theorem raise_fltTxLen (x : Exn) (s : State) : (raise x s).fltTxLen = s.fltTxLen :=
  (raise_quiet x s).kept.toKept.fltTxLen

@[simp] theorem hostStart_fltTxLen (op : OpKind) (s : State) : (hostStart op s).fltTxLen = s.fltTxLen :=
  (hostStart_quiet op s).fltTxLen

@[simp] theorem hostEnterDisconnected_fltTxLen (s : State) : (hostEnterDisconnected s).fltTxLen = s.fltTxLen :=
  (hostEnterDisconnected_quiet s).fltTxLen

/-! The events. -/

theorem rxByte_fltTxLen (b : Byte) (s : State) : answers (rxByte b s) fun t => t.fltTxLen = s.fltTxLen :=
  rxByte_answers rfl fun _ i _ _ t ht => (exec_kept i _ t ht).toKept.fltTxLen

theorem txByte_fltTxLen (s : State) : (txByte s).fltTxLen = s.fltTxLen := by
  unfold txByte
  split <;> rfl

theorem timerFired_fltTxLen (s : State) : (timerFired s).fltTxLen = s.fltTxLen := by
  unfold timerFired
  split
  · simp
  · rfl

theorem liveTick_fltTxLen (s : State) : (liveTick s).fltTxLen = s.fltTxLen := by
  unfold liveTick
  split
  · split
    · simp
    · rfl
  · rfl
  · rfl

@[simp] theorem loadImage_fltTxLen (r : Request) (s : State) : (loadImage r s).fltTxLen = s.fltTxLen := by
  cases r <;> rfl

theorem hostReq_fltTxLen (h : HostState) (r : Request) (s : State) : (hostReq h r s).fltTxLen = s.fltTxLen := by
  unfold hostReq; dsimp only
  split
  · rfl
  · split
    · rfl
    · split
      · rfl
      · split <;> simp

theorem req_fltTxLen (r : Request) (s : State) : (req r s).fltTxLen = s.fltTxLen := by
  unfold req
  split
  · exact hostReq_fltTxLen _ r s
  · rfl

theorem reqConnect_fltTxLen (s : State) : (reqConnect s).fltTxLen = s.fltTxLen := by
  unfold reqConnect
  split
  · simp
  · rfl
  · rfl

theorem hostDisconnect_fltTxLen (h : HostState) (s : State) : (hostDisconnect h s).fltTxLen = s.fltTxLen := by
  unfold hostDisconnect; dsimp only
  rw [hostAbort_eq, hostAbortPending_eq]
  split <;> simp

theorem reqDisconnect_fltTxLen (s : State) : (reqDisconnect s).fltTxLen = s.fltTxLen := by
  unfold reqDisconnect
  split
  · rfl
  · exact hostDisconnect_fltTxLen _ s
  · rfl

/-- Every event but a reset leaves the length fault as it is (R121). -/
theorem handle_fltTxLen {e : Event} (s : State) (he : e ≠ .reset) :
    answers (handle e s) fun t => t.fltTxLen = s.fltTxLen := by
  cases e with
  | rxByte b => exact rxByte_fltTxLen b s
  | txByte => exact (answers_next _ _).2 (txByte_fltTxLen s)
  | timerFired => exact (answers_next _ _).2 (timerFired_fltTxLen s)
  | liveTick => exact (answers_next _ _).2 (liveTick_fltTxLen s)
  | req r => exact (answers_next _ _).2 (req_fltTxLen r s)
  | reqConnect => exact (answers_next _ _).2 (reqConnect_fltTxLen s)
  | reqDisconnect => exact (answers_next _ _).2 (reqDisconnect_fltTxLen s)
  | reset => exact absurd rfl he

/-- A reset clears the length fault (R50). -/
theorem resetEvent_fltTxLen (s : State) : (resetEvent s).fltTxLen = false := rfl

/-- Settles O19: a reset clears the flag, and every other event leaves it (`handle_fltTxLen`). -/
theorem noRuleSendsAWrongLength : Obligations.NoRuleSendsAWrongLength := by
  intro s s' h hclear
  cases he : s.events with
  | nil =>
    rw [step_idle s he] at h
    cases h
    exact hclear
  | cons e rest =>
    rw [step_event s e rest he] at h
    by_cases hreset : e = .reset
    · subst hreset
      cases h
      exact resetEvent_fltTxLen _
    · exact (handle_fltTxLen { s with events := rest } hreset s' h).trans hclear

end Sys2Proof.Machine
end

