-- ==== Sys2Proof/Proofs/Progress.lean ====
section
/-! PROOFS. A state that meets the invariant answers every event with a next state (spec/41_framer_decode.md R142): the only stops are accesses outside a buffer or the backend, and the invariant keeps each inside. Settles O57. -/

namespace Sys2Proof.Machine

/-- The outcome is a next state: no fault and no refusal. -/
def proceeds (r : Result) : Prop := ∃ t, r = .next t

@[simp] theorem proceeds_next (t : State) : proceeds (.next t) := ⟨t, rfl⟩
@[simp] theorem proceeds_raising (x : Exn) (s : State) : proceeds (raising x s) := ⟨_, rfl⟩

/-! The block procedures: the two that access `xfer_buf`, and those of a DEVICE. -/

/-- At an offset that is a multiple of 256 inside the memory a whole block fits (R64, R100). -/
theorem block_fits {t : Byte} {n : U16} (hm : n.toNat % 256 = 0) (hlt : n.toNat < memsize t) :
    n.toNat + 256 ≤ memsize t := by
  have hs := memsize_mod t
  omega

/-- A block that begins inside the memory is sent: `memdata_len` ends it at the memory's end at the latest (R100, R190). -/
theorem hostSendBlock_proceeds {s : State} (hx : s.xferCnt.toNat < memsize s.memtype) : proceeds (hostSendBlock s) := by
  have hfit : s.xferCnt.toNat + memdataLen s.decCtx ≤ memsize s.memtype := memdataLen_fits s.decCtx hx
  have hsize := memsize_le s.memtype
  rcases hostSendBlock_cases s with ⟨hout, -⟩ | ⟨-, t, ht, -⟩
  · omega
  · exact ⟨t, ht⟩

/-- A received block that lies inside `xfer_buf` is stored (R242). -/
theorem hostTakeBlock_proceeds {P : List Byte} {s : State} (h : s.xferCnt.toNat + P.length ≤ xferBufSize) :
    proceeds (hostTakeBlock P s) := by
  unfold hostTakeBlock; dsimp only
  rw [if_neg (by simpa using h)]
  split
  · exact proceeds_next _
  · exact proceeds_next _

theorem devSendBlock_proceeds (s : State) : proceeds (devSendBlock s) := by
  unfold devSendBlock; dsimp only
  split
  · exact proceeds_raising _ _
  · split
    · exact proceeds_raising _ _
    · exact proceeds_next _

theorem devBegin_proceeds (t : Byte) (d : DevState) (s : State) : proceeds (devBegin t d s) := by
  unfold devBegin
  split
  · exact proceeds_next _
  · exact proceeds_raising _ _

theorem devBlockDone_proceeds (n : Nat) (s : State) : proceeds (devBlockDone n s) := by
  unfold devBlockDone; dsimp only
  split
  · exact proceeds_next _
  · exact proceeds_next _

/-- A block with which the backend may be called is written or reported, whatever the backend answers (R66, R242). -/
theorem devTakeBlock_proceeds {P : List Byte} {s : State}
    (h : s.xferCnt.toNat < memsize s.memtype → backendInRange s.xferCnt.toNat P.length (memsize s.memtype) = true) :
    proceeds (devTakeBlock P s) := by
  unfold devTakeBlock; dsimp only [cancel_xferCnt, cancel_memtype]
  split
  · exact proceeds_raising _ _
  · next hlt =>
    rw [if_pos (by simpa using h (by simpa using hlt))]
    split
    · exact proceeds_raising _ _
    · split
      · exact proceeds_raising _ _
      · split
        · exact devBlockDone_proceeds _ _
        · exact proceeds_raising _ _

/-! The rules that answer a next state from every state. -/

theorem initRule_proceeds (s : State) : proceeds (initRule s) := by
  unfold initRule; dsimp only
  split <;> simp

theorem pingRule_proceeds (s : State) : proceeds (pingRule s) := by
  unfold pingRule; dsimp only
  split <;> simp

theorem memidRule_proceeds (t : Byte) (s : State) : proceeds (memidRule t s) := by
  unfold memidRule; dsimp only
  split
  · split <;> simp
  · simp
  · simp

theorem disconnectRule_proceeds (s : State) : proceeds (disconnectRule s) := by
  unfold disconnectRule
  split <;> simp

/-- The next block of a write is sent only if it begins inside the memory (R231). -/
theorem txrxAckRule_proceeds (s : State) : proceeds (txrxAckRule s) := by
  unfold txrxAckRule; dsimp only
  split
  · exact proceeds_next _
  · split
    · next hmore =>
      have hend : blockEnd (cancel s) = blockEnd s := by simp [blockEnd]
      refine hostSendBlock_proceeds (lt_of_le_of_lt ?_ (by simpa using hmore))
      rw [hend, BitVec.toNat_ofNat]
      exact Nat.mod_le _ _
    · exact proceeds_raising _ _
  · exact devSendBlock_proceeds _
  · exact proceeds_raising _ _
  · exact proceeds_raising _ _

theorem txrxDoneRule_proceeds (s : State) : proceeds (txrxDoneRule s) := by
  unfold txrxDoneRule; dsimp only
  split
  · split <;> simp
  · split <;> simp
  · simp
  · simp

theorem errRule_proceeds (e : Byte) (s : State) : proceeds (errRule e s) := by
  unfold errRule
  split <;> simp

theorem readmemRule_proceeds (t : Byte) (s : State) : proceeds (readmemRule t s) := by
  unfold readmemRule
  split
  · exact devBegin_proceeds _ _ _
  · simp
  · simp

theorem readnextRule_proceeds (s : State) : proceeds (readnextRule s) := by
  unfold readnextRule
  split
  · exact devSendBlock_proceeds _
  · simp
  · simp

theorem writememRule_proceeds (t : Byte) (s : State) : proceeds (writememRule t s) := by
  unfold writememRule
  split
  · exact devBegin_proceeds _ _ _
  · simp
  · simp

/-! The rules that move a block whose place only the invariant fixes (R51). -/

/-- The first block of a write begins at offset 0 of a memory that is not empty (R230). -/
theorem okRule_proceeds {s : State} (hi : s.Inv) : proceeds (okRule s) := by
  unfold okRule
  split
  · exact proceeds_next _
  · exact proceeds_next _
  · next hl =>
    have hx : s.xferCnt = 0 := (hi.hostInv hl).progress
    have hpos : 0 < memsize s.memtype := by
      rw [(hi.hostSession hl rfl).memtype_eq]
      exact memsize_pos (by rw [memOfCode_memCode]; rfl)
    exact hostSendBlock_proceeds (by simpa [hx] using hpos)
  · exact proceeds_raising _ _
  · exact proceeds_raising _ _

/-- The block that is sent again stands where it was sent from (R234). -/
theorem txrxErrRule_proceeds {s : State} (hi : s.Inv) : proceeds (txrxErrRule s) := by
  unfold txrxErrRule
  split
  · next hl =>
    obtain ⟨hx, -⟩ := (hi.hostInv hl).progress
    split
    · exact hostSendBlock_proceeds (by simpa using hx)
    · exact proceeds_raising _ _
  · exact proceeds_raising _ _
  · exact proceeds_raising _ _

/-- A received block has 256 bytes and its offset is a multiple of 256 inside the memory (R38, R100, R242). -/
theorem memdataRule_proceeds {s : State} {P : List Byte} (hP : P.length = 256) (hi : s.Inv) :
    proceeds (memdataRule P s) := by
  have hmult := hi.counters.xfer_mult
  unfold memdataRule
  split
  · next hl =>
    have hfit := block_fits hmult (hi.hostInv hl).progress
    exact hostTakeBlock_proceeds (by rw [hP]; exact hfit.trans (memsize_le _))
  · refine devTakeBlock_proceeds fun hlt => ?_
    have hfit := block_fits hmult hlt
    simp [backendInRange, hP, hfit]
  · exact proceeds_raising _ _
  · exact proceeds_raising _ _

/-! Delivery (R171), received bytes (R136) and steps (R14). -/

theorem rule_proceeds {s : State} (i : Instr) (hi : s.Inv) (hP : ∀ P cs, i = .memdata P cs → P.length = 256) :
    proceeds (Instr.rule i s) := by
  cases i with
  | noneCmd cs => exact proceeds_raising _ _
  | init cs => exact initRule_proceeds s
  | ping cs => exact pingRule_proceeds s
  | memid t cs => exact memidRule_proceeds t s
  | startxfer cs => exact proceeds_raising _ _
  | endxfer cs => exact proceeds_raising _ _
  | disconnect cs => exact disconnectRule_proceeds s
  | ok cs => exact okRule_proceeds hi
  | txrxAck cs => exact txrxAckRule_proceeds s
  | txrxDone cs => exact txrxDoneRule_proceeds s
  | err e cs => exact errRule_proceeds e s
  | txrxErr cs => exact txrxErrRule_proceeds hi
  | readmem t cs => exact readmemRule_proceeds t s
  | readnext cs => exact readnextRule_proceeds s
  | memdata P cs => exact memdataRule_proceeds (hP P cs rfl) hi
  | data x cs => exact proceeds_raising _ _
  | info P cs => exact proceeds_raising _ _
  | writemem t cs => exact writememRule_proceeds t s

/-- A delivery stops only where its rule does (R171). -/
theorem exec_proceeds {s : State} (i : Instr) (hi : s.Inv) (hP : ∀ P cs, i = .memdata P cs → P.length = 256) :
    proceeds (exec i s) := by
  have hi' : ({ s with lastRxCmd := i.opcode } : State).Inv :=
    hi.update (hi.sound.update (by simp) (by simp)) (by simp) (by simp) (by simp)
  rw [exec_eq_deliver]
  rcases deliver_cases i.opcode i.payload i.csum (Instr.rule i) s with ⟨-, hd⟩ | ⟨-, -, hd⟩ | ⟨-, -, hd⟩ <;> rw [hd]
  · exact proceeds_next _
  · exact proceeds_next _
  · exact rule_proceeds i hi' hP

/-- The decoder stays inside `rx_buf` (R27, R51). -/
theorem State.DecInv.rxInRange {s : State} (h : s.DecInv) : rxInRange s.dec = true := by
  have hlen := h.len_le
  unfold Machine.rxInRange
  split
  · rfl
  · rfl
  · next hs =>
    have hcnt := h.data_cnt hs
    exact decide_eq_true (show s.dec.rxCnt.toNat < 256 by omega)
  · rfl
  · exact decide_eq_true hlen

/-- A received byte moves the decoder, or delivers a frame on a state that still meets the invariant (R136, R141, R142). -/
theorem rxByte_proceeds {s : State} (b : Byte) (hi : s.Inv) : proceeds (rxByte b s) := by
  have hd : ({ s with dec := (decodeStep s.decCtx s.dec b).1 } : State).Inv :=
    hi.update (hi.sound.decodeStep b) (by simp) (by simp) (by simp)
  unfold rxByte; dsimp only
  rw [if_pos hi.decoder.rxInRange]
  split
  · exact proceeds_next _
  · next f hf =>
    unfold deliverFrame
    split
    · next i hinstr => exact exec_proceeds i hd fun P cs hP => hi.frame_memdata hf (hinstr.trans (congrArg some hP))
    · exact proceeds_next _

/-- Only a received byte could stop the machine (R275). -/
theorem handle_proceeds {s : State} (e : Event) (hi : s.Inv) : proceeds (handle e s) := by
  cases e with
  | rxByte b => exact rxByte_proceeds b hi
  | txByte => exact proceeds_next _
  | timerFired => exact proceeds_next _
  | liveTick => exact proceeds_next _
  | req r => exact proceeds_next _
  | reqConnect => exact proceeds_next _
  | reqDisconnect => exact proceeds_next _
  | reset => exact proceeds_next _

theorem step_proceeds {s : State} (hi : s.Inv) : proceeds (step s) := by
  cases he : s.events with
  | nil => rw [step_idle s he]; exact proceeds_next _
  | cons e rest =>
    rw [step_event s e rest he]
    exact handle_proceeds e (hi.update (hi.sound.update (by simp) (by simp)) (by simp) (by simp) (by simp))

/-- Settles O57: `step_proceeds`, by the event taken, the command delivered and the block that it moves. -/
theorem goodStatesNeverStop : Obligations.GoodStatesNeverStop := by
  intro s hi
  exact step_proceeds hi

end Sys2Proof.Machine
end

