-- ==== Sys2Proof/Proofs/FramerSteps.lean ====
section
/-! PROOFS. One received byte in each of the decoder's five states, as a whole step of the machine (spec/41_framer_decode.md R137 to R141). Settles O8 to O12. -/

namespace Sys2Proof.Machine

/-! The decoder's updates in the terms of the statements. -/

/-- In `SeekStart` only `rx_state` is written, and only by START (R137). -/
theorem decodeSeekStart_eq {d : Decoder} (b : Byte) (hs : d.rxState = .seekStart) :
    decodeSeekStart d b = { d with rxState := if b = startByte then .readCommand else .seekStart } := by
  unfold decodeSeekStart
  split
  · rfl
  · rw [← hs]

/-- The count of `ReadData` in the two spellings (R26, R139). -/
theorem rxCnt_succ (d : Decoder) : d.rxCnt + 1 = BitVec.ofNat 9 (d.rxCnt.toNat + 1) := by
  apply BitVec.eq_of_toNat_eq
  simp [BitVec.toNat_add]

/-- In `ReadData` the byte goes to index `rx_cnt`, and the last byte of the payload ends the state (R139). -/
theorem decodeReadData_eq {d : Decoder} (b : Byte) (h : d.rxCnt.toNat < 256) :
    decodeReadData d b =
      if d.rxCnt.toNat + 1 = d.rxLen.toNat then
        { d with rxBuf := d.rxBuf.writeBytes d.rxCnt.toNat [b], rxCnt := 0, rxState := .readChecksum }
      else
        { d with rxBuf := d.rxBuf.writeBytes d.rxCnt.toNat [b], rxCnt := BitVec.ofNat 9 (d.rxCnt.toNat + 1) } := by
  have hsucc := rxCnt_succ d
  have hnat : (d.rxCnt + 1).toNat = d.rxCnt.toNat + 1 := by rw [hsucc, BitVec.toNat_ofNat]; omega
  by_cases hl : d.rxCnt + 1 = d.rxLen
  · rw [decodeReadData_last d b hl, if_pos (by rw [← hl, hnat])]
  · rw [decodeReadData_more d b hl, hsucc, if_neg fun hn => hl (BitVec.eq_of_toNat_eq (hnat.trans hn))]

/-- Read after a write of one byte (R11). -/
theorem Memory.lookup_writeByte (m : Memory) (a : Nat) (b : Byte) (j : Nat) :
    (m.writeBytes a [b]).lookup j = if j = a then some b else m.lookup j := by
  rw [Memory.lookup_writeBytes]
  by_cases h : j = a
  · simp [h]
  · rw [if_neg h, if_neg (by simp only [List.length_singleton]; omega)]

/-- Two bytes as one word, the first one high (R69). -/
theorem toNat_append_bytes (hi lo : Byte) : (hi ++ lo : U16).toNat = hi.toNat * 256 + lo.toNat := by
  rw [BitVec.toNat_append, ← Nat.shiftLeft_add_eq_or_of_lt lo.isLt, Nat.shiftLeft_eq]

theorem setHi_toNat (w : U16) (b : Byte) : (setHi w b).toNat = b.toNat * 256 + w.toNat % 256 := by
  rw [setHi, toNat_append_bytes, loByte_toNat]

theorem setLo_toNat (w : U16) (b : Byte) : (setLo w b).toNat = w.toNat / 256 * 256 + b.toNat := by
  rw [setLo, toNat_append_bytes, hiByte_toNat]

/-- In `ReadEnd` no frame comes out of a byte other than END or of an unknown command (R106, R108, R141). -/
theorem decodeReadEnd_broken (ctx : DecCtx) (d : Decoder) (b : Byte) (h : b ≠ endByte ∨ d.rxKnown = false) :
    decodeReadEnd ctx d b = ({ d with rxState := .seekStart }, none) := by
  unfold decodeReadEnd
  rw [if_neg]
  rintro ⟨hb, hk⟩
  rcases h with h | h
  · exact h hb
  · exact absurd (hk.symm.trans h) (by decide)

/-! The steps. -/

/-- Settles O8: `decodeSeekStart_eq` in a step that ends no frame. -/
theorem seekStartWaitsForTheStartMarker : Obligations.SeekStartWaitsForTheStartMarker := by
  intro s b rest he hs
  have hd := decodeStep_seekStart s.decCtx s.dec b hs
  rw [step_quietByte s b rest he (by simp [rxInRange, hs]) (by rw [hd]), hd, decodeSeekStart_eq b hs]

/-- Settles O9: the decoder's update is the one that the statement writes out. -/
theorem readCommandSamplesTheLength : Obligations.ReadCommandSamplesTheLength := by
  intro s b rest he hs
  have hd := decodeStep_readCommand s.decCtx s.dec b hs
  rw [step_quietByte s b rest he (by simp [rxInRange, hs]) (by rw [hd]), hd]
  rfl

/-- Settles O10: the buffer is the old one with the byte written at `rx_cnt` (`Memory.lookup_writeByte`). -/
theorem readDataStoresTheByte : Obligations.ReadDataStoresTheByte := by
  intro s b rest he hs hcnt
  have hd := decodeStep_readData s.decCtx s.dec b hs
  refine ⟨s.dec.rxBuf.writeBytes s.dec.rxCnt.toNat [b], Memory.lookup_writeByte _ _ b, ?_⟩
  rw [step_quietByte s b rest he (by simp [rxInRange, hs, rxBufSize, hcnt]) (by rw [hd]), hd, decodeReadData_eq b hcnt]

/-- Settles O11: the new word is `setHi` or `setLo` of the old one, by the half that is awaited. -/
theorem readChecksumIsBigEndian : Obligations.ReadChecksumIsBigEndian := by
  intro s b rest he hs
  have hd := decodeStep_readChecksum s.decCtx s.dec b hs
  have hstep := step_quietByte s b rest he (by simp [rxInRange, hs]) (by rw [hd])
  rw [hd] at hstep
  by_cases hc : s.dec.rxCnt = 0
  · refine ⟨setHi s.dec.rxCsum b, ?_, fun _ => setHi_toNat _ b, fun hn => absurd hc hn⟩
    rw [hstep, decodeReadChecksum, if_pos hc, if_pos hc]
  · refine ⟨setLo s.dec.rxCsum b, ?_, fun h0 => absurd h0 hc, fun _ => setLo_toNat _ b⟩
    rw [hstep, decodeReadChecksum, if_neg hc, if_neg hc]

/-- Settles O12: a broken frame's last byte is a byte that ends no frame (`decodeReadEnd_broken`). -/
theorem readEndDropsBrokenFrames : Obligations.ReadEndDropsBrokenFrames := by
  intro s b rest he hs hlen hbroken
  have hd := decodeStep_readEnd s.decCtx s.dec b hs
  rw [decodeReadEnd_broken s.decCtx s.dec b hbroken] at hd
  rw [step_quietByte s b rest he (by simp [rxInRange, hs, rxBufSize, hlen]) (by rw [hd]), hd]

end Sys2Proof.Machine
end

