-- ==== Sys2Proof/Proofs/Resynchronisation.lean ====
section
/-! PROOFS. Runs of the decoder from `SeekStart`: bytes before START are discarded, a START that is taken costs one whole frame, and a valid frame after them is delivered (spec/41_framer_decode.md R144 to R147). Settles O6 and O7. -/

namespace Sys2Proof.Machine

/-! One whole frame after START (R147). -/

/-- One byte before the frame's end the decoder is at the END position (R141). -/
theorem readEnd_of_remaining_one {d : Decoder} (h : d.inside) (hr : d.remaining = 1) : d.rxState = .readEnd := by
  cases hs : d.rxState with
  | seekStart => simp [Decoder.inside, hs] at h
  | readCommand => simp [Decoder.inside, hs] at h
  | readEnd => rfl
  | readData => simp [Decoder.remaining, hs] at hr
  | readChecksum =>
    simp only [Decoder.inside, hs] at h
    simp only [Decoder.remaining, hs] at hr
    omega

/-- Inside a frame the decoder is in neither of the states before the command byte (R136). -/
theorem inside_ne_seekStart {d : Decoder} (h : d.inside) : d.rxState ≠ .seekStart := by
  intro hs
  simp [Decoder.inside, hs] at h

/-- As many bytes as remain lead out of the frame, whatever they are (R93, R147). -/
theorem decodeRun_remaining (ctx : DecCtx) (bs : List Byte) (d : Decoder) (h : d.inside)
    (hr : bs.length = d.remaining) (hne : bs ≠ []) : (decodeRun ctx d bs).1.rxState = .seekStart := by
  have hpos := List.length_pos_of_ne_nil hne
  obtain ⟨-, hin, hrem⟩ := decodeRun_inside ctx bs.dropLast d h (by rw [List.length_dropLast]; omega)
  rw [List.length_dropLast] at hrem
  have hend := readEnd_of_remaining_one hin (by omega)
  rw [← List.dropLast_append_getLast hne, decodeRun_append]
  simp only [decodeRun, decodeStep_readEnd ctx _ _ hend, decodeReadEnd]

/-- Settles O7: `plen(c) + 3` bytes remain after the command byte (`decodeReadCommand_inside`); fewer stay inside the frame, all of them lead out. -/
theorem falseStartConsumesOneFrame : Obligations.FalseStartConsumesOneFrame := by
  intro ctx d c bs hi hs hlen
  obtain ⟨hin, hrem⟩ := decodeReadCommand_inside ctx { d with rxState := .readCommand } c hi
  have hne : bs ≠ [] := by rintro rfl; simp at hlen
  refine ⟨?_, ?_, fun k hk => ?_⟩
  · rw [decodeRun_start ctx d c bs hs]
    exact decodeRun_remaining ctx bs _ hin (by rw [hlen, hrem]) hne
  · simp [decodeRun, decodeStep_seekStart ctx d _ hs, decodeSeekStart]
  · rw [decodeRun_start ctx d c _ hs]
    obtain ⟨-, hin', -⟩ := decodeRun_inside ctx (bs.take k) _ hin (by rw [List.length_take]; omega)
    exact inside_ne_seekStart hin'

/-! Bytes before a frame, and the frame (R144, R145). -/

/-- Bytes other than START leave the decoder in `SeekStart` as it is (R137). -/
theorem decodeRun_discards (ctx : DecCtx) (d : Decoder) (bs : List Byte) (hs : d.rxState = .seekStart)
    (hb : ∀ b ∈ bs, b ≠ startByte) : decodeRun ctx d bs = (d, []) := by
  induction bs with
  | nil => rfl
  | cons b bs ih =>
    obtain ⟨hb, hbs⟩ := List.forall_mem_cons.1 hb
    have hstep : decodeStep ctx d b = (d, none) := by
      rw [decodeStep_seekStart ctx d b hs, decodeSeekStart, if_neg hb]
    simp only [decodeRun, hstep, ih hbs, Option.toList, List.nil_append]

/-- From `SeekStart` the encoding of a known command delivers exactly its frame (R123, R144). -/
theorem decodeRun_encodeFrame (cfg : Cfg) (ctx : DecCtx) (d : Decoder) (c : Byte) (P : List Byte)
    (hi : ctx.infoLen ≤ 256) (hc : known c = true) (hP : P.length = plen ctx c) (hs : d.rxState = .seekStart) :
    (decodeRun ctx d (encodeFrame cfg c P)).2 = [⟨c, P, generate cfg c P⟩] := by
  obtain ⟨d', hend, hcmd, hknown, -, -, hcs, hpay, hrun⟩ := decodeRun_frame ctx d c P (generate cfg c P) hi hP hs
  have hbytes : encodeFrame cfg c P =
      (startByte :: c :: (P ++ [hiByte (generate cfg c P), loByte (generate cfg c P)])) ++ [endByte] := by
    simp [encodeFrame, frameBytes]
  have hframe : (decodeStep ctx d' endByte).2 = some ⟨c, P, generate cfg c P⟩ := by
    rw [decodeStep_readEnd ctx d' endByte hend, decodeReadEnd, if_pos ⟨rfl, hknown.trans hc⟩, hcmd, hpay, hcs]
  rw [hbytes, decodeRun_append, hrun]
  simp only [decodeRun, hframe, Option.toList, List.nil_append, List.append_nil]

/-- A stray START before INIT in NONE mode: INIT's own START is taken as the command STARTXFER, INIT's command byte and first checksum byte as its checksum, and the second checksum byte fails as END (R145, vector V27). -/
theorem decodeRun_strayStart (ctx : DecCtx) (d : Decoder) (hs : d.rxState = .seekStart) :
    (decodeRun ctx d (startByte :: encodeFrame Cfg.default cmdInit [])).2 = [] := by
  have hbytes : encodeFrame Cfg.default cmdInit [] = [cmdStartxfer, 0x01, 0x00, 0x00, endByte] := rfl
  rw [hbytes, decodeRun_start ctx d _ _ hs]
  rfl

/-- Settles O6: the run over the bytes before the frame ends in `SeekStart`, from where the encoding is delivered (`decodeRun_encodeFrame`). -/
theorem resynchronisesAfterAHarmlessPrefix : Obligations.ResynchronisesAfterAHarmlessPrefix := by
  intro cfg ctx d pre c P hi hc hP hs
  refine ⟨fun hquiet hseek => ?_, fun hpre => ?_, decodeRun_strayStart ctx d hs⟩
  · rw [decodeRun_append, hquiet, List.nil_append]
    exact decodeRun_encodeFrame cfg ctx _ c P hi hc hP hseek
  · rw [decodeRun_discards ctx d pre hs hpre]
    exact ⟨rfl, hs⟩

end Sys2Proof.Machine
end

