-- ==== Sys2Proof/Proofs/ProcedureEffects.lean ====
section
/-! PROOFS. The dispatcher's procedures in the terms in which the statements write a rule's effect out (spec/43_dispatch_core.md section 3, spec/60_exceptions.md R262 to R270). Settles O22. -/

namespace Sys2Proof.Machine

/-- `State.sent` field by field: whatever else an operation writes around a `SEND`, the queue, `last_tx_cmd` and the queue fault are decided by the queue alone (R120, R122). -/
theorem sent_eq (s : State) (c : Byte) (P : List Byte) :
    s.sent c P =
      { s with
        txq := if s.txq.length + 5 + P.length ≤ s.cfg.txqBytes then s.txq ++ encodeFrame s.cfg c P else s.txq
        lastTxCmd := if s.txq.length + 5 + P.length ≤ s.cfg.txqBytes then c else s.lastTxCmd
        fltTxq := if s.txq.length + 5 + P.length ≤ s.cfg.txqBytes then s.fltTxq else true } := by
  unfold State.sent
  by_cases h : s.txq.length + 5 + P.length ≤ s.cfg.txqBytes
  · simp only [if_pos h]
  · simp only [if_neg h]

/-! The procedures of a HOST. -/

/-- `host_start(op)` is the effect that the statements write out (R184). -/
theorem hostStart_eq (op : OpKind) (s : State) : hostStart op s = s.started op := by
  cases op
  all_goals unfold hostStart State.started; dsimp only
  case read => rw [send_one _ _ _ (plen_readmem _), sent_eq, sent_eq]; rfl
  case write => rw [send_one _ _ _ (plen_writemem _), sent_eq, sent_eq]; rfl
  case ping => rw [send_empty _ _ (plen_ping _), sent_eq, sent_eq]; rfl

/-- `host_to_idle()` is the effect that the statements write out (R180, R183). -/
theorem hostToIdle_eq (s : State) : hostToIdle s = s.idled := by
  unfold hostToIdle hostService State.idled
  rw [cancel_eq]; dsimp only
  cases s.pendOp with
  | none => rfl
  | some op => exact hostStart_eq op _

/-- Entering `H_DISCONNECTED` with the link enabled is the start of a handshake (R179). -/
theorem hostEnterDisconnected_enabled {s : State} (h : s.linkEn = true) :
    hostEnterDisconnected s =
      { s.sent cmdInit [] with
        connected := false, memtype := mtNone, timerArmed := true, timerMs := s.cfg.tInit
        timerCmd := s.timerCmd ++ [.arm s.cfg.tInit], link := .host .init } := by
  unfold hostEnterDisconnected; dsimp only
  rw [if_pos h, send_empty _ _ (plen_init _), sent_eq, sent_eq]; rfl

/-- Entering `H_DISCONNECTED` with the link disabled sends nothing (R179). -/
theorem hostEnterDisconnected_disabled {s : State} (h : s.linkEn = false) :
    hostEnterDisconnected s =
      { s with connected := false, memtype := mtNone, link := .host .disconnected } := by
  unfold hostEnterDisconnected; dsimp only
  rw [if_neg (by simp [h])]

/-! The procedures of a DEVICE. -/

/-- A second `CANCEL` before the return to the safe state adds nothing (R270, R281). -/
theorem madeSafe_cancel (s : State) (d : DevState) : (cancel s).madeSafe d = s.madeSafe d := by
  rw [cancel_eq]
  cases d <;> simp [State.madeSafe, State.cancelCall]

/-- A `CANCEL` before a `SEND` may as well stand after it (R120, R281). -/
theorem sent_cancel (s : State) (c : Byte) (P : List Byte) : (cancel s).sent c P = cancel (s.sent c P) := by
  rw [cancel_eq, cancel_eq, sent_eq, sent_eq]; rfl

/-- The handler of `DeviceError(code)` reports the code and makes the device safe (R269, R270). -/
theorem deviceError_eq {s : State} {d : DevState} (code : ErrorCode) (hl : s.link = .device d) :
    deviceError code s = (s.sent 0xF0 [code.byte]).madeSafe d := by
  unfold deviceError
  rw [send_one _ _ _ (plen_err _), devToSafe_eq (d := d) (by simp [hl]), sent_cancel, madeSafe_cancel]
  rfl

/-- The same, as an exception that a rule raises after its `CANCEL` (R262). -/
theorem raising_deviceError_cancel {s : State} {d : DevState} (code : ErrorCode) (hl : s.link = .device d) :
    raising (.deviceError code) (cancel s) = .next ((s.sent 0xF0 [code.byte]).madeSafe d) := by
  have hl' : (cancel s).link = .device d := (cancel_link s).trans hl
  unfold raising raise
  rw [hl']; dsimp only
  rw [deviceError_eq code hl', sent_cancel, madeSafe_cancel]

/-- Settles O22: `host_to_idle()` in one equation. -/
theorem returnToIdleServesTheDeferredRequest : Obligations.ReturnToIdleServesTheDeferredRequest :=
  hostToIdle_eq

end Sys2Proof.Machine
end

