-- ==== Sys2Proof/Proofs/ApplicationPort.lean ====
section
/-! PROOFS. The application's requests and the liveness tick, each as a whole step of the machine (spec/43_dispatch_core.md R185 to R189). Settles O43 to O47. -/

namespace Sys2Proof.Machine

/-! Requests (R185). -/

theorem sizeMismatch_iff (cfg : Cfg) (r : Request) :
    sizeMismatch cfg r = true ↔ ∃ img, r = .write img ∧ img.length ≠ memTypeSize cfg.hostTarget := by
  cases r <;> simp [sizeMismatch]

theorem reqBusy_iff (r : Request) (s : State) :
    reqBusy r s = true ↔ s.pendOp ≠ none ∨ (r.op = .write ∧ (s.curOp = some .read ∨ s.curOp = some .write)) := by
  simp [reqBusy, Option.isSome_iff_ne_none]

/-- Loading an image changes `xfer_buf` alone (R185). -/
theorem loadImage_eq (r : Request) (s : State) : loadImage r s = { s with xferBuf := (loadImage r s).xferBuf } := by
  cases r <;> rfl

/-- A write's image stands at the front of `xfer_buf`, and the rest of the buffer is as it was (R185). -/
theorem loadImage_lookup (img : List Byte) (s : State) (a : Nat) :
    (loadImage (.write img) s).xferBuf.lookup a = if a < img.length then img[a]? else s.xferBuf.lookup a := by
  simp [loadImage, Memory.lookup_writeBytes]

/-- Only a write loads `xfer_buf` (R185). -/
theorem loadImage_of_not_write {r : Request} (s : State) (h : r.op ≠ .write) :
    (loadImage r s).xferBuf = s.xferBuf := by
  cases r with
  | write img => exact absurd rfl h
  | read => rfl
  | ping => rfl

theorem hostReq_halted (r : Request) (s : State) : hostReq .halted r s = emit (.rejected r.op .halted) s := if_pos rfl

theorem hostReq_mismatch {h : HostState} {r : Request} {s : State} (hh : h ≠ .halted)
    (hm : sizeMismatch s.cfg r = true) : hostReq h r s = emit (.opFinished r.op .sizeMismatch) s := by
  rw [hostReq, if_neg hh, if_pos hm]

theorem hostReq_busy {h : HostState} {r : Request} {s : State} (hh : h ≠ .halted)
    (hm : sizeMismatch s.cfg r = false) (hb : reqBusy r s = true) :
    hostReq h r s = emit (.rejected r.op .busy) s := by
  rw [hostReq, if_neg hh, if_neg (by simp [hm]), if_pos hb]

theorem hostReq_taken {h : HostState} {r : Request} {s : State} (hh : h ≠ .halted)
    (hm : sizeMismatch s.cfg r = false) (hb : reqBusy r s = false) :
    hostReq h r s =
      if h = .idle then (loadImage r s).started r.op else { loadImage r s with pendOp := some r.op } := by
  rw [hostReq, if_neg hh, if_neg (by simp [hm]), if_neg (by simp [hb])]; dsimp only
  rw [hostStart_eq]

theorem req_host {s : State} {h : HostState} (r : Request) (hl : s.link = .host h) : req r s = hostReq h r s := by
  unfold req; rw [hl]

/-- A step that takes a request on a HOST (R14, R185). -/
theorem step_req {s : State} {r : Request} {rest : List Event} {h : HostState} (he : s.events = .req r :: rest)
    (hl : s.link = .host h) : step s = .next (hostReq h r { s with events := rest }) := by
  rw [step_event s _ rest he, ← req_host r (s := { s with events := rest }) hl]; rfl

/-- Settles O43: the four outcomes of `hostReq` in its order; the buffer is that of `loadImage`. -/
theorem requestsAreServedDeferredOrAnswered : Obligations.RequestsAreServedDeferredOrAnswered := by
  intro s r rest h he hl
  rw [step_req he hl]
  refine ⟨fun hh => ?_, fun hh => ⟨fun img hr hlen => ?_, fun hsize => ?_⟩⟩
  · rw [hh, hostReq_halted]; rfl
  · have hm : sizeMismatch ({ s with events := rest } : State).cfg r = true :=
      (sizeMismatch_iff _ r).2 ⟨img, hr, hlen⟩
    rw [hostReq_mismatch hh hm, hr]; rfl
  · have hm : sizeMismatch ({ s with events := rest } : State).cfg r = false := by
      rw [← Bool.not_eq_true, sizeMismatch_iff]
      exact fun ⟨img, hr, hlen⟩ => hlen (hsize img hr)
    have hbusy := reqBusy_iff r { s with events := rest }
    refine ⟨fun hb => ?_, fun hpend hfree => ?_⟩
    · rw [hostReq_busy hh hm (hbusy.2 hb)]; rfl
    · have hb : reqBusy r { s with events := rest } = false := by
        rw [← Bool.not_eq_true, hbusy]
        exact fun hb => hb.elim (fun hp => hp hpend) hfree
      refine ⟨(loadImage r { s with events := rest }).xferBuf, fun img hr a => ?_, loadImage_of_not_write _,
        fun hidle => ?_, fun hidle => ?_⟩
      · rw [hr]; exact loadImage_lookup img _ a
      · rw [hostReq_taken hh hm hb, if_neg hidle, loadImage_eq]
      · rw [hostReq_taken hh hm hb, if_pos hidle, loadImage_eq]

/-! Connecting and disconnecting (R186, R187). -/

/-- Settles O44: from `H_DISCONNECTED` the link is enabled and the handshake starts (`hostEnterDisconnected_enabled`). -/
theorem connectRequestSendsInit : Obligations.ConnectRequestSendsInit := by
  intro s rest h he hl
  rw [step_event s _ rest he]
  refine ⟨fun hh => ?_, fun hh => ?_⟩
  · subst hh
    simp only [handle, reqConnect, hl]
    rw [hostEnterDisconnected_enabled rfl, sent_eq, sent_eq]; rfl
  · simp only [handle, reqConnect]
    split
    · next hd => exact absurd (LinkState.host.inj (hl.symm.trans hd)) hh
    · rfl
    · rfl

/-- A teardown with the link disabled: the terminal notifications of the operation in flight and then of the deferred request, and everything that belongs to the session is cleared (R187, R178, R179). -/
theorem teardown_eq {s : State} (hen : s.linkEn = false) :
    hostEnterDisconnected (clearBuffers (hostAbortPending .disconnected (hostAbort .disconnected s))) =
      { s with
        appEv := s.appEv ++ finished s.curOp .disconnected ++ finished s.pendOp .disconnected
        curOp := none, pendOp := none, dec := s.dec.cleared, xferCnt := 0, blkLen := 0, retryCnt := 0
        connected := false, memtype := mtNone, link := .host .disconnected } := by
  rw [hostAbort_eq, hostAbortPending_eq]
  exact hostEnterDisconnected_disabled hen

/-- A step that takes a disconnect request on a HOST that is not halted (R14, R187). -/
theorem step_reqDisconnect {s : State} {rest : List Event} {h : HostState} (he : s.events = .reqDisconnect :: rest)
    (hl : s.link = .host h) (hh : h ≠ .halted) : step s = .next (hostDisconnect h { s with events := rest }) := by
  rw [step_event s _ rest he]
  cases h with
  | halted => exact absurd rfl hh
  | _ => simp only [handle, reqDisconnect, hl]

/-- Settles O45: the teardown, after a `CANCEL` and `DISCONNECT` from every state but `H_DISCONNECTED`. -/
theorem disconnectRequestTearsDown : Obligations.DisconnectRequestTearsDown := by
  intro s rest h he hl
  refine ⟨fun hh => ?_, fun hh hd => ?_, fun hd => ?_⟩
  · rw [step_event s _ rest he]
    simp only [handle, reqDisconnect, hl, hh]
  · rw [step_reqDisconnect he hl hh, hostDisconnect, if_neg hd, send_empty _ _ (plen_disconnect _), sent_cancel,
      teardown_eq (by simp), cancel_eq, sent_eq, sent_eq]
    rfl
  · rw [step_reqDisconnect he hl (by simp [hd]), hostDisconnect, if_pos hd, teardown_eq rfl]
    simp only [← hd, ← hl]; rfl

/-! The liveness tick (R188), and a DEVICE (R189). -/

/-- Settles O46: the two branches of `liveTick`; a HOST elsewhere than in `H_IDLE` and a DEVICE drop the tick. -/
theorem liveTickPingsFromIdleOnly : Obligations.LiveTickPingsFromIdleOnly := by
  intro s rest he
  rw [step_event s _ rest he]
  refine ⟨fun hl hcur hpend => ?_, fun hother => ?_⟩
  · simp only [handle, liveTick, hl]
    rw [if_pos ⟨hcur, hpend⟩, send_empty _ _ (plen_ping _), sent_eq, sent_eq]; rfl
  · simp only [handle, liveTick]
    split
    · next hl =>
      rw [if_neg]
      rintro ⟨hcur, hpend⟩
      rcases hother with h | h | h
      · exact h hl
      · exact h hcur
      · exact h hpend
    · rfl
    · rfl

/-- Settles O47: each of the four handlers leaves a DEVICE as it is. -/
theorem deviceHasNoApplicationPort : Obligations.DeviceHasNoApplicationPort := by
  intro s rest d e he hl hport
  rw [step_event s e rest he]
  rcases hport with ⟨r, rfl⟩ | rfl | rfl | rfl
  · simp only [handle, req, hl]
  · simp only [handle, reqConnect, hl]
  · simp only [handle, reqDisconnect, hl]
  · simp only [handle, liveTick, hl]

end Sys2Proof.Machine
end

