-- ==== Sys2Proof/Proofs/DeliveryOrder.lean ====
section
/-! PROOFS. What a delivered frame does before and without its command's own rule, and the one rule that two commands share (spec/43_dispatch_core.md R171 to R174, R191, R195, R196). Settles O26, O27 and O35. -/

namespace Sys2Proof.Machine

/-! Ignored frames, broken checksums (R171, R174). -/

/-- Settles O26: the first two cases of a delivery (`deliver_cases`). -/
theorem deliveryChecksInOrder : Obligations.DeliveryChecksInOrder := by
  intro i s
  rw [exec_eq_deliver]
  have hcases := deliver_cases i.opcode i.payload i.csum (Instr.rule i) s
  refine ⟨fun hl => ?_, fun hd hh hv => ?_⟩
  · have hi : s.ignoresFrames = true := by
      rw [← Bool.not_eq_false, ignoresFrames_eq_false]
      exact fun ⟨hd, hh⟩ => hl.elim hd hh
    rcases hcases with ⟨-, h⟩ | ⟨hn, -⟩ | ⟨hn, -⟩
    · exact h
    · simp [hi] at hn
    · simp [hi] at hn
  · have hi := (ignoresFrames_eq_false s).2 ⟨hd, hh⟩
    rcases hcases with ⟨hn, -⟩ | ⟨-, -, h⟩ | ⟨-, hn, -⟩
    · simp [hi] at hn
    · exact h
    · simp [hv] at hn

/-- A command that is neither ignored nor broken runs its own rule (R171). -/
theorem exec_accepted {i : Instr} {s : State} (hd : s.link ≠ .host .disconnected) (hh : s.link ≠ .host .halted)
    (hv : validate s.cfg i.opcode i.payload i.csum = true) :
    exec i s = Instr.rule i { s with lastRxCmd := i.opcode } := by
  rw [exec_eq_deliver, deliver_accepted _ _ _ _ _ hd hh hv]

/-! Unexpected commands (R173, R195, R196). -/

/-- Outside the cells of the transition tables every rule is the violation: in each branch of a rule either the table has a cell for the branch's link state, or the branch raises it (R173). -/
theorem rule_unaccepted {i : Instr} {s : State} (h : i.acceptedIn s.link = false) :
    Instr.rule i s = raising .protocolViolation s := by
  cases i
  case noneCmd | startxfer | endxfer | data | info => rfl
  all_goals dsimp only [Instr.rule]
  case init => unfold initRule; split <;> simp_all [Instr.acceptedIn]
  case ping => unfold pingRule; split <;> simp_all [Instr.acceptedIn]
  case memid => unfold memidRule; split <;> simp_all [Instr.acceptedIn]
  case disconnect => unfold disconnectRule; split <;> simp_all [Instr.acceptedIn]
  case ok => unfold okRule; split <;> simp_all [Instr.acceptedIn]
  case txrxAck => unfold txrxAckRule; split <;> simp_all [Instr.acceptedIn]
  case txrxDone => unfold txrxDoneRule; split <;> simp_all [Instr.acceptedIn]
  case err => unfold errRule; split <;> simp_all [Instr.acceptedIn]
  case txrxErr => unfold txrxErrRule; split <;> simp_all [Instr.acceptedIn]
  case readmem => unfold readmemRule; split <;> simp_all [Instr.acceptedIn]
  case readnext => unfold readnextRule; split <;> simp_all [Instr.acceptedIn]
  case memdata => unfold memdataRule; split <;> simp_all [Instr.acceptedIn]
  case writemem => unfold writememRule; split <;> simp_all [Instr.acceptedIn]

/-- Settles O27: a delivery that runs the rule, and the rule raises the violation. -/
theorem unexpectedCommandsAreViolations : Obligations.UnexpectedCommandsAreViolations := by
  intro i s hd hh hv ha
  rw [exec_accepted hd hh hv, rule_unaccepted (s := { s with lastRxCmd := i.opcode }) ha]
  rfl

/-! A DEVICE that serves a read (R191). -/

/-- The backend's answer depends on nothing that a delivery and `CANCEL` have written before the call, and the call changes nothing of it (R66). -/
theorem memRead_cancel {a n : Nat} {s t : State} (h : s.backend = t.backend) :
    memRead a n (cancel s) = ((memRead a n t).1, cancel { s with backend := (memRead a n t).2.backend }) := by
  obtain ⟨hread, hbackend⟩ := memRead_congr a n (cancel s) t ((cancel_backend s).trans h)
  refine Prod.ext hread ((memRead_state a n (cancel s)).trans ?_)
  rw [hbackend, cancel_eq, cancel_eq]
  rfl

/-- Beyond the end of the memory there is no block to send (R191). -/
theorem devSendBlock_atEnd {s : State} (h : memsize s.memtype ≤ s.xferCnt.toNat) :
    devSendBlock s = raising (.deviceError .memidx) s := if_pos h

/-- A backend error ends the read (R66, R191). -/
theorem devSendBlock_failed {s t : State} (h : s.xferCnt.toNat < memsize s.memtype)
    (hr : memRead s.xferCnt.toNat (memdataLen s.decCtx) s = (none, t)) :
    devSendBlock s = raising (.deviceError .readmem) t := by
  unfold devSendBlock
  rw [if_neg (Nat.not_le.2 h)]; dsimp only
  rw [hr]

/-- The bytes that the backend answers go out as one block, and the offset moves behind it (R191). -/
theorem devSendBlock_sent {s t : State} {r : List Byte} (h : s.xferCnt.toNat < memsize s.memtype)
    (hr : memRead s.xferCnt.toNat (memdataLen s.decCtx) s = (some r, t)) :
    devSendBlock s =
      .next { t.sent cmdMemdata r with
        xferCnt := BitVec.ofNat 16 (t.xferCnt.toNat + memdataLen t.decCtx)
        timerArmed := true, timerMs := tChunk, timerCmd := t.timerCmd ++ [.arm tChunk] } := by
  have hlen : r.length = memdataLen s.decCtx := memRead_length _ _ s r (by rw [hr])
  unfold devSendBlock
  rw [if_neg (Nat.not_le.2 h)]; dsimp only
  rw [hr]; dsimp only
  obtain ⟨b, rfl, -⟩ := memRead_cases hr
  rw [send_eq_sent _ _ { s with backend := b } hlen, sent_eq]
  rfl

/-- In `D_READ` the two commands that ask for the next block do the same (R231, R241). -/
theorem exec_nextBlock {i : Instr} {cs : U16} {s : State} (hi : i = .readnext cs ∨ i = .txrxAck cs)
    (hv : validate s.cfg i.opcode [] cs = true) (hl : s.link = .device .read) :
    exec i s = devSendBlock (cancel { s with lastRxCmd := i.opcode }) := by
  have hexec : exec i s = Instr.rule i { s with lastRxCmd := i.opcode } := by
    refine exec_accepted (by simp [hl]) (by simp [hl]) ?_
    rcases hi with rfl | rfl <;> exact hv
  rw [hexec]
  rcases hi with rfl | rfl
  · simp only [Instr.rule, readnextRule, hl]
  · simp only [Instr.rule, txrxAckRule, hl]

/-- Settles O35: the three outcomes of `devSendBlock`, after the delivery has recorded the command and cancelled the timer. -/
theorem deviceServesTheNextBlock : Obligations.DeviceServesTheNextBlock := by
  intro i cs s hi hv hl
  have hread := memRead_cancel (a := s.xferCnt.toNat) (n := memdataLen s.decCtx)
    (s := { s with lastRxCmd := i.opcode }) (t := s) rfl
  rw [exec_nextBlock hi hv hl]
  refine ⟨fun hend => ?_, fun hmore => ⟨fun hr => ?_, fun r hr => ?_⟩⟩
  · rw [devSendBlock_atEnd (by simpa using hend)]
    exact raising_deviceError_cancel .memidx (by exact hl)
  all_goals
    rw [hr] at hread
    have hmore' : (cancel { s with lastRxCmd := i.opcode }).xferCnt.toNat <
      memsize (cancel { s with lastRxCmd := i.opcode }).memtype := by simpa using hmore
  · rw [devSendBlock_failed hmore' (by rw [cancel_xferCnt, cancel_decCtx]; exact hread)]
    exact raising_deviceError_cancel .readmem (by exact hl)
  · rw [devSendBlock_sent hmore' (by rw [cancel_xferCnt, cancel_decCtx]; exact hread), sent_cancel, cancel_eq,
      cancel_eq, sent_eq, sent_eq]
    rfl

end Sys2Proof.Machine
end

