-- ==== Sys2Proof/Proofs/SecondFrame.lean ====
section
/-! PROOFS. The step that sends two frames: the last block of a read with a request deferred (spec/43_dispatch_core.md R172 against R180, R183 and R184, spec/46_cmd_transfer.md R242; log entry 10). Refutes O60. -/

namespace Sys2Proof.Machine

/-- The block that ends where the memory ends completes the read (R242). -/
theorem hostTakeBlock_last {P : List Byte} {s : State} (h : s.xferCnt.toNat + P.length = memsize s.memtype) :
    hostTakeBlock P s = .next (hostToIdle (send cmdTxrxDone [] ((cancel s).blockTaken P)).imageGiven) := by
  have hsize : memsize s.memtype ≤ 0x8000 := memsize_le s.memtype
  have hcnt : ((cancel s).blockTaken P).xferCnt.toNat = memsize s.memtype := by
    simp only [State.blockTaken, cancel_xferCnt, h, BitVec.toNat_ofNat]
    omega
  have htype : ((cancel s).blockTaken P).memtype = s.memtype := cancel_memtype s
  rw [hostTakeBlock_eq, if_neg (by rw [cancel_xferCnt, h]; exact Nat.not_lt.2 hsize),
    if_neg (by rw [hcnt, htype]; exact Nat.lt_irrefl _)]

/-- A buffer whose first `n` bytes are zero. -/
def zeros (n : Nat) : Memory := Memory.writeBytes [] 0 (List.replicate n 0x00)

theorem zeros_wf (n : Nat) : (zeros n).wf := Memory.writeBytes_wf _ _ _ List.Pairwise.nil

theorem zeros_below {n m : Nat} (h : n ≤ m) : (zeros n).below m :=
  Memory.writeBytes_below _ _ _ _ (fun _ hc => absurd hc List.not_mem_nil) (by simpa using h)

theorem zeros_written {n i : Nat} (h : i < n) : ((zeros n).lookup i).isSome := by
  rw [zeros, Memory.lookup_writeBytes]
  simp [h]

/-- A HOST that reads a 24LC16, with a ping deferred: seven of the eight blocks are in `xfer_buf`, and the frame of the eighth has been received up to its END byte, which is pending. -/
def lastBlockPingDeferred : State :=
  { State.resetOf Cfg.default .host with
    dec := ⟨.readEnd, cmdMemdata, true, 256, 0, zeros 256, 0⟩
    link := .host .waitReadmemData, linkEn := true, connected := true, memtype := memCode .t24LC16
    curOp := some .read, pendOp := some .ping, xferCnt := 0x700, xferBuf := zeros 0x700
    timerArmed := true, timerMs := tChunk, events := [.rxByte endByte] }

/-- The refuting state is a good one: it meets the invariant that every reachable state meets (R51). -/
theorem lastBlockPingDeferred_inv : lastBlockPingDeferred.Inv where
  cfg_wf := by decide
  decoder :=
    { len_le := by decide
      data_cnt := by decide
      csum_cnt := by decide
      known_cmd := fun _ => rfl
      len_cmd := fun _ => rfl
      data_written := fun h => by cases h
      all_written := fun _ _ hi => zeros_written hi }
  memory :=
    { rx_wf := zeros_wf 256
      rx_below := zeros_below (by decide)
      xfer_wf := zeros_wf 0x700
      xfer_below := zeros_below (by decide)
      backend_wf := fun _ h => by cases h }
  counters := { xfer_le := by decide, xfer_mult := by decide, retry_le := by decide, txq_le := by decide }
  dispatcher :=
    { memtype_eq := rfl
      enabled := rfl
      connected_eq := rfl
      cur_op := rfl
      pend_op := fun h => by rcases h with h | h <;> cases h
      timer := rfl
      progress := show (0x700 : U16).toNat < memsize (memCode .t24LC16) by decide
      read_written := fun _ _ hi => zeros_written hi
      write_written := fun h => by rcases h with h | h <;> cases h }

/-- TXRX_DONE and PING on the wire, one after the other. -/
def doneThenPing : List Byte := encodeAll Cfg.default [(cmdTxrxDone, []), (cmdPing, [])]

/-- Delivering the eighth block, whatever its bytes, sends both frames: the image is complete, and the return to idle serves the ping (R242, R180, R184). -/
theorem exec_lastBlock {P : List Byte} (hP : P.length = 256) :
    ∃ t, exec (.memdata P 0) { lastBlockPingDeferred with events := [], dec.rxState := .seekStart } = .next t ∧
      t.wireOut ++ t.txq = doneThenPing := by
  rw [exec_accepted (by decide) (by decide) rfl]
  refine ⟨_, hostTakeBlock_last ?_, rfl⟩
  rw [hP]
  rfl

/-- From a good state one step sends two frames. -/
theorem step_sends_two_frames :
    ∃ s t : State, s.Inv ∧ step s = .next t ∧ s.events.head? ≠ some .reset ∧ s.cfg = Cfg.default ∧
      s.wireOut ++ s.txq = [] ∧ t.wireOut ++ t.txq = doneThenPing := by
  obtain ⟨t, hexec, hout⟩ := exec_lastBlock
    (P := rxPayload lastBlockPingDeferred.decCtx lastBlockPingDeferred.dec) (Memory.readBytes_length _ _ _ _)
  have hstep := step_endByte lastBlockPingDeferred [] _ rfl rfl rfl (by decide) rfl
  exact ⟨_, t, lastBlockPingDeferred_inv, hstep.trans hexec, by decide, rfl, rfl, hout⟩

/-- No one frame of the table, in any context, is those ten bytes: its command would be TXRX_DONE, which has no payload (R98, R123). -/
theorem encodeFrame_ne_doneThenPing {s t : State} {f : Byte × List Byte} (hf : ofTable s t f) :
    encodeFrame Cfg.default f.1 f.2 ≠ doneThenPing := by
  intro heq
  have hcmd : f.1 = cmdTxrxDone := (List.cons.inj (List.cons.inj heq).2).1
  have hlen : 5 + f.2.length = 10 := (frameBytes_length _ _ _).symm.trans (congrArg List.length heq)
  obtain ⟨-, h | h⟩ := hf
  all_goals rw [hcmd, plen_txrxDone] at h; omega

/-- Refutes O60: the two frames of `step_sends_two_frames` are neither nothing nor one frame. -/
theorem not_everyStepSendsAtMostOneFrame : ¬ Obligations.EveryStepSendsAtMostOneFrame := by
  intro hone
  obtain ⟨s, t, -, hstep, hreset, hcfg, hbefore, hafter⟩ := step_sends_two_frames
  rcases hone s t hstep hreset with hnone | ⟨f, hf, hout⟩
  · rw [hafter, hbefore] at hnone
    exact absurd hnone (by decide)
  · rw [hafter, hbefore, hcfg, List.nil_append] at hout
    exact encodeFrame_ne_doneThenPing hf hout.symm

end Sys2Proof.Machine
end

