-- ==== Sys2Proof/Proofs/SessionCommands.lean ====
section
/-! PROOFS. The session commands where they are accepted: each rule as the effect that the statements write out, then its delivery (spec/44_cmd_session.md R220 to R223). Settles O29 to O32. -/

namespace Sys2Proof.Machine

/-- A `SEND` reads nothing of `last_rx_cmd`, which a delivery has recorded before the rule sends (R120, R171). -/
theorem sent_lastRxCmd_comm (s : State) (b c : Byte) (P : List Byte) :
    ({ s with lastRxCmd := b } : State).sent c P = { s.sent c P with lastRxCmd := b } := by
  rw [sent_eq, sent_eq]

/-- A DEVICE ignores no frame: a command with a valid checksum runs its rule (R171, R174). -/
theorem exec_device {i : Instr} {s : State} {d : DevState} (hl : s.link = .device d)
    (hv : validate s.cfg i.opcode i.payload i.csum = true) :
    exec i s = Instr.rule i { s with lastRxCmd := i.opcode } :=
  exec_accepted (by simp [hl]) (by simp [hl]) hv

/-! INIT (R220). -/

/-- A HOST that waits for INIT goes on with the handshake (R220). -/
theorem initRule_host {s : State} (hl : s.link = .host .init) :
    initRule s = .next { s.sent cmdMemid [memCode s.cfg.hostTarget] with
      connected := true, appEv := s.appEv ++ [.connected]
      timerArmed := true, timerMs := s.cfg.tMemid, timerCmd := s.timerCmd ++ s.cancelCall ++ [.arm s.cfg.tMemid]
      link := .host .memid } := by
  simp only [initRule, hl]
  rw [send_one _ _ _ (plen_memid _), cancel_eq, sent_eq, sent_eq]
  rfl

/-- A DEVICE drops whatever session it had, echoes INIT and waits for MEMID (R220). -/
theorem initRule_device {s : State} {d : DevState} (hl : s.link = .device d) :
    initRule s = .next { s.sent cmdInit [] with
      connected := true, memtype := mtNone, dec := s.dec.cleared, xferCnt := 0, blkLen := 0, retryCnt := 0
      timerArmed := true, timerMs := s.cfg.tInit, timerCmd := s.timerCmd ++ s.cancelCall ++ [.arm s.cfg.tInit]
      link := .device .waitMemid } := by
  simp only [initRule, hl]
  rw [send_empty _ _ (plen_init _), cancel_eq, sent_eq, sent_eq]
  rfl

/-- Settles O29: the two acceptances of INIT, `initRule_host` and `initRule_device`, delivered. -/
theorem initOpensTheHandshake : Obligations.InitOpensTheHandshake := by
  intro cs s hv
  refine ⟨fun hl => ?_, fun d hl => ?_⟩
  · rw [exec_accepted (i := .init cs) (by simp [hl]) (by simp [hl]) hv]
    refine (initRule_host (s := { s with lastRxCmd := cmdInit }) hl).trans ?_
    rw [sent_lastRxCmd_comm]
    rfl
  · rw [exec_device (i := .init cs) hl hv]
    refine (initRule_device (s := { s with lastRxCmd := cmdInit }) hl).trans ?_
    rw [sent_lastRxCmd_comm]
    rfl

/-! PING (R221). -/

/-- `D_PING` is entered and left in the step, so that only the answer is left of the rule (R221). -/
theorem pingRule_idle {s : State} (hl : s.link = .device .idle) : pingRule s = .next (s.sent cmdTxrxAck []) := by
  simp only [pingRule, hl]
  rw [send_empty _ _ (plen_txrxAck _), sent_eq, sent_eq, ← hl]

/-- Settles O30: `pingRule_idle`, delivered. -/
theorem pingIsAnsweredFromIdle : Obligations.PingIsAnsweredFromIdle := by
  intro cs s hv hl
  rw [exec_device (i := .ping cs) hl hv]
  refine (pingRule_idle (s := { s with lastRxCmd := cmdPing }) hl).trans ?_
  rw [sent_lastRxCmd_comm]
  rfl

/-! MEMID (R222). -/

/-- A code that names a memory type is the code of that type (R103). -/
theorem memCode_of_memOfCode {t : Byte} {m : MemType} (h : memOfCode t = some m) : memCode m = t := by
  unfold memOfCode at h
  split_ifs at h with h1 h2 h3
  all_goals cases h
  exacts [h1.symm, h2.symm, h3.symm]

/-- A DEVICE accepts the codes of the types in `DEV_SUPPORTED` and no others (R222). -/
theorem devSupports_iff (cfg : Cfg) (t : Byte) :
    devSupports cfg t = true ↔ ∃ m ∈ cfg.devSupported, memCode m = t := by
  refine ⟨fun h => ?_, ?_⟩
  · unfold devSupports at h
    split at h
    · next m hm => exact ⟨m, of_decide_eq_true h, memCode_of_memOfCode hm⟩
    · cases h
  · rintro ⟨m, hm, rfl⟩
    simp [devSupports, memOfCode_memCode, hm]

/-- A supported code becomes the session's memory type (R222). -/
theorem memidRule_supported {s : State} {t : Byte} (hl : s.link = .device .waitMemid)
    (ht : devSupports s.cfg t = true) :
    memidRule t s = .next { s.sent cmdOk [] with
      memtype := t, timerArmed := false, timerCmd := s.timerCmd ++ s.cancelCall, link := .device .idle } := by
  simp only [memidRule, hl, cancel_cfg, ht, if_true]
  rw [send_empty _ _ (plen_ok _), cancel_eq, sent_eq, sent_eq]

/-- Any other code is the device error MEMID, which leaves no session (R222, R269, R270). -/
theorem memidRule_unsupported {s : State} {t : Byte} (hl : s.link = .device .waitMemid)
    (ht : devSupports s.cfg t = false) :
    memidRule t s = .next { s.sent cmdErr [ErrorCode.memid.byte] with
      memtype := mtNone, connected := false, xferCnt := 0
      timerArmed := false, timerCmd := s.timerCmd ++ s.cancelCall, link := .device .disconnected } := by
  simp only [memidRule, hl, cancel_cfg, ht, Bool.false_eq_true, if_false]
  rw [raising_deviceError_cancel .memid hl, sent_eq, sent_eq]
  rfl

/-- Settles O31: `devSupports_iff` tells the rule's two branches apart. -/
theorem memidFixesTheMemoryType : Obligations.MemidFixesTheMemoryType := by
  intro t cs s hv hl
  rw [exec_device (i := .memid t cs) hl hv]
  refine ⟨fun m hm hcode => ?_, fun hnone => ?_⟩
  · refine (memidRule_supported (s := { s with lastRxCmd := cmdMemid }) hl ((devSupports_iff _ t).2 ⟨m, hm, hcode⟩)).trans ?_
    rw [sent_lastRxCmd_comm]
    rfl
  · have ht : devSupports s.cfg t = false := by
      rw [← Bool.not_eq_true, devSupports_iff]
      rintro ⟨m, hm, hcode⟩
      exact hnone m hm hcode
    refine (memidRule_unsupported (s := { s with lastRxCmd := cmdMemid }) hl ht).trans ?_
    rw [sent_lastRxCmd_comm]
    rfl

/-! DISCONNECT (R223). -/

/-- A DEVICE drops the session and sends nothing (R223). -/
theorem disconnectRule_device {s : State} {d : DevState} (hl : s.link = .device d) :
    disconnectRule s = .next { s with
      timerArmed := false, timerCmd := s.timerCmd ++ s.cancelCall
      dec := s.dec.cleared, xferCnt := 0, blkLen := 0, retryCnt := 0
      memtype := mtNone, connected := false, link := .device .disconnected } := by
  simp only [disconnectRule, hl]
  rw [cancel_eq]
  rfl

/-- Settles O32: `disconnectRule_device`, delivered. -/
theorem disconnectEndsTheSession : Obligations.DisconnectEndsTheSession := by
  intro cs s d hv hl
  rw [exec_device (i := .disconnect cs) hl hv]
  exact disconnectRule_device hl

end Sys2Proof.Machine
end

