-- ==== Sys2Proof/Proofs/ReplyCommands.lean ====
section
/-! PROOFS. The reply commands where they are accepted: each rule as the effect that the statements write out, then its delivery (spec/45_cmd_replies.md R230 to R234). Settles O33, O34 and O36 to O38. -/

namespace Sys2Proof.Machine

/-! The procedures of a HOST that the replies call. -/

/-- A block inside `xfer_buf` goes out after a `CANCEL` (R190, R281). -/
theorem hostSendBlock_cancel {s : State} (hfit : s.xferCnt.toNat + memdataLen s.decCtx ≤ xferBufSize) :
    hostSendBlock (cancel s) = .next s.blockSent := by
  unfold hostSendBlock State.blockSent; dsimp only
  rw [if_neg (by simpa using hfit), send_eq_sent, cancel_eq, sent_eq, sent_eq]
  · rfl
  · exact xferRead_length _ _ _

/-- A failed operation ends with its terminal notification, and the host is idle again (R263, R265). -/
theorem hostOpFail_eq (code : Byte) (s : State) :
    hostOpFail code s =
      ({ s with appEv := s.appEv ++ finished s.curOp (.err code), curOp := none } : State).idled := by
  rw [hostOpFail, hostAbort_eq, hostToIdle_eq]

/-- `host_reconnect(kind)` of an enabled host is the effect that the statements write out (R264). -/
theorem hostReconnect_enabled {s : State} (kind : Byte) (hen : s.linkEn = true) :
    hostReconnect kind s = s.reconnected kind := by
  unfold hostReconnect State.reconnected
  rw [hostAbort_eq, cancel_eq]
  refine (hostEnterDisconnected_enabled (by exact hen)).trans ?_
  rw [sent_eq, sent_eq]
  rfl

/-! OK (R230). -/

/-- The target's code is confirmed: the session has its memory type (R230). -/
theorem okRule_memid {s : State} (hl : s.link = .host .memid) :
    okRule s = .next ({ s with memtype := memCode s.cfg.hostTarget } : State).idled := by
  simp only [okRule, hl]
  rw [hostToIdle_eq]

/-- A read that is granted asks for its first block (R230). -/
theorem okRule_read {s : State} (hl : s.link = .host .waitReadmemOk) :
    okRule s = .next { s.sent cmdReadnext [] with
      timerArmed := true, timerMs := tChunk, timerCmd := s.timerCmd ++ s.cancelCall ++ [.arm tChunk]
      link := .host .waitReadmemData } := by
  simp only [okRule, hl]
  rw [send_empty _ _ (plen_readnext _), cancel_eq, sent_eq, sent_eq]
  rfl

/-- A write that is granted sends its first block (R230). -/
theorem okRule_write {s : State} (hl : s.link = .host .waitWritememOk)
    (hfit : s.xferCnt.toNat + memdataLen s.decCtx ≤ xferBufSize) : okRule s = .next s.blockSent := by
  simp only [okRule, hl]
  exact hostSendBlock_cancel hfit

/-- Settles O33: the three acceptances of OK, delivered. -/
theorem okMovesTheHostOn : Obligations.OkMovesTheHostOn := by
  intro cs s hv
  refine ⟨fun hl => ?_, fun hl => ?_, fun hl hfit => ?_⟩
  all_goals rw [exec_accepted (i := .ok cs) (by simp [hl]) (by simp [hl]) hv]
  · exact okRule_memid hl
  · refine (okRule_read (s := { s with lastRxCmd := cmdOk }) hl).trans ?_
    rw [sent_lastRxCmd_comm]
    rfl
  · exact okRule_write (s := { s with lastRxCmd := cmdOk }) hl hfit

/-! TXRX_ACK (R231). -/

/-- The answer to a ping that the application requested finishes the request (R231). -/
theorem txrxAckRule_requestedPing {s : State} (hl : s.link = .host .waitPing) (hop : s.curOp = some .ping) :
    txrxAckRule s = .next
      ({ s with appEv := s.appEv ++ [.pingOk, .opFinished .ping .ok], curOp := none } : State).idled := by
  simp only [txrxAckRule, hl, emit, hop, if_true]
  rw [hostAbort_eq, hostToIdle_eq]
  simp only [finished, List.append_assoc, List.cons_append, List.nil_append]

/-- The answer to a liveness ping finishes nothing (R231). -/
theorem txrxAckRule_livenessPing {s : State} (hl : s.link = .host .waitPing) (hop : s.curOp ≠ some .ping) :
    txrxAckRule s = .next ({ s with appEv := s.appEv ++ [.pingOk] } : State).idled := by
  simp only [txrxAckRule, hl, emit, hop, if_false]
  rw [hostToIdle_eq]

/-- An acknowledged block that is not the last is followed by the next one, which ends inside the memory and so inside `xfer_buf` (R100, R231). -/
theorem txrxAckRule_nextBlock {s : State} (hl : s.link = .host .waitWritememAck)
    (hmore : blockEnd s < memsize s.memtype) :
    txrxAckRule s = .next
      ({ s with xferCnt := BitVec.ofNat 16 (blockEnd s), retryCnt := 0 } : State).blockSent := by
  have hsize : memsize s.memtype ≤ xferBufSize := memsize_le s.memtype
  have hcnt : (BitVec.ofNat 16 (blockEnd s)).toNat = blockEnd s := by
    rw [BitVec.toNat_ofNat, Nat.mod_eq_of_lt (hmore.trans_le (hsize.trans (by decide)))]
  have hfit := memdataLen_fits
    ({ s with xferCnt := BitVec.ofNat 16 (blockEnd s), retryCnt := 0 } : State).decCtx (hcnt.trans_lt hmore)
  simp only [txrxAckRule, hl, if_pos hmore]
  rw [← hl, ← hostSendBlock_cancel (hfit.trans hsize), cancel_eq, cancel_eq]
  rfl

/-- Settles O34: the acceptances of TXRX_ACK on a HOST, delivered; the last block is concluded by TXRX_DONE alone. -/
theorem txrxAckMovesTheHostOn : Obligations.TxrxAckMovesTheHostOn := by
  intro cs s hv
  refine ⟨fun hl hop => ?_, fun hl hop => ?_, fun hl hmore => ?_, fun hl hlast => ?_⟩
  all_goals rw [exec_accepted (i := .txrxAck cs) (by simp [hl]) (by simp [hl]) hv]
  · exact txrxAckRule_requestedPing (s := { s with lastRxCmd := cmdTxrxAck }) hl hop
  · exact txrxAckRule_livenessPing (s := { s with lastRxCmd := cmdTxrxAck }) hl hop
  · exact txrxAckRule_nextBlock (s := { s with lastRxCmd := cmdTxrxAck }) hl hmore
  · simp only [Instr.rule, txrxAckRule, hl]
    exact if_neg (Nat.not_lt.2 hlast)

/-! TXRX_DONE (R232). -/

/-- The peer confirms the whole write after its last block (R232). -/
theorem txrxDoneRule_host {s : State} (hl : s.link = .host .waitWritememAck)
    (hlast : blockEnd s = memsize s.memtype) :
    txrxDoneRule s = .next ({ s with
      xferCnt := BitVec.ofNat 16 (memsize s.memtype), curOp := none
      appEv := s.appEv ++ [.writeConfirmed, .opFinished .write .ok] } : State).idled := by
  simp only [txrxDoneRule, hl, if_pos hlast, emit]
  rw [hostToIdle_eq, hlast, List.append_assoc]
  rfl

/-- The peer has the whole memory: the read is over, and nothing is sent (R232). -/
theorem txrxDoneRule_device {s : State} (hl : s.link = .device .read)
    (hend : s.xferCnt.toNat = memsize s.memtype) :
    txrxDoneRule s = .next { s with
      xferCnt := 0, timerArmed := false, timerCmd := s.timerCmd ++ s.cancelCall, link := .device .idle } := by
  simp only [txrxDoneRule, hl, if_pos hend]
  rw [cancel_eq]

/-- Settles O36: in both roles the rule's test of the offset decides between the conclusion and the violation. -/
theorem txrxDoneConcludesATransfer : Obligations.TxrxDoneConcludesATransfer := by
  intro cs s hv
  refine ⟨fun hl hlast => ?_, fun hl hmore => ?_, fun hl hend => ?_, fun hl hmore => ?_⟩
  all_goals rw [exec_accepted (i := .txrxDone cs) (by simp [hl]) (by simp [hl]) hv]
  · exact txrxDoneRule_host (s := { s with lastRxCmd := cmdTxrxDone }) hl hlast
  · simp only [Instr.rule, txrxDoneRule, hl]
    exact if_neg hmore
  · exact txrxDoneRule_device (s := { s with lastRxCmd := cmdTxrxDone }) hl hend
  · simp only [Instr.rule, txrxDoneRule, hl]
    exact if_neg hmore

/-! ERR (R233). -/

/-- In the four transfer states the operation in flight ends with the peer's code (R233). -/
theorem errRule_transfer {s : State} {h : HostState} (e : Byte) (hl : s.link = .host h)
    (hh : h ∈ ([.waitReadmemOk, .waitReadmemData, .waitWritememOk, .waitWritememAck] : List HostState)) :
    errRule e s = .next
      ({ s with appEv := s.appEv ++ finished s.curOp (.err e), curOp := none } : State).idled := by
  rw [← hostOpFail_eq]
  simp only [List.mem_cons, List.not_mem_nil, or_false] at hh
  rcases hh with rfl | rfl | rfl | rfl
  all_goals simp only [errRule, hl]

/-- A DEVICE makes itself safe whatever it was doing (R233). -/
theorem errRule_device {s : State} {d : DevState} (e : Byte) (hl : s.link = .device d) :
    errRule e s = .next (s.madeSafe d) := by
  simp only [errRule, hl]
  rw [devToSafe_eq hl]

/-- Settles O37: the peer's code halts a HOST that awaits the memory type, is reported by an idle one and ends a transfer (`errRule_transfer`); a DEVICE makes itself safe (`errRule_device`). -/
theorem errIsReportedOrEndsTheOperation : Obligations.ErrIsReportedOrEndsTheOperation := by
  intro e cs s hv
  refine ⟨fun hl => ?_, fun hl => ?_, fun h hl hh => ?_, fun d hl => ?_⟩
  · rw [exec_accepted (i := .err e cs) (by simp [hl]) (by simp [hl]) hv]
    simp only [Instr.rule, errRule, hl]
    rw [hostHalt_eq]
    rfl
  · rw [exec_accepted (i := .err e cs) (by simp [hl]) (by simp [hl]) hv]
    simp only [Instr.rule, errRule, hl]
    rfl
  · obtain ⟨hd, hn⟩ : h ≠ .disconnected ∧ h ≠ .halted := by constructor <;> rintro rfl <;> simp at hh
    rw [exec_accepted (i := .err e cs) (by simp [hl, hd]) (by simp [hl, hn]) hv]
    exact errRule_transfer (s := { s with lastRxCmd := cmdErr }) e hl hh
  · rw [exec_device (i := .err e cs) hl hv]
    exact errRule_device (s := { s with lastRxCmd := cmdErr }) e hl

/-! TXRX_ERR (R234). -/

/-- Below the ceiling the retry is counted and the outstanding block is sent again (R234). -/
theorem txrxErrRule_retry {s : State} (hl : s.link = .host .waitWritememAck)
    (hretry : s.retryCnt.toNat < s.cfg.maxRetry)
    (hfit : s.xferCnt.toNat + memdataLen s.decCtx ≤ xferBufSize) :
    txrxErrRule s = .next ({ s with retryCnt := s.retryCnt + 1 } : State).blockSent := by
  simp only [txrxErrRule, hl, if_pos hretry]
  rw [← hl]
  exact hostSendBlock_cancel (s := { s with retryCnt := s.retryCnt + 1 }) hfit

/-- At the ceiling the retries are exhausted, and an enabled host reconnects (R234, R272). -/
theorem txrxErrRule_exhausted {s : State} (hl : s.link = .host .waitWritememAck)
    (hceil : s.cfg.maxRetry ≤ s.retryCnt.toNat) (hen : s.linkEn = true) :
    txrxErrRule s = .next (s.reconnected ErrorCode.maxRetry.byte) := by
  simp only [txrxErrRule, hl, if_neg (Nat.not_lt.2 hceil), raising, raise]
  rw [hostReconnect_enabled _ hen]

/-- Settles O38: the two branches of the rule, delivered. -/
theorem txrxErrResendsUpToTheCeiling : Obligations.TxrxErrResendsUpToTheCeiling := by
  intro cs s hv hl
  rw [exec_accepted (i := .txrxErr cs) (by simp [hl]) (by simp [hl]) hv]
  exact ⟨txrxErrRule_retry (s := { s with lastRxCmd := cmdTxrxErr }) hl,
    txrxErrRule_exhausted (s := { s with lastRxCmd := cmdTxrxErr }) hl⟩

end Sys2Proof.Machine
end

