-- ==== Sys2Proof/Proofs/TransferCommands.lean ====
section
/-! PROOFS. The transfer commands where they are accepted: how a DEVICE begins a transfer, what a HOST does with a received block, and how a DEVICE writes, verifies and acknowledges one (spec/46_cmd_transfer.md R240, R242, R243). Settles O39 to O41. -/

namespace Sys2Proof.Machine

/-! READMEM and WRITEMEM (R240, R243). -/

/-- An exception with which a DEVICE refuses reports the code and makes the device safe (R262, R269, R270). -/
theorem raising_deviceError {s : State} {d : DevState} (code : ErrorCode) (hl : s.link = .device d) :
    raising (.deviceError code) s = .next ((s.sent cmdErr [code.byte]).madeSafe d) := by
  simp only [raising, raise, hl]
  rw [deviceError_eq code hl]
  rfl

/-- The session's type is granted, and the transfer begins at offset 0 (R240, R243). -/
theorem devBegin_sessionType (d : DevState) (s : State) :
    devBegin s.memtype d s = .next { s.sent cmdOk [] with
      xferCnt := 0, timerArmed := true, timerMs := tChunk, timerCmd := s.timerCmd ++ [.arm tChunk]
      link := .device d } := by
  unfold devBegin
  rw [if_pos rfl, send_empty _ _ (plen_ok _), sent_eq, sent_eq]
  rfl

/-- Any other type is the device error MEMID (R240, R243). -/
theorem devBegin_otherType {t : Byte} {s : State} (d : DevState) {d' : DevState} (hl : s.link = .device d')
    (ht : t ≠ s.memtype) : devBegin t d s = .next ((s.sent cmdErr [ErrorCode.memid.byte]).madeSafe d') := by
  unfold devBegin
  rw [if_neg ht, raising_deviceError .memid hl]

/-- In `D_IDLE` READMEM begins a read (R240). -/
theorem exec_readmem_idle {t : Byte} {cs : U16} {s : State} (hl : s.link = .device .idle)
    (hv : validate s.cfg cmdReadmem [t] cs = true) :
    exec (.readmem t cs) s = devBegin t .read { s with lastRxCmd := cmdReadmem } := by
  rw [exec_device (i := .readmem t cs) hl hv]
  simp only [Instr.rule, readmemRule, hl]
  rfl

/-- In `D_IDLE` WRITEMEM begins a write (R243). -/
theorem exec_writemem_idle {t : Byte} {cs : U16} {s : State} (hl : s.link = .device .idle)
    (hv : validate s.cfg cmdWritemem [t] cs = true) :
    exec (.writemem t cs) s = devBegin t .write { s with lastRxCmd := cmdWritemem } := by
  rw [exec_device (i := .writemem t cs) hl hv]
  simp only [Instr.rule, writememRule, hl]
  rfl

/-- Settles O39: both commands are `devBegin`, which tells the session's type from any other. -/
theorem readmemAndWritememBeginATransfer : Obligations.ReadmemAndWritememBeginATransfer := by
  intro t cs s hl
  refine ⟨fun hv => ?_, fun hv => ?_⟩
  · rw [exec_readmem_idle hl hv]
    refine ⟨?_, devBegin_otherType (s := { s with lastRxCmd := cmdReadmem }) .read hl⟩
    rintro rfl
    refine (devBegin_sessionType .read { s with lastRxCmd := cmdReadmem }).trans ?_
    rw [sent_lastRxCmd_comm]
    rfl
  · rw [exec_writemem_idle hl hv]
    refine ⟨?_, devBegin_otherType (s := { s with lastRxCmd := cmdWritemem }) .write hl⟩
    rintro rfl
    refine (devBegin_sessionType .write { s with lastRxCmd := cmdWritemem }).trans ?_
    rw [sent_lastRxCmd_comm]
    rfl

/-! MEMDATA on a HOST that reads (R242). -/

theorem memdataRule_host {P : List Byte} {s : State} (hl : s.link = .host .waitReadmemData) :
    memdataRule P s = hostTakeBlock P s := by
  unfold memdataRule
  rw [hl]

/-- A second `CANCEL` before the return to idle adds nothing (R180, R281). -/
theorem idled_cancel (s : State) : (cancel s).idled = s.idled := by
  rw [cancel_eq]
  unfold State.idled
  simp [State.cancelCall]

/-- The offset behind a block that lies inside `xfer_buf` does not wrap (R63). -/
theorem blockTaken_xferCnt {P : List Byte} {s : State} (hfit : s.xferCnt.toNat + P.length ≤ xferBufSize) :
    (s.blockTaken P).xferCnt.toNat = s.xferCnt.toNat + P.length :=
  Nat.mod_eq_of_lt (hfit.trans_lt (by decide))

/-- Taking a block neither reads nor writes what `CANCEL` does (R242, R281). -/
theorem blockTaken_cancel (P : List Byte) (s : State) : (cancel s).blockTaken P = cancel (s.blockTaken P) := by
  rw [cancel_eq, cancel_eq]
  rfl

/-- Handing the image over neither reads nor writes what `CANCEL` does (R242, R281). -/
theorem imageGiven_cancel (s : State) : (cancel s).imageGiven = cancel s.imageGiven := by
  rw [cancel_eq, cancel_eq]
  rfl

/-- The image is what stands at the front of `xfer_buf`, and the end of the read follows it (R242). -/
theorem imageGiven_eq (s : State) :
    s.imageGiven = { s with
      curOp := none
      appEv := s.appEv ++
        [.memReceived ((List.range' 0 (memsize s.memtype)).map (s.xferBuf.readByte (Config.xferBufByte s.resets))),
          .opFinished .read .ok] } := by
  simp only [State.imageGiven, emit, xferRead, Memory.readBytes_eq_map, List.append_assoc, List.cons_append,
    List.nil_append]

/-- A block before the end of the memory is acknowledged, and the next one awaited (R242). -/
theorem hostTakeBlock_more {P : List Byte} {s : State} (hfit : s.xferCnt.toNat + P.length ≤ xferBufSize)
    (hmore : s.xferCnt.toNat + P.length < memsize s.memtype) :
    hostTakeBlock P s = .next { (s.blockTaken P).sent cmdTxrxAck [] with
      timerArmed := true, timerMs := tChunk, timerCmd := s.timerCmd ++ s.cancelCall ++ [.arm tChunk] } := by
  rw [hostTakeBlock_eq, cancel_xferCnt, if_neg (Nat.not_lt.2 hfit), blockTaken_cancel, cancel_xferCnt,
    blockTaken_xferCnt hfit, cancel_memtype]
  rw [if_pos (show _ < memsize (s.blockTaken P).memtype from hmore), send_empty _ _ (plen_txrxAck _), sent_cancel,
    cancel_eq, sent_eq]
  rfl

/-- The block that reaches the end of the memory completes the image, and the host is idle again (R242). -/
theorem hostTakeBlock_end {P : List Byte} {s : State} (hfit : s.xferCnt.toNat + P.length ≤ xferBufSize)
    (hend : memsize s.memtype ≤ s.xferCnt.toNat + P.length) :
    hostTakeBlock P s = .next ((s.blockTaken P).sent cmdTxrxDone []).imageGiven.idled := by
  rw [hostTakeBlock_eq, cancel_xferCnt, if_neg (Nat.not_lt.2 hfit), blockTaken_cancel, cancel_xferCnt,
    blockTaken_xferCnt hfit, cancel_memtype]
  rw [if_neg (show ¬ _ < memsize (s.blockTaken P).memtype from Nat.not_lt.2 hend), send_empty _ _ (plen_txrxDone _),
    sent_cancel, imageGiven_cancel, hostToIdle_eq, idled_cancel]

/-- Settles O40: the buffer is `xfer_buf` with the payload written at `xfer_cnt`, and `hostTakeBlock` tells the end of the memory from what comes before it. -/
theorem hostCollectsABlock : Obligations.HostCollectsABlock := by
  intro P cs s hv hl hfit
  refine ⟨s.xferBuf.writeBytes s.xferCnt.toNat P, Memory.lookup_writeBytes _ _ _, fun hmore => ?_, fun hend => ?_⟩
  all_goals
    rw [exec_accepted (i := .memdata P cs) (by simp [hl]) (by simp [hl]) hv]
    refine (memdataRule_host (s := { s with lastRxCmd := cmdMemdata }) hl).trans ?_
  · refine (hostTakeBlock_more (s := { s with lastRxCmd := cmdMemdata }) hfit hmore).trans ?_
    rw [sent_eq, sent_eq]
    rfl
  · refine (hostTakeBlock_end (s := { s with lastRxCmd := cmdMemdata }) hfit hend).trans ?_
    rw [imageGiven_eq, sent_eq, sent_eq]
    rfl

/-! MEMDATA on a DEVICE that writes (R242). -/

/-- The backend's answer to a write depends on nothing that a delivery and `CANCEL` have written before the call, and the call changes nothing of it (R67). -/
theorem memWrite_cancel {a : Nat} {v : List Byte} {s t : State} (h : s.backend = t.backend) :
    memWrite a v (cancel s) = ((memWrite a v t).1, cancel { s with backend := (memWrite a v t).2.backend }) := by
  obtain ⟨hok, hbackend⟩ := memWrite_congr a v (cancel s) t ((cancel_backend s).trans h)
  refine Prod.ext hok ((memWrite_state a v (cancel s)).trans ?_)
  rw [hbackend, cancel_eq, cancel_eq]
  rfl

/-- With nothing left to write the block is refused (R242). -/
theorem devTakeBlock_atEnd {P : List Byte} {s : State} (h : memsize s.memtype ≤ s.xferCnt.toNat) :
    devTakeBlock P s = raising (.deviceError .memidx) (cancel s) := by
  unfold devTakeBlock
  exact if_pos (by simpa using h)

/-- The block at `xfer_cnt` is one with which the backend may be called (R66). -/
structure State.blockInside (s : State) (P : List Byte) : Prop where
  nonempty : 1 ≤ P.length
  length_le : P.length ≤ 256
  fits : s.xferCnt.toNat + P.length ≤ memsize s.memtype

theorem State.blockInside.backendInRange {s : State} {P : List Byte} (h : s.blockInside P) :
    backendInRange s.xferCnt.toNat P.length (memsize s.memtype) = true := by
  obtain ⟨h1, h256, hfits⟩ := h
  simp [Machine.backendInRange, h1, h256, hfits]

theorem State.blockInside.not_atEnd {s : State} {P : List Byte} (h : s.blockInside P) :
    ¬ memsize s.memtype ≤ s.xferCnt.toNat := by
  obtain ⟨h1, -, hfits⟩ := h
  omega

/-- A failed write ends the transfer without a read (R67, R242). -/
theorem devTakeBlock_writeFailed {P : List Byte} {s t : State} (hin : s.blockInside P)
    (hw : memWrite s.xferCnt.toNat P (cancel s) = (false, t)) :
    devTakeBlock P s = raising (.deviceError .writemem) t := by
  unfold devTakeBlock
  simp only [cancel_memtype, cancel_xferCnt, if_neg hin.not_atEnd, hin.backendInRange, if_true]
  rw [hw]

/-- A block that was written is acknowledged if the readback is exactly the payload, else the transfer ends (R242). -/
theorem devTakeBlock_written {P : List Byte} {s t u : State} {r : Option (List Byte)} (hin : s.blockInside P)
    (hw : memWrite s.xferCnt.toNat P (cancel s) = (true, t)) (hr : memRead s.xferCnt.toNat P.length t = (r, u)) :
    devTakeBlock P s = if r = some P then devBlockDone P.length u else raising (.deviceError .writemem) u := by
  have hoff : t.xferCnt = s.xferCnt := by
    obtain ⟨b, rfl, -⟩ := memWrite_cases hw
    exact cancel_xferCnt s
  unfold devTakeBlock
  simp only [cancel_memtype, cancel_xferCnt, if_neg hin.not_atEnd, hin.backendInRange, if_true]
  rw [hw]; dsimp only
  rw [hoff, hr]
  cases r with
  | none => rfl
  | some v => simp only [Option.some.injEq]

/-- A verified block before the end of the memory is acknowledged, and the next one awaited (R242). -/
theorem devBlockDone_more {n : Nat} {s : State} (hsum : s.xferCnt.toNat + n < memsize s.memtype) :
    devBlockDone n s = .next { s.sent cmdTxrxAck [] with
      xferCnt := BitVec.ofNat 16 (s.xferCnt.toNat + n)
      timerArmed := true, timerMs := tChunk, timerCmd := s.timerCmd ++ [.arm tChunk] } := by
  have hcnt : (BitVec.ofNat 16 (s.xferCnt.toNat + n)).toNat < memsize s.memtype :=
    (Nat.mod_le _ _).trans_lt hsum
  unfold devBlockDone; dsimp only
  rw [if_pos hcnt, send_empty _ _ (plen_txrxAck _), sent_eq, sent_eq]
  rfl

/-- The verified block that ends where the memory ends concludes the write (R242). -/
theorem devBlockDone_last {n : Nat} {s : State} (hsum : s.xferCnt.toNat + n = memsize s.memtype) :
    devBlockDone n s = .next { s.sent cmdTxrxDone [] with xferCnt := 0, link := .device .idle } := by
  have hsize : memsize s.memtype ≤ 0x8000 := memsize_le s.memtype
  have hcnt : (BitVec.ofNat 16 (s.xferCnt.toNat + n)).toNat = memsize s.memtype := by
    rw [BitVec.toNat_ofNat]
    omega
  unfold devBlockDone; dsimp only
  rw [if_neg (by rw [hcnt]; exact Nat.lt_irrefl _), send_empty _ _ (plen_txrxDone _), sent_eq, sent_eq]

/-- In `D_WRITE` MEMDATA runs `devTakeBlock` (R242). -/
theorem exec_memdata_write {P : List Byte} {cs : U16} {s : State} (hl : s.link = .device .write)
    (hv : validate s.cfg cmdMemdata P cs = true) :
    exec (.memdata P cs) s = devTakeBlock P { s with lastRxCmd := cmdMemdata } := by
  rw [exec_device (i := .memdata P cs) hl hv]
  simp only [Instr.rule, memdataRule, hl]
  rfl

/-- Settles O41: the outcomes of `devTakeBlock`, with the backend's answers as they are before the delivery and the `CANCEL`. -/
theorem deviceWritesVerifiesAcknowledges : Obligations.DeviceWritesVerifiesAcknowledges := by
  intro P cs s hv hl
  rw [exec_memdata_write hl hv]
  refine ⟨fun hend => ?_, fun h1 h256 hfits => ?_⟩
  · rw [devTakeBlock_atEnd (s := { s with lastRxCmd := cmdMemdata }) hend]
    exact raising_deviceError_cancel .memidx hl
  have hin : ({ s with lastRxCmd := cmdMemdata } : State).blockInside P := ⟨h1, h256, hfits⟩
  have hwrite := memWrite_cancel (a := s.xferCnt.toNat) (v := P) (s := { s with lastRxCmd := cmdMemdata }) (t := s) rfl
  refine ⟨fun hw => ?_, fun w hw => ?_⟩
  · rw [hw] at hwrite
    rw [devTakeBlock_writeFailed hin hwrite]
    exact raising_deviceError_cancel .writemem hl
  · rw [hw] at hwrite
    have hread := memRead_cancel (a := s.xferCnt.toNat) (n := P.length)
      (s := { s with lastRxCmd := cmdMemdata, backend := w.backend }) (t := w) rfl
    rw [devTakeBlock_written hin hwrite hread]
    refine ⟨fun hdiffers => ?_, fun hsame => ?_⟩
    · rw [if_neg hdiffers]
      exact raising_deviceError_cancel .writemem hl
    · rw [if_pos hsame]
      refine ⟨fun hmore => ?_, fun hlast => ?_⟩
      · rw [devBlockDone_more (by simpa using hmore), sent_cancel, cancel_eq, cancel_eq, sent_eq, sent_eq]
        rfl
      · rw [devBlockDone_last (by simpa using hlast), sent_cancel, cancel_eq, sent_eq, sent_eq]
        rfl

end Sys2Proof.Machine
end

