-- ==== Sys2Proof/Proofs/ReceivedImages.lean ====
section
/-! PROOFS. Only the last block of a read hands an image to the application, and the image is whole (spec/43_dispatch_core.md R176, spec/46_cmd_transfer.md R242). Settles O53. -/

namespace Sys2Proof.Machine

/-- Whether an event hands an image over. -/
@[simp] def AppEvent.isImage : AppEvent → Bool
  | .memReceived _ => true
  | .connected => false
  | .reconnect _ => false
  | .pingOk => false
  | .writeConfirmed => false
  | .peerError _ => false
  | .opFinished _ _ => false
  | .fatal _ => false
  | .rejected _ _ => false

/-- The images handed to the application since the last reset. -/
def State.images (s : State) : List AppEvent := s.appEv.filter AppEvent.isImage

theorem images_of_appEv {s t : State} (h : t.appEv = s.appEv) : t.images = s.images :=
  congrArg (List.filter AppEvent.isImage) h

@[simp] theorem emit_images (ev : AppEvent) (s : State) :
    (emit ev s).images = s.images ++ [ev].filter AppEvent.isImage := List.filter_append _ _

@[simp] theorem finished_images (op : Option OpKind) (res : OpResult) :
    (finished op res).filter AppEvent.isImage = [] := by
  cases op <;> rfl

/-! The procedures of a HOST, and the exceptions. -/

@[simp] theorem hostStart_appEv (op : OpKind) (s : State) : (hostStart op s).appEv = s.appEv := by
  cases op <;> simp [hostStart]

@[simp] theorem hostService_appEv (s : State) : (hostService s).appEv = s.appEv := by
  rcases hostService_cases s with ⟨-, h⟩ | ⟨op, -, h⟩ <;> simp [h]

@[simp] theorem hostToIdle_appEv (s : State) : (hostToIdle s).appEv = s.appEv := by simp [hostToIdle]

@[simp] theorem hostEnterDisconnected_appEv (s : State) : (hostEnterDisconnected s).appEv = s.appEv := by
  unfold hostEnterDisconnected; dsimp only
  split <;> simp

/-- A terminal notification is no image (R263). -/
theorem hostAbort_images (res : OpResult) (s : State) : (hostAbort res s).images = s.images := by
  rw [hostAbort_eq]
  simp [State.images]

theorem hostAbortPending_images (res : OpResult) (s : State) : (hostAbortPending res s).images = s.images := by
  rw [hostAbortPending_eq]
  simp [State.images]

theorem hostReconnect_images (kind : Byte) (s : State) : (hostReconnect kind s).images = s.images := by
  unfold hostReconnect
  rw [images_of_appEv (hostEnterDisconnected_appEv _), emit_images, images_of_appEv (clearBuffers_appEv _),
    hostAbort_images, images_of_appEv (cancel_appEv s)]
  exact List.append_nil _

theorem hostHalt_images (kind : Byte) (s : State) : (hostHalt kind s).images = s.images := by
  rw [hostHalt_eq]
  simp [State.images, State.haltedBy]

theorem hostOpFail_images (code : Byte) (s : State) : (hostOpFail code s).images = s.images :=
  (images_of_appEv (hostToIdle_appEv _)).trans (hostAbort_images _ s)

theorem hostTimeout_images (h : HostState) (s : State) : (hostTimeout h s).images = s.images := by
  unfold hostTimeout
  split
  case h_2 => exact hostHalt_images _ s
  case h_8 | h_9 | h_10 => rfl
  all_goals exact hostReconnect_images _ s

/-- No handler of an exception hands an image over (R262). -/
theorem raise_images (x : Exn) (s : State) : (raise x s).images = s.images := by
  cases hl : s.link with
  | device d => exact images_of_appEv (raise_devQuiet x hl).appEv
  | host h =>
    unfold raise
    rw [hl]
    cases x with
    | protocolViolation => exact hostReconnect_images _ s
    | checksumFailure => exact hostReconnect_images _ s
    | timeout => exact hostTimeout_images h s
    | retryExceeded => exact hostReconnect_images _ s
    | deviceError code => rfl

theorem raising_images (x : Exn) (s : State) : answers (raising x s) fun t => t.images = s.images :=
  (answers_raising _ _ _).2 (raise_images x s)

theorem hostSendBlock_appEv (s : State) : answers (hostSendBlock s) fun t => t.appEv = s.appEv := by
  unfold hostSendBlock; dsimp only
  split
  · exact answers_fault _ _
  · exact (answers_next _ _).2 (by simp)

/-- A HOST sends a block after writing registers that are no notification (R190). -/
theorem hostSendBlock_images {s u : State} (h : u.appEv = s.appEv) :
    answers (hostSendBlock u) fun t => t.images = s.images :=
  fun t ht => images_of_appEv ((hostSendBlock_appEv u t ht).trans h)

/-! The rules that are accepted on a HOST and hand no image over; on a DEVICE no rule notifies (R20). -/

theorem rule_images_device (i : Instr) {s : State} {d : DevState} (hl : s.link = .device d) :
    answers (Instr.rule i s) fun t => t.images = s.images :=
  fun t ht => images_of_appEv ((rule_kept i s t ht).2 d hl).appEv

theorem next_images {s t : State} (h : t.images = s.images) : answers (.next t) fun t => t.images = s.images :=
  (answers_next _ _).2 h

theorem initRule_images (s : State) : answers (initRule s) fun t => t.images = s.images := by
  unfold initRule; dsimp only
  split
  · exact next_images (by simp [State.images])
  · exact raising_images _ s
  · exact next_images (images_of_appEv (by simp))

theorem okRule_images (s : State) : answers (okRule s) fun t => t.images = s.images := by
  unfold okRule
  split
  · exact next_images (images_of_appEv (hostToIdle_appEv _))
  · exact next_images (images_of_appEv (by simp))
  · exact hostSendBlock_images (cancel_appEv s)
  · exact raising_images _ s
  · exact raising_images _ s

theorem txrxAckRule_images {s : State} {h : HostState} (hl : s.link = .host h) :
    answers (txrxAckRule s) fun t => t.images = s.images := by
  unfold txrxAckRule; dsimp only
  split
  · refine next_images ((images_of_appEv (hostToIdle_appEv _)).trans ?_)
    split
    · exact (hostAbort_images _ _).trans (by simp)
    · simp
  · split
    · exact hostSendBlock_images (by simp)
    · exact raising_images _ s
  · next hd => rw [hl] at hd; cases hd
  · exact raising_images _ s
  · exact raising_images _ s

theorem txrxDoneRule_images (s : State) : answers (txrxDoneRule s) fun t => t.images = s.images := by
  unfold txrxDoneRule; dsimp only
  split
  · split
    · exact next_images ((images_of_appEv (hostToIdle_appEv _)).trans (by simp [State.images]))
    · exact raising_images _ s
  · split
    · exact next_images (images_of_appEv (by simp))
    · exact raising_images _ s
  · exact raising_images _ s
  · exact raising_images _ s

theorem errRule_images {e : Byte} {s : State} {h : HostState} (hl : s.link = .host h) :
    answers (errRule e s) fun t => t.images = s.images := by
  unfold errRule
  split
  case h_1 => exact next_images (hostHalt_images e s)
  case h_2 => exact next_images (by simp)
  case h_3 | h_4 | h_5 | h_6 => exact next_images (hostOpFail_images e s)
  case h_7 => exact raising_images _ s
  case h_8 hd => rw [hl] at hd; cases hd

theorem txrxErrRule_images (s : State) : answers (txrxErrRule s) fun t => t.images = s.images := by
  unfold txrxErrRule
  split
  · split
    · exact hostSendBlock_images (cancel_appEv _)
    · exact raising_images _ s
  · exact raising_images _ s
  · exact raising_images _ s

/-! The rule that hands the image over. -/

/-- From `s` to `t` a HOST that awaits a block of a read takes one of `n` bytes, which reaches the end of the memory, and hands over an image of the memory's size (R242). -/
def State.completesImage (s t : State) (n : Nat) : Prop :=
  s.link = .host .waitReadmemData ∧ memsize s.memtype ≤ s.xferCnt.toNat + n ∧
    ∃ img, img.length = memsize s.memtype ∧ t.images = s.images ++ [.memReceived img]

/-- The images of `s`, and one more at most, which the `n` bytes of a block complete. -/
def State.collects (s : State) (n : Nat) (t : State) : Prop := t.images = s.images ∨ s.completesImage t n

theorem collects_answers_of_same {s : State} {r : Result} (n : Nat) (h : answers r fun t => t.images = s.images) :
    answers r (s.collects n) := fun t ht => .inl (h t ht)

/-- The image that a HOST hands over has the memory's size (R242). -/
theorem imageGiven_images (s : State) :
    ∃ img, img.length = memsize s.memtype ∧ s.imageGiven.images = s.images ++ [.memReceived img] :=
  ⟨xferRead s 0 (memsize s.memtype), xferRead_length _ _ _, by
    simp only [State.imageGiven, State.images, emit, List.filter_append, List.append_assoc]
    rfl⟩

theorem hostTakeBlock_images (P : List Byte) {s : State} (hl : s.link = .host .waitReadmemData) :
    answers (hostTakeBlock P s) (s.collects P.length) := by
  by_cases hfit : s.xferCnt.toNat + P.length ≤ xferBufSize
  · by_cases hmore : s.xferCnt.toNat + P.length < memsize s.memtype
    · rw [hostTakeBlock_more hfit hmore]
      exact collects_answers_of_same _ (next_images (images_of_appEv (sent_appEv _ _ _)))
    · have hend := Nat.not_lt.1 hmore
      obtain ⟨img, hsize, himages⟩ := imageGiven_images ((s.blockTaken P).sent cmdTxrxDone [])
      rw [hostTakeBlock_end hfit hend, ← hostToIdle_eq]
      refine (answers_next _ _).2 (.inr ⟨hl, hend, img, hsize.trans ?_, ?_⟩)
      · rw [sent_memtype]; rfl
      · rw [images_of_appEv (hostToIdle_appEv _), himages, images_of_appEv (sent_appEv _ _ _)]; rfl
  · rw [hostTakeBlock_outside (Nat.not_le.1 hfit)]
    exact answers_fault _ _

/-! Commands, events, steps. -/

/-- On a HOST a rule hands over at most the image that its payload completes: every rule but `MEMDATA`'s hands none over, and those without a cell in the table are violations (R195). -/
theorem rule_images_host (i : Instr) {s : State} {h : HostState} (hl : s.link = .host h) :
    answers (Instr.rule i s) (s.collects i.payload.length) := by
  have hquiet : (answers (Instr.rule i s) fun t => t.images = s.images) →
      answers (Instr.rule i s) (s.collects i.payload.length) := collects_answers_of_same _
  have hunaccepted (ha : i.acceptedIn s.link = false) : answers (Instr.rule i s) (s.collects i.payload.length) :=
    hquiet (by rw [rule_unaccepted ha]; exact raising_images _ s)
  cases i with
  | init cs => exact hquiet (initRule_images s)
  | ok cs => exact hquiet (okRule_images s)
  | txrxAck cs => exact hquiet (txrxAckRule_images hl)
  | txrxDone cs => exact hquiet (txrxDoneRule_images s)
  | err e cs => exact hquiet (errRule_images hl)
  | txrxErr cs => exact hquiet (txrxErrRule_images s)
  | memdata P cs =>
    by_cases hw : h = .waitReadmemData
    · subst hw
      have hrule : Instr.rule (.memdata P cs) s = hostTakeBlock P s := memdataRule_host hl
      rw [hrule]
      exact hostTakeBlock_images P hl
    · exact hunaccepted (by rw [hl]; exact beq_false_of_ne hw)
  | ping | memid | disconnect | readmem | readnext | writemem | noneCmd | startxfer | endxfer | data | info =>
    exact hunaccepted (by rw [hl]; rfl)

theorem rule_images (i : Instr) (s : State) : answers (Instr.rule i s) (s.collects i.payload.length) := by
  cases hl : s.link with
  | host h => exact rule_images_host i hl
  | device d => exact collects_answers_of_same _ (rule_images_device i hl)

theorem exec_images (i : Instr) (s : State) : answers (exec i s) (s.collects i.payload.length) :=
  exec_answers (fun _ => .inl rfl) (fun _ => .inl (raise_images _ _)) (rule_images i { s with lastRxCmd := i.opcode })

/-- The payload of a received instruction is the `rx_len` bytes of its frame (R62, R141). -/
theorem frame_payload_length {ctx : DecCtx} {d : Decoder} {b : Byte} {f : Frame} {i : Instr}
    (hf : (decodeStep ctx d b).2 = some f) (hi : f.instr = some i) : i.payload.length = d.rxLen.toNat := by
  obtain ⟨-, -, -, rfl⟩ := decodeStep_frame _ _ _ _ hf
  have hpay : rxPayload ctx d = i.payload := congrArg Frame.payload (Frame.instr_eq_some _ _ hi)
  rw [← hpay, rxPayload, Memory.readBytes_length]

theorem rxByte_images (b : Byte) (s : State) : answers (rxByte b s) (s.collects s.dec.rxLen.toNat) :=
  rxByte_answers (.inl rfl) fun _ i hf hi => frame_payload_length hf hi ▸ exec_images i _

theorem txByte_appEv (s : State) : (txByte s).appEv = s.appEv := by
  unfold txByte
  split <;> rfl

theorem timerFired_images (s : State) : (timerFired s).images = s.images := by
  unfold timerFired
  split
  · exact raise_images _ (disarm s)
  · rfl

theorem liveTick_appEv (s : State) : (liveTick s).appEv = s.appEv := by
  unfold liveTick
  split
  · split
    · simp
    · rfl
  · rfl
  · rfl

@[simp] theorem loadImage_appEv (r : Request) (s : State) : (loadImage r s).appEv = s.appEv := by
  cases r <;> rfl

theorem hostReq_images (h : HostState) (r : Request) (s : State) : (hostReq h r s).images = s.images := by
  unfold hostReq; dsimp only
  split
  · simp
  · split
    · simp
    · split
      · simp
      · split <;> exact images_of_appEv (by simp)

theorem req_images (r : Request) (s : State) : (req r s).images = s.images := by
  unfold req
  split
  · exact hostReq_images _ r s
  · rfl

theorem reqConnect_appEv (s : State) : (reqConnect s).appEv = s.appEv := by
  unfold reqConnect
  split
  · simp
  · rfl
  · rfl

theorem hostDisconnect_images (h : HostState) (s : State) : (hostDisconnect h s).images = s.images := by
  unfold hostDisconnect; dsimp only
  rw [images_of_appEv (hostEnterDisconnected_appEv _), images_of_appEv (clearBuffers_appEv _),
    hostAbortPending_images, hostAbort_images]
  split <;> exact images_of_appEv (by simp)

theorem reqDisconnect_images (s : State) : (reqDisconnect s).images = s.images := by
  unfold reqDisconnect
  split
  · rfl
  · exact hostDisconnect_images _ s
  · rfl

/-- Every event but a reset hands over at most the image that a received block completes. -/
theorem handle_images {e : Event} (s : State) (he : e ≠ .reset) :
    answers (handle e s) (s.collects s.dec.rxLen.toNat) := by
  have hnext : ∀ t : State, t.images = s.images → answers (.next t) (s.collects s.dec.rxLen.toNat) :=
    fun t ht => (answers_next _ _).2 (.inl ht)
  cases e with
  | rxByte b => exact rxByte_images b s
  | txByte => exact hnext _ (images_of_appEv (txByte_appEv s))
  | timerFired => exact hnext _ (timerFired_images s)
  | liveTick => exact hnext _ (images_of_appEv (liveTick_appEv s))
  | req r => exact hnext _ (req_images r s)
  | reqConnect => exact hnext _ (images_of_appEv (reqConnect_appEv s))
  | reqDisconnect => exact hnext _ (reqDisconnect_images s)
  | reset => exact absurd rfl he

/-- A step hands over at most the image that a received block completes, or it is a reset, after which nothing has been notified (R300). -/
theorem step_images (s : State) : answers (step s) fun t => t.appEv = [] ∨ s.collects s.dec.rxLen.toNat t := by
  cases he : s.events with
  | nil => rw [step_idle s he]; exact (answers_next _ _).2 (.inr (.inl rfl))
  | cons e rest =>
    rw [step_event s e rest he]
    by_cases hreset : e = .reset
    · subst hreset
      exact (answers_next _ _).2 (.inl rfl)
    · exact fun t ht => .inr (handle_images { s with events := rest } hreset t ht)

/-- Settles O53: what `step_images` allows leaves no image in `evs` but the one that the block completes. -/
theorem imagesReachTheApplicationWhole : Obligations.ImagesReachTheApplicationWhole := by
  intro s s' evs img hstep hev himg
  have hmem : .memReceived img ∈ evs.filter AppEvent.isImage := List.mem_filter.2 ⟨himg, rfl⟩
  have hsplit : s'.images = s.images ++ evs.filter AppEvent.isImage := by
    rw [State.images, hev, List.filter_append]
    rfl
  rcases step_images s s' hstep with hnone | hsame | ⟨hl, hend, img', hsize, hone⟩
  · obtain ⟨-, rfl⟩ := List.append_eq_nil_iff.1 (hev.symm.trans hnone)
    cases himg
  · rw [List.self_eq_append_right.1 (hsame.symm.trans hsplit)] at hmem
    cases hmem
  · rw [← List.append_cancel_left (hone.symm.trans hsplit), List.mem_singleton] at hmem
    cases hmem
    exact ⟨hl, hsize, hend⟩

end Sys2Proof.Machine
end

