-- ==== Sys2Proof/Proofs/UnassignedCommands.lean ====
section
/-! PROOFS. The five commands without a dispatcher role: no table has a cell for them, and the violation is their whole effect (spec/47_cmd_unassigned.md R250 to R254). Settles O28. -/

namespace Sys2Proof.Machine

/-- A violation makes an enabled HOST reconnect with ERR_UNKNOWN (R264, R271). -/
theorem raise_protocolViolation_host {s : State} {h : HostState} (hl : s.link = .host h) (hen : s.linkEn = true) :
    raise .protocolViolation s = s.reconnected ErrorCode.unknown.byte := by
  simp only [raise, hl]
  exact hostReconnect_enabled _ hen

/-- A violation makes a DEVICE report ERR_UNKNOWN and go to its safe state (R269, R270, R271). -/
theorem raise_protocolViolation_device {s : State} {d : DevState} (hl : s.link = .device d) :
    raise .protocolViolation s = (s.sent cmdErr [ErrorCode.unknown.byte]).madeSafe d := by
  simp only [raise, hl]
  exact deviceError_eq .unknown hl

/-- The transition tables have no cell for NONE, STARTXFER, ENDXFER, DATA and INFO, in either role (R195, R196, R250 to R254). -/
theorem acceptedIn_unassigned {i : Instr} {cs : U16} {x : Byte} {P : List Byte}
    (hi : i = .noneCmd cs ∨ i = .startxfer cs ∨ i = .endxfer cs ∨ i = .data x cs ∨ i = .info P cs) (l : LinkState) :
    i.acceptedIn l = false := by
  rcases hi with rfl | rfl | rfl | rfl | rfl <;> cases l <;> rfl

/-- Settles O28: without a cell a command is a violation (O27), whose handler is `raise_protocolViolation_host` or `raise_protocolViolation_device`. -/
theorem unassignedCommandsAreAlwaysViolations : Obligations.UnassignedCommandsAreAlwaysViolations := by
  intro i s cs x P hi hv
  have hcs : i.csum = cs := by rcases hi with rfl | rfl | rfl | rfl | rfl <;> rfl
  have hviolation (hd : s.link ≠ .host .disconnected) (hh : s.link ≠ .host .halted) :
      exec i s = .next (raise .protocolViolation { s with lastRxCmd := i.opcode }) :=
    unexpectedCommandsAreViolations i s hd hh (hcs ▸ hv) (acceptedIn_unassigned hi s.link)
  refine ⟨fun h hl hd hh hen => ?_, fun d hl => ?_⟩
  · rw [hviolation (by simp [hl, hd]) (by simp [hl, hh]),
      raise_protocolViolation_host (s := { s with lastRxCmd := i.opcode }) hl hen]
    rfl
  · rw [hviolation (by simp [hl]) (by simp [hl]),
      raise_protocolViolation_device (s := { s with lastRxCmd := i.opcode }) hl]
    rfl

end Sys2Proof.Machine
end

