-- ==== Sys2Proof/Proofs/HaltedHost.lean ====
section
/-! PROOFS. What a halted HOST does with each event (spec/60_exceptions.md R266; spec/43_dispatch_core.md R174): only a reset moves it. Settles O51. -/

namespace Sys2Proof.Machine

/-- From `s` to `t` the link state stays and nothing is sent. -/
def State.staysSilent (s t : State) : Prop := t.link = s.link ∧ s.silent t

theorem staysSilent_refl (s : State) : s.staysSilent s := ⟨rfl, rfl, rfl⟩

/-- A halted HOST ignores every frame (R174). -/
theorem exec_halted {s : State} (i : Instr) (hl : s.link = .host .halted) :
    exec i s = .next { s with lastRxCmd := i.opcode } :=
  (deliveryChecksInOrder i s).1 (.inr hl)

/-- A received byte moves a halted HOST's decoder, and the frame that it may end is ignored (R141, R174). -/
theorem rxByte_halted {s : State} (b : Byte) (hl : s.link = .host .halted) : answers (rxByte b s) s.staysSilent := by
  refine rxByte_answers ⟨rfl, rfl, rfl⟩ fun _ i _ _ => ?_
  rw [exec_halted i (s := { s with dec := (decodeStep s.decCtx s.dec b).1 }) hl]
  exact (answers_next _ _).2 ⟨rfl, rfl, rfl⟩

/-- A byte handed over moves from the queue to the wire and leaves the link state (R124). -/
theorem txByte_staysSilent (s : State) : s.staysSilent (txByte s) := ⟨(txByte_same s).1, txByte_silent s⟩

/-- A deadline that expires in `H_HALTED` has no handler (R283). -/
theorem timerFired_halted {s : State} (hl : s.link = .host .halted) : s.staysSilent (timerFired s) := by
  unfold timerFired
  split
  · have hraise : raise .timeout (disarm s) = disarm s := by simp only [raise, disarm_link, hl, hostTimeout]
    rw [hraise]
    exact ⟨rfl, rfl, rfl⟩
  · exact staysSilent_refl s

/-- A request in `H_HALTED` is rejected, which is all that happens (R185). -/
theorem req_halted {s : State} (r : Request) (hl : s.link = .host .halted) : s.staysSilent (req r s) := by
  rw [req_host r hl, hostReq_halted]
  exact ⟨rfl, rfl, rfl⟩

/-- The liveness tick and the requests for the link do nothing in `H_HALTED` (R186 to R188). -/
theorem unheard_halted {s : State} (hl : s.link = .host .halted) :
    liveTick s = s ∧ reqConnect s = s ∧ reqDisconnect s = s := by
  simp only [liveTick, reqConnect, reqDisconnect, hl, and_self]

/-- `H_HALTED` is left by a reset alone, and nothing is sent from it (R266, R174). -/
theorem handle_halted {e : Event} {s : State} (hl : s.link = .host .halted) (he : e ≠ .reset) :
    answers (handle e s) s.staysSilent := by
  have hnext : ∀ t : State, s.staysSilent t → answers (.next t) s.staysSilent := fun t => (answers_next t s.staysSilent).2
  obtain ⟨htick, hconnect, hdisconnect⟩ := unheard_halted hl
  cases e with
  | rxByte b => exact rxByte_halted b hl
  | txByte => exact hnext _ (txByte_staysSilent s)
  | timerFired => exact hnext _ (timerFired_halted hl)
  | liveTick => exact hnext _ (by rw [htick]; exact staysSilent_refl s)
  | req r => exact hnext _ (req_halted r hl)
  | reqConnect => exact hnext _ (by rw [hconnect]; exact staysSilent_refl s)
  | reqDisconnect => exact hnext _ (by rw [hdisconnect]; exact staysSilent_refl s)
  | reset => exact absurd rfl he

/-- Settles O51: `handle_halted` for the event that the step takes, if it takes one. -/
theorem haltedHostIsStuckAndSilent : Obligations.HaltedHostIsStuckAndSilent := by
  intro s s' hl hr hstep
  have hstays : s.staysSilent s' := by
    cases he : s.events with
    | nil =>
      rw [step_idle s he] at hstep
      cases hstep
      exact staysSilent_refl s
    | cons e rest =>
      rw [step_event s e rest he] at hstep
      have hne : e ≠ .reset := fun h => hr (by rw [he, h]; rfl)
      exact handle_halted (s := { s with events := rest }) hl hne s' hstep
  obtain ⟨hlink, -, hout⟩ := hstays
  exact ⟨hlink.trans hl, hout⟩

end Sys2Proof.Machine
end

