-- ==== Sys2Proof/Proofs/EventOrder.lean ====
section
/-! PROOFS. The order in which events pending at once are served is the stable sort by rank (spec/60_exceptions.md R276). Settles O59. -/

namespace Sys2Proof.Machine

/-- `a` is served no later than `b`. -/
abbrev Event.before (a b : Event) : Prop := a.rank ≤ b.rank

theorem arbiterInsert_eq_orderedInsert (e : Event) (es : List Event) :
    arbiterInsert e es = es.orderedInsert Event.before e := by
  induction es with
  | nil => rfl
  | cons f rest ih => rw [arbiterInsert, List.orderedInsert_cons, ih]

/-- Arbitration is the library's insertion sort by rank (R276). -/
theorem arbitrate_eq_insertionSort (es : List Event) : arbitrate es = es.insertionSort Event.before := by
  induction es with
  | nil => rfl
  | cons e rest ih => rw [arbitrate, List.insertionSort_cons, ih, arbiterInsert_eq_orderedInsert]

theorem arbitrate_perm (es : List Event) : (arbitrate es).Perm es := by
  rw [arbitrate_eq_insertionSort]
  exact List.perm_insertionSort _ es

theorem arbitrate_sorted (es : List Event) : (arbitrate es).Pairwise Event.before := by
  have htotal : Std.Total Event.before := ⟨fun a b => le_total a.rank b.rank⟩
  have htrans : IsTrans Event Event.before := ⟨fun _ _ _ => le_trans⟩
  rw [arbitrate_eq_insertionSort]
  exact List.pairwise_insertionSort Event.before es

/-- An event passes only events of other ranks, so the events of each rank stand as if it had been put in front. -/
theorem arbiterInsert_filter_rank (k : Nat) (e : Event) (es : List Event) :
    (arbiterInsert e es).filter (fun f => f.rank == k) = (e :: es).filter (fun f => f.rank == k) := by
  induction es with
  | nil => rfl
  | cons f rest ih =>
    unfold arbiterInsert
    split
    · rfl
    · next hlt =>
      have hother : ¬ (f.rank = k ∧ e.rank = k) := by omega
      rw [List.filter_cons, ih]
      by_cases hf : f.rank = k
      · have he : e.rank ≠ k := fun h => hother ⟨hf, h⟩
        simp [hf, he]
      · simp [List.filter_cons, hf]

/-- Arbitration is stable: it keeps the order of the events of each rank. -/
theorem arbitrate_filter_rank (k : Nat) (es : List Event) :
    (arbitrate es).filter (fun f => f.rank == k) = es.filter (fun f => f.rank == k) := by
  induction es with
  | nil => rfl
  | cons e rest ih => rw [arbitrate, arbiterInsert_filter_rank, List.filter_cons, List.filter_cons, ih]

/-- Settles O59: a stable sort by rank, and the ranks are in the order of R276. -/
theorem simultaneousEventsAreServedInOrder : Obligations.SimultaneousEventsAreServedInOrder := by
  intro es
  exact ⟨arbitrate_perm es, arbitrate_sorted es, fun k => arbitrate_filter_rank k es,
    fun _ _ => by simp only [Event.rank]; decide⟩

end Sys2Proof.Machine
end

