-- ==== Sys2Proof/Proofs/ExceptionHandlers.lean ====
section
/-! PROOFS. The reply timer and the handlers of the five exceptions in either role, each as the effect that the statements write out (spec/60_exceptions.md R262 to R284). Settles O20, O23, O24 and O25. -/

namespace Sys2Proof.Machine

/-! The reply timer (R280, R281). -/

/-- `CANCEL` with a deadline outstanding (R281). -/
theorem cancel_of_armed {s : State} (h : s.timerArmed = true) :
    cancel s = { s with timerArmed := false, timerCmd := s.timerCmd ++ [.cancel] } := if_pos h

/-- Settles O20: the two branches of `CANCEL`. -/
theorem armAndCancelTheReplyTimer : Obligations.ArmAndCancelTheReplyTimer := fun _ s =>
  ⟨rfl, cancel_of_armed, cancel_of_disarmed s⟩

/-! The handlers of a HOST (R264, R266, R283). -/

/-- `host_reconnect(kind)` with the link disabled, executed as written: nothing is sent or armed (R264, R179). -/
theorem hostReconnect_disabled {s : State} (kind : Byte) (hen : s.linkEn = false) :
    hostReconnect kind s =
      { s with
        timerArmed := false, timerCmd := s.timerCmd ++ s.cancelCall
        appEv := s.appEv ++ finished s.curOp (.err kind) ++ [.reconnect kind], curOp := none
        dec := s.dec.cleared, xferCnt := 0, blkLen := 0, retryCnt := 0
        connected := false, memtype := 0x00, link := .host .disconnected } := by
  unfold hostReconnect
  rw [hostAbort_eq, cancel_eq]
  exact hostEnterDisconnected_disabled hen

/-- A violation, a broken checksum and too many retries all reconnect a HOST, with their own kind (R264). -/
theorem raise_host_reconnects {s : State} {h : HostState} {x : Exn} {kind : Byte} (hl : s.link = .host h)
    (hx : (x, kind) ∈ ([(.protocolViolation, 1), (.checksumFailure, 5), (.retryExceeded, 6)] : List (Exn × Byte))) :
    raise x s = hostReconnect kind s := by
  simp only [List.mem_cons, Prod.mk.injEq, List.not_mem_nil, or_false] at hx
  unfold raise
  rw [hl]
  rcases hx with ⟨rfl, rfl⟩ | ⟨rfl, rfl⟩ | ⟨rfl, rfl⟩ <;> rfl

/-- Settles O23: each of the three is a reconnect, with the link enabled or disabled. -/
theorem hostReconnectsOnErrors : Obligations.HostReconnectsOnErrors := by
  intro s h x kind hl hx
  rw [raise_host_reconnects hl hx]
  exact ⟨hostReconnect_enabled kind, hostReconnect_disabled kind⟩

/-- A missed reply reconnects a HOST in `H_INIT` and wherever an operation waits (R283). -/
theorem raise_timeout_waiting {s : State} {h : HostState} (hl : s.link = .host h)
    (hh : h ∈ ([.init, .waitPing, .waitReadmemOk, .waitReadmemData, .waitWritememOk, .waitWritememAck] :
      List HostState)) : raise .timeout s = hostReconnect 7 s := by
  simp only [List.mem_cons, List.not_mem_nil, or_false] at hh
  unfold raise
  rw [hl]
  rcases hh with rfl | rfl | rfl | rfl | rfl | rfl <;> rfl

/-- No answer to `MEMID` halts a HOST (R266, R283). -/
theorem raise_timeout_memid {s : State} (hl : s.link = .host .memid) : raise .timeout s = s.haltedBy 7 := by
  unfold raise
  rw [hl]
  exact hostHalt_eq 7 s

/-! The handlers of a DEVICE (R268 to R271, R284). -/

/-- A broken checksum outside `D_WRITE` is reported as ERR_COMM (R268). -/
theorem raise_checksumFailure_reported {s : State} {d : DevState} (hl : s.link = .device d) (hd : d ≠ .write) :
    raise .checksumFailure s = (s.sent 0xF0 [0x05]).madeSafe d := by
  have hhandler : devChecksumFailure d s = deviceError .comm s := by
    cases d with
    | write => exact absurd rfl hd
    | _ => rfl
  unfold raise
  rw [hl]
  exact hhandler.trans (deviceError_eq .comm hl)

/-- A broken block of a write is asked for again (R268). -/
theorem raise_checksumFailure_writing {s : State} (hl : s.link = .device .write) :
    raise .checksumFailure s =
      { s.sent 0xF1 [] with
        timerArmed := true, timerMs := 1500, timerCmd := s.timerCmd ++ s.cancelCall ++ [.arm 1500] } := by
  unfold raise
  rw [hl]
  show arm tChunk (send cmdTxrxErr [] (cancel s)) = _
  rw [send_empty _ _ (plen_txrxErr _), cancel_eq, sent_eq, sent_eq]
  rfl

/-- A missed frame in a handshake or a transfer is reported as ERR_TIMEOUT (R284). -/
theorem raise_timeout_device {s : State} {d : DevState} (hl : s.link = .device d)
    (hd : d ∈ ([.waitMemid, .read, .write] : List DevState)) :
    raise .timeout s = (s.sent 0xF0 [0x07]).madeSafe d := by
  have hhandler : devTimeout d s = deviceError .timeout s := by
    simp only [List.mem_cons, List.not_mem_nil, or_false] at hd
    rcases hd with rfl | rfl | rfl <;> rfl
  unfold raise
  rw [hl]
  exact hhandler.trans (deviceError_eq .timeout hl)

/-- Settles O24: the handler of each exception in each link state. -/
theorem deviceReportsErrorsAndMakesItselfSafe : Obligations.DeviceReportsErrorsAndMakesItselfSafe := by
  intro s d hl
  refine ⟨fun code => Host.Outcome.next.inj (raising_deviceError code hl), raise_protocolViolation_device hl,
    raise_checksumFailure_reported hl, fun hd => ?_⟩
  subst hd
  exact raise_checksumFailure_writing hl

/-! The expiry (R282). -/

/-- An expiry with no deadline outstanding does nothing (R282). -/
theorem timerFired_disarmed {s : State} (h : s.timerArmed = false) : timerFired s = s := by simp [timerFired, h]

/-- An expired deadline is disarmed without a `CANCEL`, and `Timeout` is raised (R282). -/
theorem timerFired_armed {s : State} (h : s.timerArmed = true) :
    timerFired s = raise .timeout (disarm s) := if_pos h

/-- Settles O25: the handler of `Timeout` in each role and state, on the state with the deadline disarmed. -/
theorem timerExpiryRunsTheTimeoutHandler : Obligations.TimerExpiryRunsTheTimeoutHandler := by
  intro s rest he
  have hstep : step s = .next (timerFired { s with events := rest }) := step_event s .timerFired rest he
  refine ⟨fun hoff => ?_, fun harmed => ?_⟩
  · rw [hstep, timerFired_disarmed (s := { s with events := rest }) hoff]
  · rw [hstep, timerFired_armed (s := { s with events := rest }) harmed]
    refine ⟨fun h hl hen hh => ?_, fun hl => ?_, fun d hl hd => ?_⟩
    · rw [raise_timeout_waiting (by exact hl) hh, hostReconnect_enabled 7 (by exact hen)]; rfl
    · rw [raise_timeout_memid (by exact hl)]; rfl
    · rw [raise_timeout_device (by exact hl) hd]; rfl

end Sys2Proof.Machine
end

