-- ==== Sys2Proof/Proofs/Reset.lean ====
section
/-! PROOFS. The state that a reset event leaves (spec/70_reset_and_hazards.md R300; spec/10_state.md R50). Settles O48. -/

namespace Sys2Proof.Machine

/-- A reset disconnects the link in the role that it has (R2, R50). -/
theorem resetEvent_link (s : State) : (resetEvent s).link = s.link.role.disconnected := by
  rw [← State.role_eq]; rfl

/-- Settles O48: each register by the reset state that `resetEvent` puts in place, the link state by its role. -/
theorem resetClearsEveryRegister : Obligations.ResetClearsEveryRegister := by
  intro s rest he
  have hlink := resetEvent_link { s with events := rest }
  refine ⟨resetEvent { s with events := rest }, step_event s .reset rest he,
    rfl, rfl, rfl, rfl, rfl, rfl, Memory.lookup_nil, Memory.lookup_nil,
    rfl, rfl, rfl, rfl, rfl, rfl, rfl, rfl, rfl, rfl, rfl, rfl, rfl, rfl, rfl, rfl, rfl, rfl,
    fun h hl => ?_, fun d hl => ?_, rfl, rfl, rfl⟩
  · rw [hlink, hl]; rfl
  · rw [hlink, hl]; rfl

end Sys2Proof.Machine
end
